-- ==== Sys2Proof/Word.lean ====
section
/-! DEFINITION. The bit-vector types of NSQ: bus words, bytes, host addresses and IEEE-754 patterns (00_scope.md R6, R8; 20_memory.md R80). -/

namespace Sys2Proof

/-- A 32-bit register or bus word (20_memory.md R80). -/
abbrev Word := BitVec 32

/-- One byte of a sample buffer (20_memory.md R86). -/
abbrev Byte := BitVec 8

/-- A host byte address: the space has 2^18 bytes (20_memory.md R80). -/
abbrev Addr := BitVec 18

/-- The bit pattern of an IEEE-754 binary64 value (00_scope.md R8). -/
abbrev F64 := BitVec 64

/-- The bit pattern of an IEEE-754 binary32 value (00_scope.md R11). -/
abbrev F32 := BitVec 32

/-- `{hi, lo}`: the binary64 whose halves are two registers (10_state.md R57). -/
def joinHalves (hi lo : Word) : F64 := hi ++ lo

/-- Bits 63:32 or bits 31:0 of a binary64 (10_state.md R57, 20_memory.md R83). -/
def half (high : Bool) (v : F64) : Word :=
  if high then v.extractLsb' 32 32 else v.extractLsb' 0 32

end Sys2Proof
end

