-- ==== Sys2Proof/Config.lean ====
section
/-! DEFINITION. What one NSQ block fixes (the parameters of 00_scope.md R4 and R5), the test fixture, and the free values the spec leaves open (93_implementation_defined.md U4). -/

namespace Sys2Proof

/-- One entry of the filter catalog (00_scope.md R5). -/
structure FilterSpec where
  name : BitVec 8
  targetRate : F64
  coefficients : List F64
  tapCount : Nat
  deriving DecidableEq, Repr

/-- The implementation parameters of one block (00_scope.md R4). -/
structure Params where
  cap : Nat
  numNs : Nat
  ibufEntries : Nat
  obufBytes : Nat
  catalog : List FilterSpec
  deriving DecidableEq, Repr

/-- The fixture catalog TC (95_test_vectors.md section 1). -/
def Config.catalogTC : List FilterSpec :=
  [ { name := 2, targetRate := 0x40E5888000000000#64, tapCount := 2,
      coefficients := [0x3FE0000000000000#64, 0xBFD0000000000000#64] },
    { name := 2, targetRate := 0x40E7700000000000#64, tapCount := 3,
      coefficients := [0x3FF0000000000000#64, 0x3FE0000000000000#64, 0x3FD0000000000000#64] },
    { name := 3, targetRate := 0x40E5888000000000#64, tapCount := 4,
      coefficients := [0x3FD0000000000000#64, 0x3FD0000000000000#64, 0x3FD0000000000000#64,
        0x3FD0000000000000#64] },
    { name := 2, targetRate := 0x40E6760000000000#64, tapCount := 1,
      coefficients := [0xBFF0000000000000#64] } ]

/-- The test fixture of 00_scope.md R4: the parameters `State.reset` is built with.
DESIGN CHOICE, unsafe (log 1): the spec makes them no claim about any product; no statement but those
about concrete configurations rests on them. -/
def Config.fixture : Params :=
  { cap := 4, numNs := 2, ibufEntries := 16, obufBytes := 128, catalog := Config.catalogTC }

/-- The free bytes: what the k-th host read of a byte that nothing has written since reset returns.
It has no body, so nothing can be proved of its values (20_memory.md R87; 93 U4; logs 7 and 8). -/
opaque Config.freeByte : Nat → Byte

end Sys2Proof
end

