-- ==== Sys2Proof/Syntax.lean ====
section
/-! DEFINITION. The ten commands of NSQ, one constructor per row of spec/opcode_table.json (30_encoding.md R124). -/

namespace Sys2Proof

/-- A valid command word. No command has an operand field: operands come from registers when the
block executes it (30_encoding.md R120, R122). -/
inductive Instr where
  /-- NOP, word 0x00000000 (40_catalog_and_init.md R160). -/
  | nop
  /-- INIT, word 0x00000001 (40_catalog_and_init.md R158). -/
  | init
  /-- FILL.S16, word 0x00000002 (42_fill.md R214). -/
  | fillS16
  /-- FILL.S32, word 0x00000012 (42_fill.md R215). -/
  | fillS32
  /-- FILL.F32, word 0x00000022 (42_fill.md R216). -/
  | fillF32
  /-- FILL.F64, word 0x00000032 (42_fill.md R217). -/
  | fillF64
  /-- QUANT.S16, word 0x00000003 (43_quantize.md R240). -/
  | quantS16
  /-- QUANT.S32, word 0x00000013 (43_quantize.md R241). -/
  | quantS32
  /-- QUANT.F32, word 0x00000023 (43_quantize.md R242). -/
  | quantF32
  /-- QUANT.F64, word 0x00000033 (43_quantize.md R243). -/
  | quantF64
  deriving DecidableEq, Repr

end Sys2Proof
end

