-- ==== Sys2Proof/WellFormed.lean ====
section
/-! DEFINITION. The checks of well-formed data: command words (30_encoding.md R123), catalog entries and parameters (00_scope.md R4, R5). -/

namespace Sys2Proof

/-- A command word is valid: no reserved bit set, OP at most 3, and REP zero for NOP and INIT
(30_encoding.md R123). -/
def commandWordValid (w : Word) : Bool :=
  w.extractLsb' 6 26 == 0 &&
    ((w.extractLsb' 0 4).toNat ≤ 1 && w.extractLsb' 4 2 == 0
      || (w.extractLsb' 0 4 == 2 || w.extractLsb' 0 4 == 3))

/-- The exponent field is not all ones: the pattern is neither an infinity nor a NaN (00_scope.md R8). -/
def patternFinite (v : F64) : Bool := v.extractLsb' 52 11 != 0x7FF#11

/-- `name` is a shaping method code, 2 .. 1+NUM_NS (00_scope.md R5). -/
def FilterSpec.nameOk (numNs : Nat) (e : FilterSpec) : Bool :=
  2 ≤ e.name.toNat && e.name.toNat ≤ 1 + numNs

/-- `targetRate` is a finite binary64 > 0 (00_scope.md R5). -/
def FilterSpec.rateOk (e : FilterSpec) : Bool :=
  0 < e.targetRate.toNat && e.targetRate.toNat < 0x7FF0000000000000

/-- Every coefficient is finite (00_scope.md R5). -/
def FilterSpec.coefficientsOk (e : FilterSpec) : Bool := e.coefficients.all patternFinite

/-- `tapCount = length(coefficients)` and `tapCount <= CAP` (00_scope.md R5). -/
def FilterSpec.tapsOk (cap : Nat) (e : FilterSpec) : Bool :=
  e.tapCount == e.coefficients.length && e.tapCount ≤ cap

/-- The constraints on one catalog entry (00_scope.md R5). -/
def FilterSpec.wf (cap numNs : Nat) (e : FilterSpec) : Bool :=
  e.nameOk numNs && e.rateOk && e.coefficientsOk && e.tapsOk cap

/-- The constraints on the parameters (00_scope.md R4, R5). -/
def Params.wf (p : Params) : Bool :=
  (1 ≤ p.cap && p.cap ≤ 512) && (1 ≤ p.numNs && p.numNs ≤ 253)
    && (1 ≤ p.ibufEntries && p.ibufEntries ≤ 8192)
    && (8 ≤ p.obufBytes && p.obufBytes ≤ 65536 && p.obufBytes % 8 == 0)
    && p.catalog.all (FilterSpec.wf p.cap p.numNs)

end Sys2Proof
end

