-- ==== Sys2Proof/Decode.lean ====
section
/-! DEFINITION. The decoder of command words, total and rejecting by name, and the encoder (30_encoding.md R120 to R126). -/

namespace Sys2Proof

/-- Why a word is illegal: the three groups of 30_encoding.md R125. -/
inductive DecodeError where
  /-- A bit of [31:6] is set. -/
  | reservedBits
  /-- OP is 4 to 15. -/
  | reservedOp
  /-- OP is NOP or INIT and REP is not 0. -/
  | repNotZero
  deriving DecidableEq, Repr

/-- OP, bits [3:0] (30_encoding.md R120). -/
def opField (w : Word) : BitVec 4 := w.extractLsb' 0 4

/-- REP, bits [5:4] (30_encoding.md R120). -/
def repField (w : Word) : BitVec 2 := w.extractLsb' 4 2

/-- RSV, bits [31:6] (30_encoding.md R120). -/
def rsvField (w : Word) : BitVec 26 := w.extractLsb' 6 26

/-- Decodes one command word: every word is a row of the opcode table or illegal
(30_encoding.md R123, R124, R125). -/
def decode (w : Word) : Except DecodeError Instr :=
  if rsvField w = 0 then
    match (opField w).toNat, (repField w).toNat with
    | 0, 0 => .ok .nop
    | 0, _ => .error .repNotZero
    | 1, 0 => .ok .init
    | 1, _ => .error .repNotZero
    | 2, 0 => .ok .fillS16
    | 2, 1 => .ok .fillS32
    | 2, 2 => .ok .fillF32
    | 2, _ => .ok .fillF64
    | 3, 0 => .ok .quantS16
    | 3, 1 => .ok .quantS32
    | 3, 2 => .ok .quantF32
    | 3, _ => .ok .quantF64
    | _, _ => .error .reservedOp
  else .error .reservedBits

/-- A command word from its fields (30_encoding.md R120). -/
def commandWord (op : BitVec 4) (rep : BitVec 2) : Word := (0#26 ++ rep) ++ op

/-- The word of each command, from the OP and REP columns of 30_encoding.md R124. -/
def encode : Instr → Word
  | .nop => commandWord 0 0
  | .init => commandWord 1 0
  | .fillS16 => commandWord 2 0
  | .fillS32 => commandWord 2 1
  | .fillF32 => commandWord 2 2
  | .fillF64 => commandWord 2 3
  | .quantS16 => commandWord 3 0
  | .quantS32 => commandWord 3 1
  | .quantF32 => commandWord 3 2
  | .quantF64 => commandWord 3 3

/-- An instruction is well formed when its word is a valid command word; `Instr` has no operand
that could break this (30_encoding.md R123). -/
def Instr.wf (i : Instr) : Bool := commandWordValid (encode i)

/-- What the decoder reads from the command whose bits are `w`. A command is one 32-bit word, so a
row's word is given to `decode` as it stands (30_encoding.md R126). -/
def decodeTableWord (nbits w : Nat) : Option Instr :=
  if nbits ≤ 32 then
    match decode (BitVec.ofNat 32 (w % 2 ^ nbits)) with
    | .ok i => some i
    | .error _ => none
  else none

end Sys2Proof
end

