-- ==== Sys2Proof/Machine/State.lean ====
section
/-! DEFINITION. The state of NSQ as plain data: the registers of 10_state.md, the buffers of 20_memory.md, the bus and the host's side of it; reset (70_reset_and_hazards.md R310); faults and refusals. -/

namespace Sys2Proof.Machine

/-- The buffer bytes written since reset, as (host address, byte) pairs with addresses strictly rising.
IBUF stands at 0x10000 and OBUF at 0x20000 (20_memory.md R82). An address that is not listed has no
value: nothing has written it (20_memory.md R85, R87). -/
abbrev Mem := List Host.Cell

/-- The representation of an output sample (20_memory.md R88, 30_encoding.md R121). -/
inductive Rep where
  | s16
  | s32
  | f32
  | f64
  deriving DecidableEq, Repr

/-- The result of `Conv`: an integer, a binary32 or a binary64 (43_quantize.md R230, R231). -/
inductive Sample where
  | int (q : Int)
  | f32 (q : F32)
  | f64 (q : F64)
  deriving DecidableEq, Repr

/-- STATUS.ERR_CODE, one name per code the block can produce (60_exceptions.md R272). -/
inductive ErrCode where
  /-- 0: no error since reset or since the last W1C of ERR. -/
  | none
  /-- 1: the word is not one of the ten commands. -/
  | illegal
  /-- 2: INIT, the method code is not valid. -/
  | badMethod
  /-- 3: INIT, a format code is not in 0..4. -/
  | badFormat
  /-- 4: INIT, the strength is NaN, +∞ or not >= 0. -/
  | badStrength
  /-- 5: FILL and QUANT, OUT_BASE is not aligned to the sample width. -/
  | align
  /-- 6: FILL and QUANT, the samples do not fit the buffers. -/
  | range
  /-- 7: FILL and QUANT, S_METHOD is not a valid method. -/
  | fatal
  deriving DecidableEq, Repr

/-- A host transaction on the register bus (20_memory.md R80). -/
inductive Txn where
  | read (addr : Addr)
  | write (addr : Addr) (data : Word)
  deriving DecidableEq, Repr

/-- The response code of a transaction (20_memory.md R80). -/
inductive Resp where
  | ok
  | error
  deriving DecidableEq, Repr

/-- What a transaction gives back to the host (20_memory.md R80). -/
inductive Response where
  | read (data : Word) (resp : Resp)
  | write (resp : Resp)
  deriving DecidableEq, Repr

/-- One thing the host does: a transaction, or WAIT, which repeats a read of STATUS until BUSY = 0
(30_encoding.md R128). -/
inductive HostOp where
  | txn (t : Txn)
  | wait
  deriving DecidableEq, Repr

/-- Who moves: the host or the block (00_scope.md R3), or the platform, which drives the reset input
(70_reset_and_hazards.md R311). -/
inductive Agent where
  | host
  | block
  | platform
  deriving DecidableEq, Repr

/-- Everything the spec gives the machine (INVENTORY.md, State). -/
structure State where
  /-- The instance parameters, constant: PARAM0 to PARAM2 show four of them, CATALOG is hidden
  (10_state.md R31, R55; 00_scope.md R4, R5). -/
  params : Params
  /-- PEND, the command word accepted but not yet executed (10_state.md R55). -/
  pend : Word
  /-- STATUS.BUSY (10_state.md R33). -/
  busy : Bool
  /-- STATUS.DONE (10_state.md R33). -/
  done : Bool
  /-- STATUS.ERR (10_state.md R33). -/
  err : Bool
  /-- STATUS.WARN (10_state.md R33). -/
  warn : Bool
  /-- STATUS.NAN (10_state.md R33). -/
  nan : Bool
  /-- STATUS.FATAL (10_state.md R33). -/
  fatal : Bool
  /-- STATUS.ERR_CODE (10_state.md R33). -/
  errCode : ErrCode
  /-- IRQ_EN bits [5:1] (10_state.md R34). -/
  irqEn : BitVec 5
  /-- ERR_INFO (10_state.md R35). -/
  errInfo : Word
  /-- LEN (10_state.md R37). -/
  len : Word
  /-- IN_BASE (10_state.md R37). -/
  inBase : Word
  /-- OUT_BASE (10_state.md R37). -/
  outBase : Word
  /-- CFG_METHOD [7:0] (10_state.md R39). -/
  cfgMethod : BitVec 8
  /-- CFG_FMT [7:0]: SRC in [3:0], DST in [7:4] (10_state.md R40). -/
  cfgFmt : BitVec 8
  /-- CFG_RATE (10_state.md R41). -/
  cfgRate : Word
  /-- CFG_SEED (10_state.md R42). -/
  cfgSeed : Word
  /-- CFG_STRENGTH_LO (10_state.md R43, R57). -/
  cfgStrengthLo : Word
  /-- CFG_STRENGTH_HI (10_state.md R43, R57). -/
  cfgStrengthHi : Word
  /-- S_METHOD [7:0] (10_state.md R44). -/
  sMethod : BitVec 8
  /-- S_FMT [7:0] (10_state.md R45). -/
  sFmt : BitVec 8
  /-- S_TAPS [9:0], TAPS (10_state.md R46). -/
  sTaps : BitVec 10
  /-- S_POS [9:0], POS (10_state.md R47). -/
  sPos : BitVec 10
  /-- S_SEED, SEED (10_state.md R48). -/
  sSeed : Word
  /-- S_RATIO, RATIO (10_state.md R49). -/
  sRatio : F64
  /-- S_SCALE, SCALE (10_state.md R50). -/
  sScale : F64
  /-- S_INVSCALE, INV_SCALE (10_state.md R51). -/
  sInvScale : F64
  /-- COEF[0..CAP-1] (10_state.md R52). -/
  coef : List F64
  /-- HIST[0..CAP-1] (10_state.md R53). -/
  hist : List F64
  /-- IBUF and OBUF (20_memory.md R84 to R87). -/
  mem : Mem
  /-- The transaction that is held, if there is one (70_reset_and_hazards.md R320). -/
  held : Option Txn
  /-- What the host has still to issue, first to come first (10_state.md R30; log 2). -/
  hostQueue : List HostOp
  /-- What the host has got back, oldest first (20_memory.md R80; log 2). -/
  responses : List Response
  /-- The model's own: whose turn each coming step is; when empty, the block moves if BUSY, else the
  host (93_implementation_defined.md U10; log 3). -/
  turns : List Agent
  /-- The model's own: how many free bytes have been drawn (93_implementation_defined.md U4; log 7). -/
  freeCount : Nat
  deriving DecidableEq, Repr

/-- Why the machine stops with no defined result. -/
inductive Fault where
  /-- Raised by QUANT.S16, QUANT.S32, QUANT.F32 and QUANT.F64 when they read an IBUF entry that has not
  had both halves written since reset: the spec says that the model faults (60_exceptions.md R277 (a),
  20_memory.md R85). Safe: the model stops where the hardware goes on with an unspecified value. -/
  | unwrittenIbuf (entry : Nat)
  deriving DecidableEq, Repr

/-- What the model gives no meaning to. -/
inductive Refusal where
  /-- Raised by an arm of `exec` whose instruction has no meaning yet; no arm does. Safe. -/
  | notModelled (mnemonic : String)
  /-- Raised by `build` when the parameters break 00_scope.md R4 or R5: the spec says that the model
  builds no such block (60_exceptions.md R277 (b), 93 U5). Safe. -/
  | badParameters
  deriving DecidableEq, Repr

/-- The state after reset of the block with parameters `p`: every row of 70_reset_and_hazards.md R310,
no transaction held, nothing for the host to issue and no turn fixed. -/
def State.resetOf (p : Params) : State where
  params := p
  pend := 0
  busy := false
  done := false
  err := false
  warn := false
  nan := false
  fatal := false
  errCode := .none
  irqEn := 0
  errInfo := 0
  len := 0
  inBase := 0
  outBase := 0
  cfgMethod := 0
  cfgFmt := 0
  cfgRate := 0
  cfgSeed := 0
  cfgStrengthLo := 0
  cfgStrengthHi := 0
  sMethod := 0xFF
  sFmt := 0
  sTaps := 0
  sPos := 0
  sSeed := 0
  sRatio := 0
  sScale := 0
  sInvScale := 0
  coef := List.replicate p.cap 0
  hist := List.replicate p.cap 0
  mem := []
  held := none
  hostQueue := []
  responses := []
  turns := []
  freeCount := 0

/-- The machine right after reset, with the test fixture's parameters (log 1). -/
def State.reset : State := State.resetOf Config.fixture

end Sys2Proof.Machine
end

