-- ==== Sys2Proof/Machine/Ops.lean ====
section
/-! DEFINITION. The named operations over memory and registers: buffer bytes, MemRead and MemWrite, the coefficient and history files, completion, the recording of errors and of the fatal fault, and the reset input. -/

namespace Sys2Proof.Machine

/-! ### Buffer bytes -/

/-- The byte at a host address, `none` when nothing has written it since reset (20_memory.md R85, R87). -/
def memByte : Mem → Nat → Option Byte
  | [], _ => none
  | (b, v) :: m, a => if a = b then some v else memByte m a

/-- The memory with the byte at `a` set; the addresses stay strictly rising. -/
def memSet : Mem → Nat → Byte → Mem
  | [], a, v => [(a, v)]
  | (b, w) :: m, a, v =>
    if a < b then (a, v) :: (b, w) :: m
    else if a = b then (a, v) :: m
    else (b, w) :: memSet m a v

/-- Addresses strictly rise: the canonical form, in which equal memories are equal lists. An unlisted
address has no value, so no entry can equal what it reads as. -/
def Mem.wf : Mem → Bool
  | [] => true
  | [_] => true
  | x :: y :: m => x.1 < y.1 && Mem.wf (y :: m)

/-- `MemRead(addr, n)` at a host address: n bytes, least significant first; `none` when one of them is
unwritten (20_memory.md R86). -/
def memRead (m : Mem) (a : Nat) : Nat → Option Nat
  | 0 => some 0
  | n + 1 =>
    match memByte m a, memRead m (a + 1) n with
    | some b, some rest => some (b.toNat + 256 * rest)
    | _, _ => none

/-- `MemWrite(addr, n, v)` at a host address: byte addr+m receives `v[8m+7:8m]` (20_memory.md R86). -/
def memWrite (m : Mem) (a : Nat) : Nat → Nat → Mem
  | 0, _ => m
  | n + 1, v => memWrite (memSet m a (BitVec.ofNat 8 v)) (a + 1) n (v / 256)

/-- The host address of IBUF entry 0 (20_memory.md R82). -/
def ibufOrigin : Nat := 0x10000

/-- The host address of OBUF byte 0 (20_memory.md R82). -/
def obufOrigin : Nat := 0x20000

/-- `IbufRead(i)`: entry i of IBUF as a binary64, `none` unless both halves have been written since
reset (20_memory.md R84, R85). -/
def ibufRead (m : Mem) (i : Nat) : Option F64 :=
  (memRead m (ibufOrigin + 8 * i) 8).map (BitVec.ofNat 64)

/-! ### The coefficient file and the history file -/

/-- `COEF[k]` or `HIST[k]` (10_state.md R52, R53). The files have CAP entries; outside them, where no
rule reads, +0.0 (log 15). -/
def fileRead (f : List F64) (k : Nat) : F64 := f.getD k 0

/-- `HIST[k] <- v` (43_quantize.md R235). -/
def fileWrite (f : List F64) (k : Nat) (v : F64) : List F64 := f.set k v

/-- A file of CAP entries, all +0.0 (40_catalog_and_init.md R155). -/
def zeroFile (cap : Nat) : List F64 := List.replicate cap 0

/-- The coefficient file after `COEF[k] <- e.coefficients[k]` for k in 0 .. e.tapCount-1, over +0.0
(40_catalog_and_init.md R155, R156). -/
def loadCoefficients (cap : Nat) (e : FilterSpec) : List F64 :=
  (List.range cap).map fun k => if k < e.tapCount then fileRead e.coefficients k else 0

/-- `(n) mod CAP` for a possibly negative n: the representative in 0 .. CAP-1 (00_scope.md R6). -/
def modCap (cap : Nat) (n : Int) : Nat := (n % (cap : Int)).toNat

/-! ### Completion, errors and the fatal fault -/

/-- `STATUS.DONE <- 1` (60_exceptions.md R271). -/
def complete (s : State) : State := { s with done := true }

/-- `raise Err(code)`: ERR, ERR_CODE, ERR_INFO and DONE are written and nothing else; there is no
vector, no saved state and no mode (60_exceptions.md R273, R278). -/
def raiseErr (code : ErrCode) (s : State) : State :=
  { s with err := true, errCode := code, errInfo := s.pend, done := true }

/-- `raise Fatal`: as an error with code 7, and FATAL is set (60_exceptions.md R275). -/
def raiseFatal (s : State) : State := { raiseErr .fatal s with fatal := true }

/-- The host's acknowledgement by a W1C of STATUS, which is what NSQ has in place of a return from an
exception: bit 1 clears DONE, bit 2 clears ERR and ERR_CODE, bit 3 clears WARN, bit 4 clears NAN; every
other bit is ignored (10_state.md R33, 60_exceptions.md R279). -/
def acknowledge (w : Word) (s : State) : State :=
  { s with
    done := s.done && !w.getLsbD 1
    err := s.err && !w.getLsbD 2
    errCode := if w.getLsbD 2 then .none else s.errCode
    warn := s.warn && !w.getLsbD 3
    nan := s.nan && !w.getLsbD 4 }

/-! ### Reset and building -/

/-- The reset input: every item of 70_reset_and_hazards.md R310 takes its value in one step, a pending
command is discarded and a held transaction ends with no effect and no response (R311; log 13). A
transaction that was held still counts as held after BUSY = 0 until the host's next turn, and a reset
before that turn ends it too: DESIGN CHOICE, unsafe (log 22). What the host has still to issue, what it
has got back, the turns and the count of free bytes drawn are not the block's and stay (log 14). -/
def platformReset (s : State) : State :=
  { State.resetOf s.params with
    hostQueue := s.hostQueue
    responses := s.responses
    turns := s.turns
    freeCount := s.freeCount }

/-- A block with parameters `p`, right after reset. Parameters that break 00_scope.md R4 or R5 build
none (60_exceptions.md R277 (b)). -/
def build (p : Params) : Host.Outcome State Fault Refusal :=
  if p.wf then .next (State.resetOf p) else .refused .badParameters

end Sys2Proof.Machine
end

