-- ==== Sys2Proof/Machine/Flags.lean ====
section
/-! DEFINITION. STATUS and IRQ_EN as words, and the interrupt output (10_state.md R33, R34; 60_exceptions.md R280). -/

namespace Sys2Proof.Machine

/-- The number of an error code (60_exceptions.md R272). -/
def errCodeBits : ErrCode → BitVec 4
  | .none => 0
  | .illegal => 1
  | .badMethod => 2
  | .badFormat => 3
  | .badStrength => 4
  | .align => 5
  | .range => 6
  | .fatal => 7

/-- STATUS as the host reads it: BUSY [0], DONE [1], ERR [2], WARN [3], NAN [4], FATAL [5],
ERR_CODE [11:8], every other bit 0 (10_state.md R33). -/
def statusWord (s : State) : Word :=
  0#20 ++ errCodeBits s.errCode ++ 0#2 ++ BitVec.ofBool s.fatal ++ BitVec.ofBool s.nan
    ++ BitVec.ofBool s.warn ++ BitVec.ofBool s.err ++ BitVec.ofBool s.done ++ BitVec.ofBool s.busy

/-- IRQ_EN as the host reads it: the enables are bits [5:1] (10_state.md R34). -/
def irqEnWord (s : State) : Word := 0#26 ++ s.irqEn ++ 0#1

/-- The enables that a host write of `w` to IRQ_EN leaves: bits [5:1], the rest ignored
(10_state.md R34). -/
def irqEnOf (w : Word) : BitVec 5 := w.extractLsb' 1 5

/-- The interrupt output, the OR of the five enabled sources (60_exceptions.md R280). -/
def irq (s : State) : Bool :=
  (s.done && s.irqEn.getLsbD 0) || (s.err && s.irqEn.getLsbD 1) || (s.warn && s.irqEn.getLsbD 2)
    || (s.nan && s.irqEn.getLsbD 3) || (s.fatal && s.irqEn.getLsbD 4)

end Sys2Proof.Machine
end

