-- ==== Sys2Proof/Machine/Bus.lean ====
section
/-! DEFINITION. The host bus: the register map (10_state.md R31), the address map (20_memory.md R82), reads, writes and the hold rule (70_reset_and_hazards.md R320). -/

namespace Sys2Proof.Machine

/-- The registers of 10_state.md R31; `reserved` is every offset the map does not list. -/
inductive Reg where
  | id | param0 | param1 | param2 | cmd | status | irqEn | errInfo
  | len | inBase | outBase
  | cfgMethod | cfgFmt | cfgRate | cfgSeed | cfgStrengthLo | cfgStrengthHi
  | sMethod | sFmt | sTaps | sPos | sSeed
  | sRatioLo | sRatioHi | sScaleLo | sScaleHi | sInvScaleLo | sInvScaleHi
  | reserved
  deriving DecidableEq, Repr

/-- The register at a word-aligned offset of the register space (10_state.md R31). -/
def regOfOffset : Nat → Reg
  | 0x000 => .id
  | 0x004 => .param0
  | 0x008 => .param1
  | 0x00C => .param2
  | 0x010 => .cmd
  | 0x014 => .status
  | 0x018 => .irqEn
  | 0x01C => .errInfo
  | 0x020 => .len
  | 0x024 => .inBase
  | 0x028 => .outBase
  | 0x030 => .cfgMethod
  | 0x034 => .cfgFmt
  | 0x038 => .cfgRate
  | 0x03C => .cfgSeed
  | 0x040 => .cfgStrengthLo
  | 0x044 => .cfgStrengthHi
  | 0x050 => .sMethod
  | 0x054 => .sFmt
  | 0x058 => .sTaps
  | 0x05C => .sPos
  | 0x060 => .sSeed
  | 0x068 => .sRatioLo
  | 0x06C => .sRatioHi
  | 0x070 => .sScaleLo
  | 0x074 => .sScaleHi
  | 0x078 => .sInvScaleLo
  | 0x07C => .sInvScaleHi
  | _ => .reserved

/-- ID: the ASCII codes of "NSQ1" (10_state.md R31). -/
def idWord : Word := 0x4E535131

/-- PARAM0: CAP in [9:0], NUM_NS in [23:16] (10_state.md R31). -/
def param0Word (p : Params) : Word :=
  0#8 ++ BitVec.ofNat 8 p.numNs ++ 0#6 ++ BitVec.ofNat 10 p.cap

/-- PARAM1: IBUF_ENTRIES in [13:0] (10_state.md R31). -/
def param1Word (p : Params) : Word := 0#18 ++ BitVec.ofNat 14 p.ibufEntries

/-- PARAM2: OBUF_BYTES in [16:0] (10_state.md R31). -/
def param2Word (p : Params) : Word := 0#15 ++ BitVec.ofNat 17 p.obufBytes

/-- What the host reads from a register: CMD and reserved offsets read 0 (10_state.md R31, R56, R57). -/
def readReg (r : Reg) (s : State) : Word :=
  match r with
  | .id => idWord
  | .param0 => param0Word s.params
  | .param1 => param1Word s.params
  | .param2 => param2Word s.params
  | .cmd => 0
  | .status => statusWord s
  | .irqEn => irqEnWord s
  | .errInfo => s.errInfo
  | .len => s.len
  | .inBase => s.inBase
  | .outBase => s.outBase
  | .cfgMethod => 0#24 ++ s.cfgMethod
  | .cfgFmt => 0#24 ++ s.cfgFmt
  | .cfgRate => s.cfgRate
  | .cfgSeed => s.cfgSeed
  | .cfgStrengthLo => s.cfgStrengthLo
  | .cfgStrengthHi => s.cfgStrengthHi
  | .sMethod => 0#24 ++ s.sMethod
  | .sFmt => 0#24 ++ s.sFmt
  | .sTaps => 0#22 ++ s.sTaps
  | .sPos => 0#22 ++ s.sPos
  | .sSeed => s.sSeed
  | .sRatioLo => half false s.sRatio
  | .sRatioHi => half true s.sRatio
  | .sScaleLo => half false s.sScale
  | .sScaleHi => half true s.sScale
  | .sInvScaleLo => half false s.sInvScale
  | .sInvScaleHi => half true s.sInvScale
  | .reserved => 0

/-- A host write of `w` to CMD that is not held: dropped without a trace while FATAL, else the command
is accepted and BUSY is set (60_exceptions.md R270). -/
def acceptCommand (w : Word) (s : State) : State :=
  if s.fatal then s else { s with pend := w, busy := true }

/-- What a host write leaves: the RW registers and the W1C bits of STATUS change, a write to CMD hands
over a command, and every other register ignores the write (10_state.md R31 to R43, R56). -/
def writeReg (r : Reg) (w : Word) (s : State) : State :=
  match r with
  | .cmd => acceptCommand w s
  | .status => acknowledge w s
  | .irqEn => { s with irqEn := irqEnOf w }
  | .len => { s with len := w }
  | .inBase => { s with inBase := w }
  | .outBase => { s with outBase := w }
  | .cfgMethod => { s with cfgMethod := w.extractLsb' 0 8 }
  | .cfgFmt => { s with cfgFmt := w.extractLsb' 0 8 }
  | .cfgRate => { s with cfgRate := w }
  | .cfgSeed => { s with cfgSeed := w }
  | .cfgStrengthLo => { s with cfgStrengthLo := w }
  | .cfgStrengthHi => { s with cfgStrengthHi := w }
  | .id | .param0 | .param1 | .param2 | .errInfo | .sMethod | .sFmt | .sTaps | .sPos | .sSeed
  | .sRatioLo | .sRatioHi | .sScaleLo | .sScaleHi | .sInvScaleLo | .sInvScaleHi | .reserved => s

/-- What an address selects (20_memory.md R82). -/
inductive Target where
  | reg (r : Reg)
  /-- A half of `COEF[k]`. -/
  | coef (k : Nat) (high : Bool)
  /-- A half of `HIST[k]`. -/
  | hist (k : Nat) (high : Bool)
  /-- Four bytes of IBUF or OBUF, by host address. -/
  | buffer (a : Nat)
  /-- Misaligned, unmapped or out of range: the transaction ends with ERROR. -/
  | error
  deriving DecidableEq, Repr

/-- The address map, row by row, with the alignment rule before it (20_memory.md R81, R82). -/
def target (p : Params) (addr : Addr) : Target :=
  let a := addr.toNat
  if a % 4 ≠ 0 then .error
  else if a < 0x1000 then .reg (regOfOffset a)
  else if a < 0x2000 then
    if (a - 0x1000) / 8 < p.cap then .coef ((a - 0x1000) / 8) (a % 8 == 4) else .error
  else if a < 0x3000 then
    if (a - 0x2000) / 8 < p.cap then .hist ((a - 0x2000) / 8) (a % 8 == 4) else .error
  else if a < 0x10000 then .error
  else if a < 0x20000 then
    if (a - 0x10000) / 8 < p.ibufEntries then .buffer a else .error
  else if a < 0x30000 then
    if a - 0x20000 + 3 < p.obufBytes then .buffer a else .error
  else .error

/-- One buffer byte as the host reads it, and the count of free bytes drawn: a byte that nothing has
written since reset is a free value, a fresh one for each read (20_memory.md R85, R87; 93 U4). -/
def readByte (m : Mem) (a : Nat) (n : Nat) : Byte × Nat :=
  match memByte m a with
  | some b => (b, n)
  | none => (Config.freeByte n, n + 1)

/-- The word at a buffer address, `{byte a+3, byte a+2, byte a+1, byte a}`, and the count of free bytes
drawn, lowest address first (20_memory.md R84, R86; log 21). -/
def readWord (m : Mem) (a : Nat) (n : Nat) : Word × Nat :=
  let (b0, n0) := readByte m a n
  let (b1, n1) := readByte m (a + 1) n0
  let (b2, n2) := readByte m (a + 2) n1
  let (b3, n3) := readByte m (a + 3) n2
  (b3 ++ b2 ++ b1 ++ b0, n3)

/-- `HostRead(addr)`: no architectural state changes; only the count of free bytes can
(20_memory.md R80, R82, R83, R91). -/
def hostRead (addr : Addr) (s : State) : Response × State :=
  match target s.params addr with
  | .reg r => (.read (readReg r s) .ok, s)
  | .coef k high => (.read (half high (fileRead s.coef k)) .ok, s)
  | .hist k high => (.read (half high (fileRead s.hist k)) .ok, s)
  | .buffer a =>
    let (w, n) := readWord s.mem a s.freeCount
    (.read w .ok, { s with freeCount := n })
  | .error => (.read 0 .error, s)

/-- `HostWrite(addr, data)` (20_memory.md R80, R82). -/
def hostWrite (addr : Addr) (data : Word) (s : State) : Response × State :=
  match target s.params addr with
  | .reg r => (.write .ok, writeReg r data s)
  | .coef _ _ => (.write .ok, s)
  | .hist _ _ => (.write .ok, s)
  | .buffer a => (.write .ok, { s with mem := memWrite s.mem a 4 data.toNat })
  | .error => (.write .error, s)

/-- A transaction takes effect. -/
def transact (t : Txn) (s : State) : Response × State :=
  match t with
  | .read a => hostRead a s
  | .write a d => hostWrite a d s

/-- The address of a transaction. -/
def txnAddr : Txn → Addr
  | .read a => a
  | .write a _ => a

/-- The addresses that are never held: ID, PARAM0 to PARAM2, STATUS and IRQ_EN
(70_reset_and_hazards.md R320). -/
def neverHeld (a : Addr) : Bool :=
  a == 0x000 || a == 0x004 || a == 0x008 || a == 0x00C || a == 0x014 || a == 0x018

/-- The hold rule: while BUSY = 1 every other transaction is held (70_reset_and_hazards.md R320). -/
def mustHold (s : State) (t : Txn) : Bool := s.busy && !neverHeld (txnAddr t)

end Sys2Proof.Machine
end

