-- ==== Sys2Proof/Machine/Float.lean ====
section
/-! DEFINITION. IEEE-754 arithmetic on bit patterns: exact value, then one rounding to nearest, ties to even, subnormals kept, canonical NaN (00_scope.md R8 to R11; log 12). -/

namespace Sys2Proof.Machine

/-- A binary interchange format: the widths of its fraction and exponent fields. -/
structure Format where
  fracBits : Nat
  expBits : Nat
  deriving DecidableEq, Repr

/-- binary64 (00_scope.md R8). -/
def binary64 : Format := { fracBits := 52, expBits := 11 }

/-- binary32 (00_scope.md R11). -/
def binary32 : Format := { fracBits := 23, expBits := 8 }

/-- What a pattern stands for: `fin neg m e` is the number `(-1)^neg * m * 2^e`. -/
inductive Num where
  | nan
  | inf (neg : Bool)
  | fin (neg : Bool) (m : Nat) (e : Int)
  deriving DecidableEq, Repr

/-- The exponent of one unit in the last place of a subnormal: -1074 for binary64, -149 for binary32. -/
def Format.minExp (f : Format) : Int := 2 - 2 ^ (f.expBits - 1) - f.fracBits

/-- The pattern of +∞. -/
def Format.infPattern (f : Format) : Nat := (2 ^ f.expBits - 1) * 2 ^ f.fracBits

/-- The sign bit as a weight. -/
def Format.signPattern (f : Format) (neg : Bool) : Nat :=
  if neg then 2 ^ (f.fracBits + f.expBits) else 0

/-- The number a pattern stands for. -/
def Format.unpack (f : Format) (b : Nat) : Num :=
  let frac := b % 2 ^ f.fracBits
  let ex := b / 2 ^ f.fracBits % 2 ^ f.expBits
  let neg := b / 2 ^ (f.fracBits + f.expBits) % 2 == 1
  if ex = 2 ^ f.expBits - 1 then if frac = 0 then .inf neg else .nan
  else if ex = 0 then .fin neg frac f.minExp
  else .fin neg (2 ^ f.fracBits + frac) (f.minExp + (ex - 1 : Nat))

/-- `m / 2^d` rounded to the nearest integer, a tie to the even one (00_scope.md R8, R10). -/
def rneShift (m d : Nat) : Nat :=
  let q := m / 2 ^ d
  let r := m % 2 ^ d
  if 2 ^ d < 2 * r ∨ (2 * r = 2 ^ d ∧ q % 2 = 1) then q + 1 else q

/-- `m * 2^e` rounded to the nearest integer, a tie to the even one (00_scope.md R10). -/
def rneScale (m : Nat) (e : Int) : Nat :=
  if 0 ≤ e then m * 2 ^ e.toNat else rneShift m (-e).toNat

/-- The exponent of the unit that `m * 2^e` is rounded to: that of a full significand, or the
subnormal one where that is larger. -/
def Format.unitExp (f : Format) (m : Nat) (e : Int) : Int :=
  max (e + m.log2 - f.fracBits) f.minExp

/-- The pattern of `(-1)^neg * m * 2^e` rounded to the format; a magnitude past the largest finite one
becomes an infinity (00_scope.md R8, R11). The significand is added onto the exponent field, so that a
carry out of it moves to the next binade, and past the last one to ∞. -/
def Format.pack (f : Format) (neg : Bool) (m : Nat) (e : Int) : Nat :=
  if m = 0 then f.signPattern neg
  else
    let u := f.unitExp m e
    let n := rneScale m (e - u)
    f.signPattern neg + min ((u - f.minExp).toNat * 2 ^ f.fracBits + n) f.infPattern

/-- The canonical quiet NaN of binary64 (00_scope.md R9). -/
def nan64 : F64 := 0x7FF8000000000000#64

/-- The canonical NaN of binary32 (00_scope.md R9). -/
def nan32 : F32 := 0x7FC00000#32

/-- The number a binary64 stands for. -/
def num64 (a : F64) : Num := binary64.unpack a.toNat

/-- The number a binary32 stands for. -/
def num32 (a : F32) : Num := binary32.unpack a.toNat

/-- The binary64 nearest to `(-1)^neg * m * 2^e`. -/
def round64 (neg : Bool) (m : Nat) (e : Int) : F64 := BitVec.ofNat 64 (binary64.pack neg m e)

/-- ±∞ of binary64. -/
def inf64 (neg : Bool) : F64 :=
  BitVec.ofNat 64 (binary64.signPattern neg + binary64.infPattern)

/-- ±0 of binary64. -/
def zero64 (neg : Bool) : F64 := BitVec.ofNat 64 (binary64.signPattern neg)

/-- `(-1)^neg * m`. -/
def signedInt (neg : Bool) (m : Nat) : Int := if neg then -(m : Int) else m

/-- `isNaN(a)` (43_quantize.md R230). -/
def isNaN (a : F64) : Bool := num64 a == .nan

/-- `fneg(a)`: the sign bit flipped, exact (00_scope.md R8). -/
def fneg (a : F64) : F64 := a ^^^ 0x8000000000000000#64

/-- `fabs(a)`: the sign bit cleared, exact (00_scope.md R8). -/
def fabs (a : F64) : F64 := a &&& 0x7FFFFFFFFFFFFFFF#64

/-- `fadd(a, b)` (00_scope.md R8). An exact zero sum is +0 unless both operands are negative. -/
def fadd (a b : F64) : F64 :=
  match num64 a, num64 b with
  | .nan, _ => nan64
  | _, .nan => nan64
  | .inf s, .inf t => if s = t then inf64 s else nan64
  | .inf s, .fin _ _ _ => inf64 s
  | .fin _ _ _, .inf t => inf64 t
  | .fin s m e, .fin t n d =>
    let k := min e d
    let sum := signedInt s (m * 2 ^ (e - k).toNat) + signedInt t (n * 2 ^ (d - k).toNat)
    if sum = 0 then zero64 (s && t) else round64 (decide (sum < 0)) sum.natAbs k

/-- `fsub(a, b)` (00_scope.md R8): IEEE subtraction is the addition of the negated operand. -/
def fsub (a b : F64) : F64 := fadd a (fneg b)

/-- `fmul(a, b)` (00_scope.md R8). -/
def fmul (a b : F64) : F64 :=
  match num64 a, num64 b with
  | .nan, _ => nan64
  | _, .nan => nan64
  | .inf s, .inf t => inf64 (s ^^ t)
  | .inf s, .fin t n _ => if n = 0 then nan64 else inf64 (s ^^ t)
  | .fin s m _, .inf t => if m = 0 then nan64 else inf64 (s ^^ t)
  | .fin s m e, .fin t n d => round64 (s ^^ t) (m * n) (e + d)

/-- How many bits a dividend is shifted left before the integer division of `fdiv`: enough that the
quotient of two significands of at most 53 bits has more than 54 bits. -/
def divShift : Nat := 110

/-- `m / n` as `significand * 2^-(divShift+1)`, its last bit set when the division leaves a remainder,
so that rounding it to 53 bits or fewer rounds the exact quotient. -/
def stickyQuotient (m n : Nat) : Nat :=
  2 * (m * 2 ^ divShift / n) + (if m * 2 ^ divShift % n = 0 then 0 else 1)

/-- `fdiv(a, b)` (00_scope.md R8). -/
def fdiv (a b : F64) : F64 :=
  match num64 a, num64 b with
  | .nan, _ => nan64
  | _, .nan => nan64
  | .inf _, .inf _ => nan64
  | .inf s, .fin t _ _ => inf64 (s ^^ t)
  | .fin s _ _, .inf t => zero64 (s ^^ t)
  | .fin s m e, .fin t n d =>
    if n = 0 then if m = 0 then nan64 else inf64 (s ^^ t)
    else round64 (s ^^ t) (stickyQuotient m n) (e - d - (divShift + 1 : Nat))

/-- `f64(i)`: the binary64 of an integer (00_scope.md R8). -/
def f64OfInt (i : Int) : F64 := round64 (decide (i < 0)) i.natAbs 0

/-- The place of a value that is not a NaN in the IEEE order: sign and magnitude as an integer, so that
+0 and -0 fall together (00_scope.md R8). -/
def orderKey (a : F64) : Int :=
  signedInt (a.toNat / 2 ^ 63 % 2 == 1) (a.toNat % 2 ^ 63)

/-- `a == b` on binary64 values (00_scope.md R8). -/
def feq (a b : F64) : Bool := !isNaN a && !isNaN b && orderKey a == orderKey b

/-- `a <= b` on binary64 values (00_scope.md R8). -/
def fle (a b : F64) : Bool := !isNaN a && !isNaN b && decide (orderKey a ≤ orderKey b)

/-- `rne_int(v)`: the integer nearest to a finite `v`, a tie to the even one (00_scope.md R10). Its
callers test for NaN and ±∞ first; for these it is 0. -/
def rneInt (v : F64) : Int :=
  match num64 v with
  | .fin s m e => signedInt s (rneScale m e)
  | _ => 0

/-- `rne_f32(v)` (00_scope.md R11). -/
def rneF32 (v : F64) : F32 :=
  match num64 v with
  | .nan => nan32
  | .inf s => BitVec.ofNat 32 (binary32.signPattern s + binary32.infPattern)
  | .fin s m e => BitVec.ofNat 32 (binary32.pack s m e)

/-- `f64_of_f32(b)`: the exact binary64 of a binary32 (00_scope.md R11). A NaN becomes the canonical
one (DEDUCED from R9; log 11). -/
def f64OfF32 (b : F32) : F64 :=
  match num32 b with
  | .nan => nan64
  | .inf s => inf64 s
  | .fin s m e => round64 s m e

end Sys2Proof.Machine
end

