-- ==== Sys2Proof/Machine/Operands.lean ====
section
/-! DEFINITION. The operand forms of the commands: the destination trait of each representation (43_quantize.md R230, R231), method and format codes (10_state.md R38, R40), the strength and the ratio table (40_catalog_and_init.md R152). -/

namespace Sys2Proof.Machine

/-! ### The destination trait -/

/-- `w(REP)`, the width of a sample in bytes (20_memory.md R88). -/
def width : Rep → Nat
  | .s16 => 2
  | .s32 => 4
  | .f32 => 4
  | .f64 => 8

/-- `min(hi, max(lo, q))` (43_quantize.md R230). -/
def clamp (lo hi q : Int) : Int := min hi (max lo q)

/-- The integer store of R230 for the range `lo .. hi`: NaN gives 0, ±∞ and everything outside the
range saturate, and rounding comes before saturation. -/
def convInt (lo hi : Int) (v : F64) : Int :=
  match num64 v with
  | .nan => 0
  | .inf neg => if neg then lo else hi
  | .fin _ _ _ => clamp lo hi (rneInt v)

/-- `Conv(REP, v)` (43_quantize.md R230, R231); whether it also sets STATUS.NAN is `convSetsNan`. -/
def conv : Rep → F64 → Sample
  | .s16, v => .int (convInt (-32768) 32767 v)
  | .s32, v => .int (convInt (-2147483648) 2147483647 v)
  | .f32, v => .f32 (rneF32 v)
  | .f64, v => .f64 v

/-- `Conv` sets STATUS.NAN: an integer store of a NaN does, a float store never does
(43_quantize.md R230, R231). -/
def convSetsNan : Rep → F64 → Bool
  | .s16, v => isNaN v
  | .s32, v => isNaN v
  | .f32, _ => false
  | .f64, _ => false

/-- `Bits(REP, q)` as a number below 2^(8*w): two's complement of w bytes for an integer, the pattern
for a float (43_quantize.md R230, R231). -/
def bits (rep : Rep) : Sample → Nat
  | .int q => (q % (2 ^ (8 * width rep) : Int)).toNat
  | .f32 q => q.toNat
  | .f64 q => q.toNat

/-- `ToF64(REP, q)` (43_quantize.md R230, R231). -/
def toF64 : Sample → F64
  | .int q => f64OfInt q
  | .f32 q => f64OfF32 q
  | .f64 q => q

/-! ### Method codes -/

/-- RECT (10_state.md R38). -/
def methodRect : BitVec 8 := 0

/-- TPDF_HP (10_state.md R38). -/
def methodTpdfHp : BitVec 8 := 1

/-- A code is valid when it is in 0 .. 1+NUM_NS (10_state.md R38). -/
def methodValid (p : Params) (m : BitVec 8) : Bool := m.toNat ≤ 1 + p.numNs

/-- A code is a shaping code when it is in 2 .. 1+NUM_NS (10_state.md R38). -/
def methodShaping (p : Params) (m : BitVec 8) : Bool := 2 ≤ m.toNat && m.toNat ≤ 1 + p.numNs

/-! ### Formats and the scale-ratio table -/

/-- The SRC code, bits [3:0] of CFG_FMT or S_FMT (10_state.md R40, R45). -/
def srcCode (fmt : BitVec 8) : Nat := (fmt.extractLsb' 0 4).toNat

/-- The DST code, bits [7:4] of CFG_FMT or S_FMT (10_state.md R40, R45). -/
def dstCode (fmt : BitVec 8) : Nat := (fmt.extractLsb' 4 4).toNat

/-- `RatioTable(src, dst)`, cell by cell (40_catalog_and_init.md R152); codes above 4 are invalid and
INIT rejects them before it looks here. -/
def ratioTable : Nat → Nat → F64
  | 0, 0 => 0x3FF0000000000000#64
  | 0, 1 => 0x3F70000000000000#64
  | 0, 2 => 0x3E70000000000000#64
  | 1, 0 => 0x4070000000000000#64
  | 1, 1 => 0x3FF0000000000000#64
  | 1, 2 => 0x3EF0000000000000#64
  | 2, 0 => 0x4170000000000000#64
  | 2, 1 => 0x40F0000000000000#64
  | 2, 2 => 0x3FF0000000000000#64
  | 3, 0 => 0x3F80000000000000#64
  | 3, 1 => 0x3F00000000000000#64
  | 3, 2 => 0x3E00000000000000#64
  | 4, 0 => 0x3F80000000000000#64
  | 4, 1 => 0x3F00000000000000#64
  | 4, 2 => 0x3E00000000000000#64
  | _, _ => 0

/-- `STRENGTH = {CFG_STRENGTH_HI, CFG_STRENGTH_LO}` (10_state.md R43). -/
def strength (s : State) : F64 := joinHalves s.cfgStrengthHi s.cfgStrengthLo

/-- INIT accepts a strength that is neither NaN nor +∞ and is >= 0, -0.0 included
(40_catalog_and_init.md R151). -/
def strengthValid (v : F64) : Bool := !isNaN v && v != inf64 false && fle 0 v

/-! ### Sample addresses -/

/-- The host address of output sample i: OBUF byte `OUT_BASE + i * w(REP)` (20_memory.md R82, R88). -/
def sampleAddr (rep : Rep) (s : State) (i : Nat) : Nat :=
  obufOrigin + (s.outBase.toNat + i * width rep)

/-- What the stores of a command change beside the session: STATUS.NAN and OBUF. -/
structure Output where
  nan : Bool
  mem : Mem
  deriving DecidableEq, Repr

/-- `q <- Conv(REP, v)` and `MemWrite(addr, w(REP), Bits(REP, q))` (42_fill.md R213,
43_quantize.md R235). -/
def storeSample (rep : Rep) (a : Nat) (v : F64) (o : Output) : Output :=
  { nan := o.nan || convSetsNan rep v
    mem := memWrite o.mem a (width rep) (bits rep (conv rep v)) }

end Sys2Proof.Machine
end

