-- ==== Sys2Proof/Machine/Control.lean ====
section
/-! DEFINITION. The commands that make no samples: NOP and INIT with its catalog lookup (40_catalog_and_init.md R150 to R160). -/

namespace Sys2Proof.Machine

/-- NOP (40_catalog_and_init.md R160). -/
def execNop (s : State) : Host.Outcome State Fault Refusal := .next (complete s)

/-- TOL = 0.05 (40_catalog_and_init.md R150). -/
def rateTolerance : F64 := 0x3FA999999999999A#64

/-- The match test of one entry for method `m` at rate `r` (40_catalog_and_init.md R150). -/
def filterMatches (m : BitVec 8) (r : Word) (e : FilterSpec) : Bool :=
  e.name == m &&
    fle (fdiv (fabs (fsub (f64OfInt r.toNat) e.targetRate)) e.targetRate) rateTolerance

/-- `Lookup(m, r)`: the first entry that matches, `none` for NOTFOUND (40_catalog_and_init.md R150). -/
def lookup (catalog : List FilterSpec) (m : BitVec 8) (r : Word) : Option FilterSpec :=
  catalog.find? (filterMatches m r)

/-- 1.0. -/
def one64 : F64 := 0x3FF0000000000000#64

/-- `INV_SCALE` from SCALE: +0.0 when SCALE == 0, else `fdiv(1.0, SCALE)` (40_catalog_and_init.md R154). -/
def inverseScale (scale : F64) : F64 := if feq scale 0 then 0 else fdiv one64 scale

/-- POS, HIST, COEF, TAPS, WARN and NAN reset (40_catalog_and_init.md R155). -/
def clearSession (s : State) : State :=
  { s with
    sPos := 0
    hist := zeroFile s.params.cap
    coef := zeroFile s.params.cap
    sTaps := 0
    warn := false
    nan := false }

/-- RATIO, SCALE, INV_SCALE and S_FMT from the validated operands (40_catalog_and_init.md R153, R154). -/
def setScale (s : State) : State :=
  let ratio := ratioTable (srcCode s.cfgFmt) (dstCode s.cfgFmt)
  let scale := fmul ratio (strength s)
  { s with
    sRatio := ratio
    sScale := scale
    sInvScale := inverseScale scale
    sFmt := s.cfgFmt }

/-- The filter of a session: its effective method, TAPS, COEF and whether WARN is set. -/
structure Selection where
  method : BitVec 8
  taps : BitVec 10
  coef : List F64
  warn : Bool
  deriving DecidableEq, Repr

/-- The shaping filter and the effective method for method `m` at a rate: the first match of the
catalog, the fallback to TPDF_HP with WARN, or no filter for a method that is not a shaping one
(40_catalog_and_init.md R156, R157). -/
def chooseFilter (p : Params) (m : BitVec 8) (rate : Word) : Selection :=
  if methodShaping p m then
    match lookup p.catalog m rate with
    | some e =>
      { method := m
        taps := BitVec.ofNat 10 e.tapCount
        coef := loadCoefficients p.cap e
        warn := false }
    | none => { method := methodTpdfHp, taps := 0, coef := zeroFile p.cap, warn := true }
  else { method := m, taps := 0, coef := zeroFile p.cap, warn := false }

/-- A filter goes into the session (40_catalog_and_init.md R156, R157). -/
def setFilter (f : Selection) (s : State) : State :=
  { s with sMethod := f.method, sTaps := f.taps, coef := f.coef, warn := f.warn }

/-- `SEED <- CFG_SEED` (40_catalog_and_init.md R157). -/
def seedSession (s : State) : State := { s with sSeed := s.cfgSeed }

/-- The session of an INIT whose operands are valid (40_catalog_and_init.md R158). -/
def initSession (s : State) : State :=
  seedSession
    (setFilter (chooseFilter s.params s.cfgMethod s.cfgRate) (setScale (clearSession s)))

/-- INIT (40_catalog_and_init.md R158): the checks in the order of R151, then the session. -/
def execInit (s : State) : Host.Outcome State Fault Refusal :=
  if !methodValid s.params s.cfgMethod then .next (raiseErr .badMethod s)
  else if !(srcCode s.cfgFmt ≤ 4 && dstCode s.cfgFmt ≤ 4) then .next (raiseErr .badFormat s)
  else if !strengthValid (strength s) then .next (raiseErr .badStrength s)
  else .next (complete (initSession s))

end Sys2Proof.Machine
end

