-- ==== Sys2Proof/Machine/Generator.lean ====
section
/-! DEFINITION. The noise generator: NextU, Rect, Tri and Draw over SEED (41_noise_generator.md R190 to R193). -/

namespace Sys2Proof.Machine

/-- `succ(s) = u32(s * 1664525 + 1013904223)` (41_noise_generator.md R190, R195). The constants stand
on the left, where Lean's kernel does not count them down. -/
def seedSucc (s : Word) : Word := 1013904223#32 + 1664525#32 * s

/-- `pred`, the inverse of `succ` (41_noise_generator.md R195). No command uses it. -/
def seedPred (s : Word) : Word := 0xFEE058C5#32 * (s - 1013904223#32)

/-- n successors of a seed. -/
def seedAfter : Nat → Word → Word
  | 0, s => s
  | n + 1, s => seedSucc (seedAfter n s)

/-- UMAX = 4294967295.0 (41_noise_generator.md R190). -/
def umax : F64 := 0x41EFFFFFFFE00000#64

/-- 0.5 (41_noise_generator.md R191). -/
def onehalf : F64 := 0x3FE0000000000000#64

/-- The value a draw maps a new SEED to: `fdiv(f64(SEED), UMAX)` (41_noise_generator.md R190). -/
def unitOfSeed (seed : Word) : F64 := fdiv (f64OfInt seed.toNat) umax

/-- `NextU()`: the value and the new SEED (41_noise_generator.md R190). -/
def nextU (seed : Word) : F64 × Word := (unitOfSeed (seedSucc seed), seedSucc seed)

/-- `Rect()` (41_noise_generator.md R191). -/
def rect (seed : Word) : F64 × Word :=
  let (u, seed1) := nextU seed
  (fsub u onehalf, seed1)

/-- `Tri()`: the first draw is the minuend (41_noise_generator.md R192). -/
def tri (seed : Word) : F64 × Word :=
  let (u1, seed1) := nextU seed
  let (u2, seed2) := nextU seed1
  (fsub u1 u2, seed2)

/-- `Draw(m)` for a valid method code (41_noise_generator.md R193). -/
def draw (m : BitVec 8) (seed : Word) : F64 × Word :=
  if m = methodRect then rect seed else tri seed

/-- How many times one `Draw(m)` advances SEED (41_noise_generator.md R193, R194). -/
def drawAdvances (m : BitVec 8) : Nat := if m = methodRect then 1 else 2

/-- n draws in order: the values and the SEED after them (42_fill.md R211). -/
def drawMany (m : BitVec 8) : Nat → Word → List F64 × Word
  | 0, seed => ([], seed)
  | n + 1, seed =>
    let (d, seed1) := draw m seed
    let (ds, seed2) := drawMany m n seed1
    (d :: ds, seed2)

end Sys2Proof.Machine
end

