-- ==== Sys2Proof/Machine/Fill.lean ====
section
/-! DEFINITION. The FILL commands: LEN+2 draws, the slot values and their scaled stores (42_fill.md R210 to R219). -/

namespace Sys2Proof.Machine

/-- SQRT6 (42_fill.md R212). -/
def sqrt6 : F64 := 0x4003988E1409212E#64

/-- 2.0 (42_fill.md R212). -/
def two64 : F64 := 0x4000000000000000#64

/-- `fdiv(fsub(fadd(fneg(a), fmul(2.0, b)), c), SQRT6)` (42_fill.md R212). -/
def highPass (a b c : F64) : F64 := fdiv (fsub (fadd (fneg a) (fmul two64 b)) c) sqrt6

/-- The value of output slot i from the scratch sequence (42_fill.md R212). -/
def slotValue (m : BitVec 8) (tmp : List F64) (i : Nat) : F64 :=
  if m = methodTpdfHp then
    highPass (fileRead tmp i) (fileRead tmp (i + 1)) (fileRead tmp (i + 2))
  else fileRead tmp i

/-- The stores of `count` slots from slot i on, ascending (42_fill.md R213). -/
def fillStores (rep : Rep) (s : State) (tmp : List F64) : Nat → Nat → Output → Output
  | 0, _, o => o
  | count + 1, i, o =>
    fillStores rep s tmp count (i + 1)
      (storeSample rep (sampleAddr rep s i) (fmul (slotValue s.sMethod tmp i) s.sScale) o)

/-- What a FILL that passes its checks leaves (42_fill.md R211 to R213, R218). -/
def fillRun (rep : Rep) (s : State) : State :=
  let drawn := drawMany s.sMethod (s.len.toNat + 2) s.sSeed
  let out := fillStores rep s drawn.1 s.len.toNat 0 { nan := s.nan, mem := s.mem }
  complete { s with sSeed := drawn.2, nan := out.nan, mem := out.mem }

/-- `Fill(REP)`: ALIGN, RANGE and Fatal in that order, then the samples (42_fill.md R218). -/
def fill (rep : Rep) (s : State) : Host.Outcome State Fault Refusal :=
  if s.outBase.toNat % width rep ≠ 0 then .next (raiseErr .align s)
  else if s.outBase.toNat + s.len.toNat * width rep > s.params.obufBytes then
    .next (raiseErr .range s)
  else if !methodValid s.params s.sMethod then .next (raiseFatal s)
  else .next (fillRun rep s)

/-- FILL.S16 (42_fill.md R214). -/
def execFillS16 (s : State) : Host.Outcome State Fault Refusal := fill .s16 s

/-- FILL.S32 (42_fill.md R215). -/
def execFillS32 (s : State) : Host.Outcome State Fault Refusal := fill .s32 s

/-- FILL.F32 (42_fill.md R216). -/
def execFillF32 (s : State) : Host.Outcome State Fault Refusal := fill .f32 s

/-- FILL.F64 (42_fill.md R217). -/
def execFillF64 (s : State) : Host.Outcome State Fault Refusal := fill .f64 s

end Sys2Proof.Machine
end

