-- ==== Sys2Proof/Machine/Quant.lean ====
section
/-! DEFINITION. The QUANT commands: the per-sample cycle read, shape, dither, quantize, record, advance, write (43_quantize.md R232 to R243). -/

namespace Sys2Proof.Machine

/-- What one sample hands to the next: HIST, POS, SEED, STATUS.NAN and OBUF (43_quantize.md R235,
90_conflicts.md C6). -/
structure Stream where
  hist : List F64
  pos : BitVec 10
  seed : Word
  out : Output
  deriving DecidableEq, Repr

/-- The stream a QUANT starts from. -/
def streamOf (s : State) : Stream :=
  { hist := s.hist, pos := s.sPos, seed := s.sSeed, out := { nan := s.nan, mem := s.mem } }

/-- The state a QUANT ends in, from the stream its last sample leaves. -/
def withStream (s : State) (c : Stream) : State :=
  { s with hist := c.hist, sPos := c.pos, sSeed := c.seed, nan := c.out.nan, mem := c.out.mem }

/-- One product of the shaping sum: `fmul(COEF[k], HIST[(POS - k) mod CAP])` (43_quantize.md R232). -/
def shapingTerm (s : State) (c : Stream) (k : Nat) : F64 :=
  fmul (fileRead s.coef k) (fileRead c.hist (modCap s.params.cap ((c.pos.toNat : Int) - k)))

/-- The shaping sum, from +0.0, ascending k, each product rounded before it is added
(43_quantize.md R232). -/
def shapingSum (s : State) (c : Stream) : F64 :=
  (List.range s.sTaps.toNat).foldl (fun acc k => fadd acc (shapingTerm s c k)) 0

/-- The shaped target t of the input x (43_quantize.md R232). -/
def shapedTarget (s : State) (c : Stream) (x : F64) : F64 :=
  if 0 < s.sTaps.toNat then fadd x (shapingSum s c) else x

/-- g: `fdiv(1.0, RATIO)`, or 1.0 when RATIO = 0 (43_quantize.md R234). -/
def unitFactor (ratio : F64) : F64 := if feq ratio 0 then one64 else fdiv one64 ratio

/-- back: the stored sample in source units (43_quantize.md R234). -/
def backToSource (ratio : F64) (q : Sample) : F64 :=
  if feq ratio 0 then toF64 q else fmul (toF64 q) ratio

/-- The cycle for sample i with input x (43_quantize.md R235). -/
def quantCycle (rep : Rep) (s : State) (i : Nat) (x : F64) (c : Stream) : Stream :=
  let t := shapedTarget s c x
  let d := draw s.sMethod c.seed
  let v := fmul (fadd t (fmul d.1 s.sScale)) (unitFactor s.sRatio)
  let back := backToSource s.sRatio (conv rep v)
  { hist := fileWrite c.hist c.pos.toNat (fsub back t)
    pos := BitVec.ofNat 10 (modCap s.params.cap ((c.pos.toNat : Int) + 1))
    seed := d.2
    out := storeSample rep (sampleAddr rep s i) v c.out }

/-- `Sample(REP, i)`: an IBUF entry that is not fully written since reset is the model fault of
60_exceptions.md R277 (a) (43_quantize.md R235, R236). -/
def quantSample (rep : Rep) (s : State) (i : Nat) (c : Stream) : Except Fault Stream :=
  match ibufRead c.out.mem (s.inBase.toNat + i) with
  | some x => .ok (quantCycle rep s i x c)
  | none => .error (.unwrittenIbuf (s.inBase.toNat + i))

/-- `count` samples from sample i on, ascending (43_quantize.md R235). -/
def quantSamples (rep : Rep) (s : State) : Nat → Nat → Stream → Except Fault Stream
  | 0, _, c => .ok c
  | count + 1, i, c =>
    match quantSample rep s i c with
    | .ok c1 => quantSamples rep s count (i + 1) c1
    | .error f => .error f

/-- The samples of a QUANT that passes its checks, and DONE (43_quantize.md R236). -/
def quantRun (rep : Rep) (s : State) : Host.Outcome State Fault Refusal :=
  match quantSamples rep s s.len.toNat 0 (streamOf s) with
  | .ok c => .next (complete (withStream s c))
  | .error f => .fault f

/-- `Quant(REP)`: ALIGN, RANGE and Fatal in that order, then the samples (43_quantize.md R236). -/
def quant (rep : Rep) (s : State) : Host.Outcome State Fault Refusal :=
  if s.outBase.toNat % width rep ≠ 0 then .next (raiseErr .align s)
  else if s.inBase.toNat + s.len.toNat > s.params.ibufEntries
      ∨ s.outBase.toNat + s.len.toNat * width rep > s.params.obufBytes then
    .next (raiseErr .range s)
  else if !methodValid s.params s.sMethod then .next (raiseFatal s)
  else quantRun rep s

/-- QUANT.S16 (43_quantize.md R240). -/
def execQuantS16 (s : State) : Host.Outcome State Fault Refusal := quant .s16 s

/-- QUANT.S32 (43_quantize.md R241). -/
def execQuantS32 (s : State) : Host.Outcome State Fault Refusal := quant .s32 s

/-- QUANT.F32 (43_quantize.md R242). -/
def execQuantF32 (s : State) : Host.Outcome State Fault Refusal := quant .f32 s

/-- QUANT.F64 (43_quantize.md R243). -/
def execQuantF64 (s : State) : Host.Outcome State Fault Refusal := quant .f64 s

end Sys2Proof.Machine
end

