-- ==== Sys2Proof/Machine/Dispatch.lean ====
section
/-! DEFINITION. The dispatch of a decoded command to its meaning, one arm per constructor of Instr (60_exceptions.md R270). -/

namespace Sys2Proof.Machine

def exec (i : Instr) (s : State) : Host.Outcome State Fault Refusal :=
  match i with
  | .nop => Sys2Proof.Machine.execNop s
  | .init => Sys2Proof.Machine.execInit s
  | .fillS16 => Sys2Proof.Machine.execFillS16 s
  | .fillS32 => Sys2Proof.Machine.execFillS32 s
  | .fillF32 => Sys2Proof.Machine.execFillF32 s
  | .fillF64 => Sys2Proof.Machine.execFillF64 s
  | .quantS16 => Sys2Proof.Machine.execQuantS16 s
  | .quantS32 => Sys2Proof.Machine.execQuantS32 s
  | .quantF32 => Sys2Proof.Machine.execQuantF32 s
  | .quantF64 => Sys2Proof.Machine.execQuantF64 s

end Sys2Proof.Machine
end

