-- ==== Sys2Proof/Machine/Agents.lean ====
section
/-! DEFINITION. The moves of the agents: the block's one atomic step (60_exceptions.md R270), the host's transactions and the hold (70_reset_and_hazards.md R320), host program lines (30_encoding.md R128), and whose turn it is. -/

namespace Sys2Proof.Machine

/-! ### The block -/

/-- `STATUS.BUSY <- 0` (60_exceptions.md R270, R271). -/
def release (s : State) : State := { s with busy := false }

/-- `Exec(PEND)`: an illegal word raises Err(ILLEGAL), a valid word runs its rule
(60_exceptions.md R270). -/
def execPending (s : State) : Host.Outcome State Fault Refusal :=
  match decode s.pend with
  | .ok i => exec i s
  | .error _ => .next (raiseErr .illegal s)

/-- `BlockStep()`: one atomic transition (60_exceptions.md R270). -/
def blockStep (s : State) : Host.Outcome State Fault Refusal :=
  match execPending s with
  | .next t => .next (release t)
  | .fault f => .fault f
  | .refused r => .refused r

/-! ### The host -/

/-- The host gets a response back. -/
def respond (r : Response) (s : State) : State := { s with responses := s.responses ++ [r] }

/-- A transaction takes effect and its response goes back to the host. -/
def finish (t : Txn) (s : State) : State :=
  let (r, s1) := transact t s
  respond r s1

/-- The host address of STATUS (10_state.md R31). -/
def statusAddr : Addr := 0x014

/-- The host's move. A held transaction takes effect once BUSY = 0, and until then the host has no
move. That it takes effect on the host's first turn after the block step, and not within that step, is
the model's DESIGN CHOICE, unsafe (log 22). A new transaction takes effect at once or is held. WAIT reads
STATUS and stays until the value it read has BUSY = 0 (70_reset_and_hazards.md R320, 30_encoding.md
R128). -/
def hostMove (s : State) : State :=
  match s.held, s.hostQueue with
  | some t, _ => if s.busy then s else finish t { s with held := none }
  | none, [] => s
  | none, .wait :: rest =>
    finish (.read statusAddr) (if s.busy then s else { s with hostQueue := rest })
  | none, .txn t :: rest =>
    if mustHold s t then { s with held := some t, hostQueue := rest }
    else finish t { s with hostQueue := rest }

/-! ### Whose turn it is -/

/-- One turn: the block runs its pending command if there is one, the host makes its move, the platform
resets. An agent that has no move lets its turn pass (93_implementation_defined.md U10; log 3). -/
def agentMove (g : Agent) (s : State) : Host.Outcome State Fault Refusal :=
  match g with
  | .block => if s.busy then blockStep s else .next s
  | .host => .next (hostMove s)
  | .platform => .next (platformReset s)

/-- Who moves: the first of the turns; with none left, the block while BUSY, else the host. -/
def whoMoves (s : State) : Agent :=
  match s.turns with
  | g :: _ => g
  | [] => if s.busy then .block else .host

/-- The turn is taken. -/
def takeTurn (s : State) : State := { s with turns := s.turns.tail }

/-- One step of the machine. -/
def machineStep (s : State) : Host.Outcome State Fault Refusal :=
  agentMove (whoMoves s) (takeTurn s)

/-! ### Host program lines (30_encoding.md R128) -/

/-- `W addr, data` and `R addr`. -/
def lineW (addr : Addr) (data : Word) : List HostOp := [.txn (.write addr data)]

/-- `R addr`. -/
def lineR (addr : Addr) : List HostOp := [.txn (.read addr)]

/-- `W64 reg, v`, `reg` given by the offset of its LO half. -/
def lineW64 (addr : Addr) (v : F64) : List HostOp :=
  lineW addr (half false v) ++ lineW (addr + 4) (half true v)

/-- `WIN i, v`. -/
def lineWIN (i : Nat) (v : F64) : List HostOp :=
  lineW64 (BitVec.ofNat 18 (ibufOrigin + 8 * i)) v

/-- `CMD mnemonic`. -/
def lineCMD (i : Instr) : List HostOp := lineW 0x010 (encode i)

/-- `WAIT`. -/
def lineWAIT : List HostOp := [.wait]

/-- `CLR`: DONE, ERR with ERR_CODE, WARN and NAN are cleared. -/
def lineCLR : List HostOp := lineW statusAddr 0x0000001E

/-- `ROUT j`. -/
def lineROUT (j : Nat) : List HostOp := lineR (BitVec.ofNat 18 (obufOrigin + 4 * j))

/-- A host program is put before the machine: it is issued after what the host has still to issue. -/
def withProgram (ops : List HostOp) (s : State) : State :=
  { s with hostQueue := s.hostQueue ++ ops }

end Sys2Proof.Machine
end

