-- ==== Sys2Proof/Machine/Step.lean ====
section
/-! DEFINITION. The step of the machine, and the placing of a command where the next step runs it. -/

namespace Sys2Proof.Machine

/-- One step: the agent whose turn it is makes its move (00_scope.md R3). -/
def step (s : State) : Host.Outcome State Fault Refusal := machineStep s

/-- `s` with the command word `w` pending and the block's turn next: what an accepted CMD write leaves
(60_exceptions.md R270), before the turns that `s` has. A command is one 32-bit word; the bits above
`nbits` are 0 (log 5). -/
def State.withFetchWord (s : State) (nbits w : Nat) : State :=
  { s with pend := BitVec.ofNat 32 (w % 2 ^ nbits), busy := true, turns := .block :: s.turns }

end Sys2Proof.Machine
end

