-- ==== Sys2Proof/Safety.lean ====
section
/-! DEFINITION. The terms that claims about NSQ use: when a command executes normally, the generator's draws by number, exact values and rounding, the invariant of 10_state.md R54, and the end of a run. -/

namespace Sys2Proof.Machine

/-! ### The families of the opcode table -/

/-- The FILL command of a representation: FILL.S16, FILL.S32, FILL.F32, FILL.F64 (30_encoding.md R124). -/
def fillInstr : Rep → Instr
  | .s16 => .fillS16
  | .s32 => .fillS32
  | .f32 => .fillF32
  | .f64 => .fillF64

/-- The QUANT command of a representation: QUANT.S16, QUANT.S32, QUANT.F32, QUANT.F64
(30_encoding.md R124). -/
def quantInstr : Rep → Instr
  | .s16 => .quantS16
  | .s32 => .quantS32
  | .f32 => .quantF32
  | .f64 => .quantF64

/-! ### When a command executes normally -/

/-- The operands of INIT pass its three checks (40_catalog_and_init.md R151). -/
def InitReady (s : State) : Prop :=
  s.cfgMethod.toNat ≤ 1 + s.params.numNs ∧ (srcCode s.cfgFmt ≤ 4 ∧ dstCode s.cfgFmt ≤ 4)
    ∧ strengthValid (strength s) = true

/-- The output of LEN samples fits OBUF (60_exceptions.md R272). -/
abbrev OutputFits (rep : Rep) (s : State) : Prop :=
  s.outBase.toNat + s.len.toNat * width rep ≤ s.params.obufBytes

/-- The input of LEN samples fits IBUF (60_exceptions.md R272). -/
abbrev InputFits (s : State) : Prop := s.inBase.toNat + s.len.toNat ≤ s.params.ibufEntries

/-- A FILL passes its three checks (42_fill.md R218). -/
def FillReady (rep : Rep) (s : State) : Prop :=
  s.outBase.toNat % width rep = 0 ∧ OutputFits rep s ∧ s.sMethod.toNat ≤ 1 + s.params.numNs

/-- A QUANT passes its three checks (43_quantize.md R236). -/
def QuantChecksPass (rep : Rep) (s : State) : Prop :=
  s.outBase.toNat % width rep = 0 ∧ InputFits s ∧ OutputFits rep s
    ∧ s.sMethod.toNat ≤ 1 + s.params.numNs

/-- IBUF entry i of a QUANT has been written since reset (20_memory.md R85). -/
def EntryWritten (s : State) (i : Nat) : Prop :=
  (ibufRead s.mem (s.inBase.toNat + i)).isSome = true

/-- A QUANT passes its checks and every IBUF entry it reads has been written (70_reset_and_hazards.md
R312, step 4). -/
def QuantReady (rep : Rep) (s : State) : Prop :=
  QuantChecksPass rep s ∧ ∀ i < s.len.toNat, EntryWritten s i

/-! ### Draws by number, slots, output bytes -/

/-- The value of draw number j from a SEED: each earlier draw has advanced SEED once for RECT and twice
for every other method (41_noise_generator.md R193, R194). -/
def drawNumber (m : BitVec 8) (seed : Word) (j : Nat) : F64 :=
  (draw m (seedAfter (drawAdvances m * j) seed)).1

/-- The value of output slot i of a FILL from a SEED (42_fill.md R211, R212). -/
def fillSlot (m : BitVec 8) (seed : Word) (i : Nat) : F64 :=
  if m = methodTpdfHp then
    highPass (drawNumber m seed i) (drawNumber m seed (i + 1)) (drawNumber m seed (i + 2))
  else drawNumber m seed i

/-- The value FILL stores in slot i, before `Conv` (42_fill.md R213). -/
def fillOutput (s : State) (i : Nat) : F64 := fmul (fillSlot s.sMethod s.sSeed i) s.sScale

/-- Byte j of the bits of a stored sample, least significant first (20_memory.md R86). -/
def sampleByte (rep : Rep) (v : F64) (j : Nat) : Byte :=
  BitVec.ofNat 8 (bits rep (conv rep v) / 256 ^ j)

/-- The address lies outside the bytes that a FILL or QUANT of LEN samples writes: host address of OBUF
byte `OUT_BASE` up to `OUT_BASE + LEN*w - 1` (20_memory.md R88). -/
def OutsideOutput (rep : Rep) (s : State) (a : Nat) : Prop :=
  a < sampleAddr rep s 0 ∨ sampleAddr rep s s.len.toNat ≤ a

/-! ### Exact values and the nearest representable one -/

/-- The rational number `(-1)^neg * m * 2^e` that an unpacked pattern stands for. -/
def valueOf (neg : Bool) (m : Nat) (e : Int) : ℚ := signedInt neg m * (2 : ℚ) ^ e

/-- The least magnitude that rounds to an infinity: halfway between the largest finite value and the
next power of two; 2^1024 - 2^970 for binary64, 2^128 - 2^103 for binary32 (43_quantize.md R231). -/
def overflowBound (f : Format) : ℚ :=
  (2 : ℚ) ^ ((2 : Int) ^ (f.expBits - 1)) - (2 : ℚ) ^ ((2 : Int) ^ (f.expBits - 1) - f.fracBits - 2)

/-- The pattern `p` is `x` rounded to the format, to nearest, ties to even (00_scope.md R8, R11): the
infinity of its sign from the overflow bound on; below it a finite pattern of the sign of `x` whose
distance to `x` no finite pattern beats, and which is even when another value is equally near. -/
def RoundsTo (f : Format) (x : ℚ) (p : Nat) : Prop :=
  (overflowBound f ≤ |x| → p = f.signPattern (decide (x < 0)) + f.infPattern)
  ∧ (|x| < overflowBound f → ∃ neg m e, f.unpack p = .fin neg m e
    ∧ (x ≠ 0 → neg = decide (x < 0))
    ∧ ∀ q neg' m' e', f.unpack q = .fin neg' m' e' →
      |x - valueOf neg m e| ≤ |x - valueOf neg' m' e'|
      ∧ (|x - valueOf neg m e| = |x - valueOf neg' m' e'| →
        valueOf neg' m' e' = valueOf neg m e ∨ p % 2 = 0))

/-! ### The invariant -/

/-- A buffer address of the block: an IBUF byte or an OBUF byte (20_memory.md R82). -/
def bufferAddr (p : Params) (a : Nat) : Prop :=
  (ibufOrigin ≤ a ∧ a < ibufOrigin + 8 * p.ibufEntries)
    ∨ (obufOrigin ≤ a ∧ a < obufOrigin + p.obufBytes)

/-- What holds in every reachable state: 10_state.md R54 (a) to (f), and the form of the state. -/
structure State.Inv (s : State) : Prop where
  /-- The parameters keep 00_scope.md R4 and R5. -/
  params_wf : s.params.wf = true
  /-- COEF has CAP entries. -/
  coef_length : s.coef.length = s.params.cap
  /-- HIST has CAP entries. -/
  hist_length : s.hist.length = s.params.cap
  /-- R54 (a). -/
  pos_lt : s.sPos.toNat < s.params.cap
  /-- R54 (b). -/
  taps_le : s.sTaps.toNat ≤ s.params.cap
  /-- R54 (c). -/
  taps_shaping : s.sTaps.toNat ≠ 0 → methodShaping s.params s.sMethod = true
  /-- R54 (d). -/
  coef_zero : ∀ k, s.sTaps.toNat ≤ k → k < s.params.cap → fileRead s.coef k = 0
  /-- RATIO is a cell of the table of 40_catalog_and_init.md R152, the +0.0 of reset included. -/
  ratio_known : ∃ src dst, src ≤ 4 ∧ dst ≤ 4 ∧ s.sRatio = ratioTable src dst
  /-- R54 (e): SCALE is RATIO times a strength that INIT accepts; at reset that of +0.0. -/
  scale_product : ∃ x, strengthValid x = true ∧ s.sScale = fmul s.sRatio x
  /-- INV_SCALE belongs to SCALE (40_catalog_and_init.md R154), which gives R54 (f). -/
  inv_scale : s.sInvScale = inverseScale s.sScale
  /-- S_METHOD is valid or UNINIT (60_exceptions.md R272). -/
  method_known : methodValid s.params s.sMethod = true ∨ s.sMethod = 0xFF
  /-- ERR_CODE is NONE exactly while ERR = 0 (60_exceptions.md R272, R273). -/
  err_code : s.err = false ↔ s.errCode = .none
  /-- No command is pending while FATAL = 1 (60_exceptions.md R270). -/
  fatal_idle : s.fatal = true → s.busy = false
  /-- The memory is in its canonical form. -/
  mem_wf : s.mem.wf = true
  /-- Only bytes of IBUF and OBUF are listed. -/
  mem_mapped : ∀ a, (memByte s.mem a).isSome = true → bufferAddr s.params a

/-! ### Runs -/

/-- The end of a run: the host has nothing left to issue, nothing is held and BUSY = 0
(70_reset_and_hazards.md R324). -/
def runEnded (s : State) : Bool := s.hostQueue.isEmpty && s.held.isNone && !s.busy

/-- The state an outcome leads to, if it is a next state. -/
def nextState (o : Host.Outcome State Fault Refusal) : Option State :=
  match o with
  | .next t => some t
  | .fault _ => none
  | .refused _ => none

end Sys2Proof.Machine
end

