-- ==== Sys2Proof/Certificates/Slice0/Obligations.lean ====
section
/-! DEFINITION. The statements for the provers, from the numbered rules of spec/: encoding, reset, the step, the four families of commands, arithmetic, the host bus and the rules of the whole machine. -/

open Sys2Proof Sys2Proof.Machine

/-! ### Encoding -/

/-- 30_encoding.md R124: the words of the opcode table, written out, decode to their rows. -/
def Obligations.DecodeReadsTheTenTableWords : Prop :=
  decode 0x00000000#32 = .ok .nop ∧ decode 0x00000001#32 = .ok .init
    ∧ decode 0x00000002#32 = .ok .fillS16 ∧ decode 0x00000012#32 = .ok .fillS32
    ∧ decode 0x00000022#32 = .ok .fillF32 ∧ decode 0x00000032#32 = .ok .fillF64
    ∧ decode 0x00000003#32 = .ok .quantS16 ∧ decode 0x00000013#32 = .ok .quantS32
    ∧ decode 0x00000023#32 = .ok .quantF32 ∧ decode 0x00000033#32 = .ok .quantF64

/-- 30_encoding.md R124: of the 2^32 words, the only one that decodes to an instruction is the one it
encodes to, and that one does. -/
def Obligations.DecodeAndEncodeAgree : Prop :=
  ∀ (w : Word) (i : Instr), decode w = .ok i ↔ w = encode i

/-- 30_encoding.md R123: which words are valid, by their fields; a valid word names exactly one row; and
every other word is illegal, and makes the command fail with ILLEGAL and change nothing else. -/
def Obligations.DecodeAcceptsExactlyTheValidWords : Prop :=
  ∀ w : Word,
    (w.extractLsb' 6 26 = 0
        ∧ ((w.extractLsb' 0 4 = 0 ∨ w.extractLsb' 0 4 = 1) ∧ w.extractLsb' 4 2 = 0
          ∨ (w.extractLsb' 0 4 = 2 ∨ w.extractLsb' 0 4 = 3))
      → ∃ i, decode w = .ok i ∧ ∀ j, encode j = w ↔ j = i)
    ∧ (¬ (w.extractLsb' 6 26 = 0
        ∧ ((w.extractLsb' 0 4 = 0 ∨ w.extractLsb' 0 4 = 1) ∧ w.extractLsb' 4 2 = 0
          ∨ (w.extractLsb' 0 4 = 2 ∨ w.extractLsb' 0 4 = 3)))
      → ∀ s : State, s.pend = w → execPending s = .next { s with
          err := true, errCode := .illegal, errInfo := w, done := true })

/-! ### Reset -/

/-- 70_reset_and_hazards.md R310: what reset leaves, for every choice of the parameters; bytes of the
buffers are unwritten. -/
def Obligations.ResetLeavesTheValuesOfTheTable : Prop :=
  ∀ p : Params,
    let s := State.resetOf p
    s.params = p
    ∧ readReg .id s = 0x4E535131 ∧ statusWord s = 0 ∧ irqEnWord s = 0 ∧ s.errInfo = 0
    ∧ s.len = 0 ∧ s.inBase = 0 ∧ s.outBase = 0
    ∧ s.cfgMethod = 0 ∧ s.cfgFmt = 0 ∧ s.cfgRate = 0 ∧ s.cfgSeed = 0
    ∧ s.cfgStrengthLo = 0 ∧ s.cfgStrengthHi = 0
    ∧ s.sMethod = 0xFF ∧ s.sFmt = 0 ∧ s.sTaps = 0 ∧ s.sPos = 0 ∧ s.sSeed = 0
    ∧ s.sRatio = 0 ∧ s.sScale = 0 ∧ s.sInvScale = 0
    ∧ (s.coef.length = p.cap ∧ ∀ k < p.cap, s.coef[k]? = some 0)
    ∧ (s.hist.length = p.cap ∧ ∀ k < p.cap, s.hist[k]? = some 0)
    ∧ (∀ a, memByte s.mem a = none)
    ∧ irq s = false

/-- 10_state.md R54: the invariant, R54 (a) to (f) among it, holds after reset, whatever the well-formed
parameters, and in `State.reset` (whose parameters are the model's choice, log 1). -/
def Obligations.ResetMeetsTheInvariant : Prop :=
  (∀ p : Params, p.wf = true → (State.resetOf p).Inv) ∧ State.reset.Inv

/-- 10_state.md R54: every step, of the host, the block or the platform, keeps the invariant. R54 (e) has
the form that a state alone can show: SCALE is RATIO times some strength that INIT accepts. -/
def Obligations.EveryStepKeepsTheInvariant : Prop :=
  ∀ s t : State, s.Inv → step s = .next t → t.Inv

/-- 70_reset_and_hazards.md R311: the platform's turn discards the pending command, clears FATAL and
ends a held transaction with no effect; the block is then as after reset. That the host's queue, what
it got back, the remaining turns and the count of free bytes stay, that the held transaction gets no
response, and that it counts as held until the host's turn is the model's choice (logs 13, 14, 22). -/
def Obligations.PlatformTurnResetsTheBlock : Prop :=
  ∀ (s : State) (rest : List Agent), s.turns = .platform :: rest →
    step s = .next { State.resetOf s.params with
      hostQueue := s.hostQueue, responses := s.responses, turns := rest, freeCount := s.freeCount }

/-! ### The block step -/

/-- 60_exceptions.md R270: when the block moves and the pending word decodes, the step is the command's
meaning, then BUSY <- 0. Whose turn it is, and that it is used up, is the model's (log 3). -/
def Obligations.StepRunsThePendingCommand : Prop :=
  ∀ (s : State) (i : Instr), whoMoves s = .block → s.busy = true → decode s.pend = .ok i →
    step s =
      match exec i { s with turns := s.turns.tail } with
      | .next t => .next { t with busy := false }
      | .fault f => .fault f
      | .refused r => .refused r

/-- 30_encoding.md R125: a word of the three illegal groups fails with ILLEGAL, is copied to ERR_INFO,
and nothing but STATUS and ERR_INFO changes. -/
def Obligations.IllegalWordIsReported : Prop :=
  ∀ s : State,
    (4 ≤ (s.pend.extractLsb' 0 4).toNat
      ∨ (s.pend.extractLsb' 0 4).toNat ≤ 1 ∧ s.pend.extractLsb' 4 2 ≠ 0
      ∨ s.pend.extractLsb' 6 26 ≠ 0) →
    blockStep s = .next { s with
      err := true, errCode := .illegal, errInfo := s.pend, done := true, busy := false }

/-! ### NOP -/

/-- 40_catalog_and_init.md R160: NOP is word 0, sets DONE and changes nothing else, in every state; while
FATAL its CMD write is dropped; and the worked example: from reset, with any parameters, the host writes
0 to CMD, and after the block's step STATUS reads 0x00000002. -/
def Obligations.NopSetsDoneAndNothingElse : Prop :=
  (∀ s : State, exec .nop s = .next { s with done := true })
  ∧ decode 0x00000000#32 = .ok .nop
  ∧ (∀ s : State, s.fatal = true → hostWrite 0x010 0x00000000#32 s = (.write .ok, s))
  ∧ ∀ p : Params, ∃ t,
      blockStep (hostWrite 0x010 0x00000000#32 (State.resetOf p)).2 = .next t
      ∧ hostRead 0x014 t = (.read 0x00000002#32 .ok, t)

/-! ### INIT -/

/-- 40_catalog_and_init.md R151, 60_exceptions.md R274: INIT's three checks in their order, and that a
failing one only reports. -/
def Obligations.InitRejectsBadOperandsInOrder : Prop :=
  ∀ s : State,
    (1 + s.params.numNs < s.cfgMethod.toNat →
      exec .init s = .next { s with
        err := true, errCode := .badMethod, errInfo := s.pend, done := true })
    ∧ (s.cfgMethod.toNat ≤ 1 + s.params.numNs →
      (4 < srcCode s.cfgFmt ∨ 4 < dstCode s.cfgFmt) →
      exec .init s = .next { s with
        err := true, errCode := .badFormat, errInfo := s.pend, done := true })
    ∧ (s.cfgMethod.toNat ≤ 1 + s.params.numNs →
      srcCode s.cfgFmt ≤ 4 → dstCode s.cfgFmt ≤ 4 →
      (isNaN (strength s) = true ∨ strength s = 0x7FF0000000000000#64
        ∨ fle 0 (strength s) = false) →
      exec .init s = .next { s with
        err := true, errCode := .badStrength, errInfo := s.pend, done := true })

/-- 40_catalog_and_init.md R153, R154, R155, R157: a valid INIT completes with the scales, the cleared
history, the seed, the latched formats and NAN cleared. -/
def Obligations.InitCompletesAndSetsTheSession : Prop :=
  ∀ s : State, InitReady s → ∃ t, exec .init s = .next t
    ∧ t.done = true
    ∧ t.sRatio = ratioTable (srcCode s.cfgFmt) (dstCode s.cfgFmt)
    ∧ t.sScale = fmul (ratioTable (srcCode s.cfgFmt) (dstCode s.cfgFmt)) (strength s)
    ∧ t.sInvScale = (if feq t.sScale 0 then 0 else fdiv 0x3FF0000000000000#64 t.sScale)
    ∧ srcCode t.sFmt = srcCode s.cfgFmt ∧ dstCode t.sFmt = dstCode s.cfgFmt
    ∧ t.sPos = 0 ∧ t.sSeed = s.cfgSeed ∧ t.nan = false
    ∧ t.hist.length = s.params.cap ∧ ∀ k < s.params.cap, t.hist[k]? = some 0

/-- 40_catalog_and_init.md R150, R156: for a shaping method, the first catalog entry that matches gives
TAPS and COEF, over +0.0, and WARN stays clear. -/
def Obligations.InitLoadsTheFirstMatchingFilter : Prop :=
  ∀ (s : State) (before after : List FilterSpec) (e : FilterSpec),
    InitReady s → s.params.wf = true → 2 ≤ s.cfgMethod.toNat →
    s.params.catalog = before ++ e :: after →
    (∀ d ∈ before, ¬ (d.name = s.cfgMethod ∧
      fle (fdiv (fabs (fsub (f64OfInt s.cfgRate.toNat) d.targetRate)) d.targetRate)
        0x3FA999999999999A#64 = true)) →
    e.name = s.cfgMethod →
    fle (fdiv (fabs (fsub (f64OfInt s.cfgRate.toNat) e.targetRate)) e.targetRate)
      0x3FA999999999999A#64 = true →
    ∃ t, exec .init s = .next t ∧ t.sMethod = s.cfgMethod ∧ t.sTaps.toNat = e.tapCount
      ∧ t.warn = false
      ∧ t.coef.length = s.params.cap
      ∧ (∀ k < e.tapCount, t.coef[k]? = e.coefficients[k]?)
      ∧ ∀ k, e.tapCount ≤ k → k < s.params.cap → t.coef[k]? = some 0

/-- 40_catalog_and_init.md R157: a shaping method that no entry matches falls back to TPDF_HP with TAPS
0, COEF cleared and WARN set. -/
def Obligations.InitFallsBackToTpdfHpWithWarning : Prop :=
  ∀ s : State, InitReady s → 2 ≤ s.cfgMethod.toNat →
    (∀ d ∈ s.params.catalog, ¬ (d.name = s.cfgMethod ∧
      fle (fdiv (fabs (fsub (f64OfInt s.cfgRate.toNat) d.targetRate)) d.targetRate)
        0x3FA999999999999A#64 = true)) →
    ∃ t, exec .init s = .next t ∧ t.sMethod = 1 ∧ t.sTaps = 0 ∧ t.warn = true
      ∧ t.coef.length = s.params.cap ∧ ∀ k < s.params.cap, t.coef[k]? = some 0

/-- 40_catalog_and_init.md R156: without a shaping method INIT keeps TAPS 0, COEF cleared and WARN
clear. -/
def Obligations.InitWithoutShapingLoadsNoFilter : Prop :=
  ∀ s : State, InitReady s → s.cfgMethod.toNat < 2 →
    ∃ t, exec .init s = .next t ∧ t.sMethod = s.cfgMethod ∧ t.sTaps = 0 ∧ t.warn = false
      ∧ t.coef.length = s.params.cap ∧ ∀ k < s.params.cap, t.coef[k]? = some 0

/-- 10_state.md R32, 40_catalog_and_init.md R158: the frame of INIT. A valid INIT writes the session
registers, COEF, HIST, WARN, NAN and DONE and nothing else; every byte of memory stays. -/
def Obligations.InitFrame : Prop :=
  ∀ s t : State, InitReady s → exec .init s = .next t →
    t = { s with
      sMethod := t.sMethod, sFmt := t.sFmt, sTaps := t.sTaps, sPos := t.sPos, sSeed := t.sSeed,
      sRatio := t.sRatio, sScale := t.sScale, sInvScale := t.sInvScale, coef := t.coef,
      hist := t.hist, warn := t.warn, nan := t.nan, done := true }
    ∧ ∀ a, memByte t.mem a = memByte s.mem a

/-- 40_catalog_and_init.md R158: INIT twice in a row is INIT once. -/
def Obligations.InitTwiceIsInitOnce : Prop :=
  ∀ s t : State, InitReady s → exec .init s = .next t → exec .init t = .next t

/-- 40_catalog_and_init.md R152: with F = 7, 15, 31 for I8, S16, S32, an integer pair has ratio
2^(F(src)-F(dst)), a float source with an integer destination 2^-F(dst), and a float destination +0.0. -/
def Obligations.RatioTableHoldsThePowersOfTwo : Prop :=
  let F : Nat → Nat := fun c => 2 ^ (c + 3) - 1
  (∀ src < 3, ∀ dst < 3,
    ratioTable src dst = BitVec.ofNat 64 ((1023 + F src - F dst) * 2 ^ 52))
  ∧ (∀ src < 5, ∀ dst < 3, 3 ≤ src →
    ratioTable src dst = BitVec.ofNat 64 ((1023 - F dst) * 2 ^ 52))
  ∧ ∀ src < 5, ∀ dst < 5, 3 ≤ dst → ratioTable src dst = 0

/-- 10_state.md R54 (f): the inverse of a scale is +0.0 exactly when the scale is ±0 or +∞. -/
def Obligations.InverseScaleIsZeroExactlyAtZeroAndInfinity : Prop :=
  ∀ scale : F64,
    inverseScale scale = 0 ↔ (feq scale 0 = true ∨ scale = 0x7FF0000000000000#64)

/-! ### The generator -/

/-- 41_noise_generator.md R195: the successor of a SEED is a bijection, and `pred` is its inverse. -/
def Obligations.SeedSuccessorHasItsInverse : Prop :=
  ∀ s : Word, seedPred (seedSucc s) = s ∧ seedSucc (seedPred s) = s

/-- 41_noise_generator.md R190: a draw advances SEED once and returns a value in [0, 1]. -/
def Obligations.NextUReturnsAValueInTheUnitInterval : Prop :=
  ∀ s : Word, (nextU s).2 = s * 1664525#32 + 1013904223#32
    ∧ (nextU s).1 = fdiv (f64OfInt (nextU s).2.toNat) 0x41EFFFFFFFE00000#64
    ∧ fle 0 (nextU s).1 = true ∧ fle (nextU s).1 0x3FF0000000000000#64 = true

/-- 41_noise_generator.md R193: RECT draws Rect() with one advance of SEED, every other method Tri()
with two. -/
def Obligations.DrawFollowsTheMethod : Prop :=
  ∀ (m : BitVec 8) (s : Word),
    (m = 0 → draw m s = (fsub (nextU s).1 0x3FE0000000000000#64, seedSucc s))
    ∧ (m ≠ 0 → draw m s =
      (fsub (nextU s).1 (nextU (seedSucc s)).1, seedSucc (seedSucc s)))

/-! ### FILL.S16, FILL.S32, FILL.F32, FILL.F64 -/

/-- 42_fill.md R218, 60_exceptions.md R273 to R275: the three checks of FILL.S16, FILL.S32, FILL.F32 and
FILL.F64 in their order, and that a failing one only reports. -/
def Obligations.FillReportsAlignThenRangeThenFatal : Prop :=
  ∀ (rep : Rep) (s : State),
    (s.outBase.toNat % width rep ≠ 0 →
      exec (fillInstr rep) s = .next { s with
        err := true, errCode := .align, errInfo := s.pend, done := true })
    ∧ (s.outBase.toNat % width rep = 0 →
      s.params.obufBytes < s.outBase.toNat + s.len.toNat * width rep →
      exec (fillInstr rep) s = .next { s with
        err := true, errCode := .range, errInfo := s.pend, done := true })
    ∧ (s.outBase.toNat % width rep = 0 →
      s.outBase.toNat + s.len.toNat * width rep ≤ s.params.obufBytes →
      1 + s.params.numNs < s.sMethod.toNat →
      exec (fillInstr rep) s = .next { s with
        err := true, errCode := .fatal, errInfo := s.pend, fatal := true, done := true })

/-- 42_fill.md R211: FILL.S16, FILL.S32, FILL.F32 and FILL.F64 complete, LEN = 0 included, and advance
SEED by LEN+2 draws. -/
def Obligations.FillCompletesAfterTwoExtraDraws : Prop :=
  ∀ (rep : Rep) (s : State), FillReady rep s → ∃ t, exec (fillInstr rep) s = .next t
    ∧ t.done = true
    ∧ t.sSeed = seedAfter ((if s.sMethod = 0 then 1 else 2) * (s.len.toNat + 2)) s.sSeed

/-- 42_fill.md R212, R213, 20_memory.md R88: FILL.S16, FILL.S32, FILL.F32 and FILL.F64 complete, and
byte j of output sample i is byte j of `Bits(REP, Conv(REP, fmul(v_i, SCALE)))` at OBUF byte
`OUT_BASE + i*w + j`, with v_i the high-pass of three draws for TPDF_HP and draw i otherwise. -/
def Obligations.FillStoresTheScaledSlots : Prop :=
  ∀ (rep : Rep) (s : State), FillReady rep s →
    let tmp := drawNumber s.sMethod s.sSeed
    let v : Nat → F64 := fun i =>
      if s.sMethod = 1 then
        fdiv (fsub (fadd (fneg (tmp i)) (fmul 0x4000000000000000#64 (tmp (i + 1)))) (tmp (i + 2)))
          0x4003988E1409212E#64
      else tmp i
    ∃ t, exec (fillInstr rep) s = .next t
      ∧ ∀ i < s.len.toNat, ∀ j < width rep,
        memByte t.mem (0x20000 + (s.outBase.toNat + i * width rep) + j) =
          some (BitVec.ofNat 8 (bits rep (conv rep (fmul (v i) s.sScale)) / 256 ^ j))

/-- 42_fill.md R210, R213: the frame of FILL.S16, FILL.S32, FILL.F32 and FILL.F64. Only SEED, NAN, DONE
and the bytes `OUT_BASE .. OUT_BASE + LEN*w - 1` of OBUF change. -/
def Obligations.FillFrame : Prop :=
  ∀ (rep : Rep) (s t : State), FillReady rep s → exec (fillInstr rep) s = .next t →
    t = { s with sSeed := t.sSeed, nan := t.nan, mem := t.mem, done := true }
    ∧ ∀ a, OutsideOutput rep s a → memByte t.mem a = memByte s.mem a

/-- 42_fill.md R214, R215, 43_quantize.md R230: a FILL sets NAN exactly when its representation is an
integer and some output value is a NaN. -/
def Obligations.FillSetsNanForIntegerStoresOfNan : Prop :=
  ∀ (rep : Rep) (s t : State), FillReady rep s → exec (fillInstr rep) s = .next t →
    (t.nan = true ↔ s.nan = true ∨
      ((rep = .s16 ∨ rep = .s32) ∧ ∃ i < s.len.toNat, isNaN (fillOutput s i) = true))

/-- 42_fill.md R210: FILL reads nothing but S_METHOD, SCALE, SEED, LEN, OUT_BASE (and the parameters):
two states that agree on these get the same SEED and the same output bytes. -/
def Obligations.FillDependsOnlyOnItsOperands : Prop :=
  ∀ (rep : Rep) (s s' : State), FillReady rep s →
    s'.params = s.params → s'.sMethod = s.sMethod → s'.sScale = s.sScale → s'.sSeed = s.sSeed →
    s'.len = s.len → s'.outBase = s.outBase →
    ∃ t t', exec (fillInstr rep) s = .next t ∧ exec (fillInstr rep) s' = .next t'
      ∧ t'.sSeed = t.sSeed
      ∧ ∀ a, ¬ OutsideOutput rep s a → memByte t'.mem a = memByte t.mem a

/-! ### QUANT.S16, QUANT.S32, QUANT.F32, QUANT.F64 -/

/-- 43_quantize.md R236, 60_exceptions.md R273 to R275: the three checks of QUANT.S16, QUANT.S32,
QUANT.F32 and QUANT.F64 in their order, and that a failing one only reports. -/
def Obligations.QuantReportsAlignThenRangeThenFatal : Prop :=
  ∀ (rep : Rep) (s : State),
    (s.outBase.toNat % width rep ≠ 0 →
      exec (quantInstr rep) s = .next { s with
        err := true, errCode := .align, errInfo := s.pend, done := true })
    ∧ (s.outBase.toNat % width rep = 0 →
      (s.params.ibufEntries < s.inBase.toNat + s.len.toNat
        ∨ s.params.obufBytes < s.outBase.toNat + s.len.toNat * width rep) →
      exec (quantInstr rep) s = .next { s with
        err := true, errCode := .range, errInfo := s.pend, done := true })
    ∧ (s.outBase.toNat % width rep = 0 →
      s.inBase.toNat + s.len.toNat ≤ s.params.ibufEntries →
      s.outBase.toNat + s.len.toNat * width rep ≤ s.params.obufBytes →
      1 + s.params.numNs < s.sMethod.toNat →
      exec (quantInstr rep) s = .next { s with
        err := true, errCode := .fatal, errInfo := s.pend, fatal := true, done := true })

/-- 60_exceptions.md R277 (a), 43_quantize.md R236: a QUANT that passes its checks stops with the model
fault at the first IBUF entry that has not been written since reset. -/
def Obligations.QuantFaultsAtTheFirstUnwrittenEntry : Prop :=
  ∀ (rep : Rep) (s : State) (i : Nat), s.params.wf = true → QuantChecksPass rep s →
    i < s.len.toNat → (∀ j < i, EntryWritten s j) → ¬ EntryWritten s i →
    exec (quantInstr rep) s = .fault (.unwrittenIbuf (s.inBase.toNat + i))

/-- 43_quantize.md R237 (a): QUANT.S16, QUANT.S32, QUANT.F32 and QUANT.F64 complete, POS moves to
(POS + LEN) mod CAP, and SEED advances by LEN draws. -/
def Obligations.QuantCompletesAndMovesPosAndSeed : Prop :=
  ∀ (rep : Rep) (s : State), s.params.wf = true → s.sPos.toNat < s.params.cap →
    QuantReady rep s → ∃ t, exec (quantInstr rep) s = .next t
      ∧ t.done = true
      ∧ t.sPos.toNat = (s.sPos.toNat + s.len.toNat) % s.params.cap
      ∧ t.sSeed = seedAfter ((if s.sMethod = 0 then 1 else 2) * s.len.toNat) s.sSeed

/-- 43_quantize.md R232 to R235: the cycle of one sample: the shaped target t, the dithered and
converted value v, the stored sample q, the recorded error, and the advance. -/
def Obligations.QuantOfOneSampleFollowsTheCycle : Prop :=
  ∀ (rep : Rep) (s : State) (x : F64), s.params.wf = true → QuantChecksPass rep s → s.len = 1 →
    ibufRead s.mem s.inBase.toNat = some x →
    let acc := (List.range s.sTaps.toNat).foldl (fun acc k =>
      fadd acc (fmul (fileRead s.coef k)
        (fileRead s.hist (((s.sPos.toNat : Int) - k) % (s.params.cap : Int)).toNat))) 0
    let t := if s.sTaps = 0 then x else fadd x acc
    let u := fadd t (fmul (draw s.sMethod s.sSeed).1 s.sScale)
    let g := if feq s.sRatio 0 then 0x3FF0000000000000#64 else fdiv 0x3FF0000000000000#64 s.sRatio
    let v := fmul u g
    let q := conv rep v
    let back := if feq s.sRatio 0 then toF64 q else fmul (toF64 q) s.sRatio
    ∃ s', exec (quantInstr rep) s = .next s'
      ∧ s'.hist = s.hist.set s.sPos.toNat (fsub back t)
      ∧ s'.sPos.toNat = (s.sPos.toNat + 1) % s.params.cap
      ∧ s'.sSeed = (draw s.sMethod s.sSeed).2
      ∧ (∀ j < width rep, memByte s'.mem (0x20000 + s.outBase.toNat + j) =
          some (BitVec.ofNat 8 (bits rep q / 256 ^ j)))
      ∧ (s'.nan = true ↔ s.nan = true ∨ ((rep = .s16 ∨ rep = .s32) ∧ isNaN v = true))

/-- 70_reset_and_hazards.md R313: a stream of a + b samples split into two QUANTs, the second one's
IN_BASE and OUT_BASE moved on by a samples, ends as one QUANT over the whole stream. -/
def Obligations.QuantOfAStreamSplitsInTwo : Prop :=
  ∀ (rep : Rep) (s : State) (a b : Nat), s.params.wf = true → QuantReady rep s →
    s.len.toNat = a + b →
    ∃ t u : State,
      exec (quantInstr rep) { s with len := BitVec.ofNat 32 a } = .next t
      ∧ exec (quantInstr rep) { t with
          len := BitVec.ofNat 32 b
          inBase := BitVec.ofNat 32 (s.inBase.toNat + a)
          outBase := BitVec.ofNat 32 (s.outBase.toNat + a * width rep) } = .next u
      ∧ exec (quantInstr rep) s = .next { u with
          len := s.len, inBase := s.inBase, outBase := s.outBase }

/-- 43_quantize.md R235, 10_state.md R32: the frame of QUANT.S16, QUANT.S32, QUANT.F32 and QUANT.F64.
Only HIST, POS, SEED, NAN, DONE and the bytes `OUT_BASE .. OUT_BASE + LEN*w - 1` of OBUF change; HIST
keeps its length. -/
def Obligations.QuantFrame : Prop :=
  ∀ (rep : Rep) (s t : State), QuantChecksPass rep s → exec (quantInstr rep) s = .next t →
    t = { s with
      hist := t.hist, sPos := t.sPos, sSeed := t.sSeed, nan := t.nan, mem := t.mem, done := true }
    ∧ t.hist.length = s.hist.length
    ∧ ∀ a, OutsideOutput rep s a → memByte t.mem a = memByte s.mem a

/-- 43_quantize.md R237 (b): with LEN = 0 a QUANT that passes its checks changes nothing but DONE, in
every method and whatever IBUF holds. -/
def Obligations.QuantOfNoSamplesSetsDoneOnly : Prop :=
  ∀ (rep : Rep) (s : State), QuantChecksPass rep s → s.len = 0 →
    exec (quantInstr rep) s = .next { s with done := true }

/-- 43_quantize.md R237 (f): the results of a QUANT depend only on the session, its operands and the
IBUF entries read: a state that agrees on these but differs in configuration, status, IRQ_EN, ERR_INFO
or any other byte of memory gets the same HIST, POS, SEED and output bytes. -/
def Obligations.QuantDependsOnlyOnItsOperands : Prop :=
  ∀ (rep : Rep) (s s' : State), s.params.wf = true → QuantReady rep s →
    s'.params = s.params → s'.len = s.len → s'.inBase = s.inBase → s'.outBase = s.outBase →
    s'.sMethod = s.sMethod → s'.sTaps = s.sTaps → s'.sPos = s.sPos → s'.sSeed = s.sSeed →
    s'.sRatio = s.sRatio → s'.sScale = s.sScale → s'.coef = s.coef → s'.hist = s.hist →
    (∀ i < s.len.toNat,
      ibufRead s'.mem (s.inBase.toNat + i) = ibufRead s.mem (s.inBase.toNat + i)) →
    ∃ t t', exec (quantInstr rep) s = .next t ∧ exec (quantInstr rep) s' = .next t'
      ∧ t'.hist = t.hist ∧ t'.sPos = t.sPos ∧ t'.sSeed = t.sSeed
      ∧ ∀ a, ¬ OutsideOutput rep s a → memByte t'.mem a = memByte t.mem a

/-! ### Store rules and arithmetic -/

/-- 43_quantize.md R230: the integer stores: NaN gives 0, ±∞ saturate, every other value is rounded and
then limited to the range; the result lies in the range, its bits are the two's complement of N bits,
and its value back is the binary64 of the integer. -/
def Obligations.IntegerStoresRoundThenSaturate : Prop :=
  ∀ (rep : Rep) (lo hi : Int) (n : Nat),
    (rep = .s16 ∧ lo = -32768 ∧ hi = 32767 ∧ n = 16
      ∨ rep = .s32 ∧ lo = -2147483648 ∧ hi = 2147483647 ∧ n = 32) →
    ∀ v : F64, ∃ q, conv rep v = .int q ∧ lo ≤ q ∧ q ≤ hi
      ∧ convSetsNan rep v = isNaN v
      ∧ (isNaN v = true → q = 0)
      ∧ (v = 0x7FF0000000000000#64 → q = hi) ∧ (v = 0xFFF0000000000000#64 → q = lo)
      ∧ (∀ neg m e, num64 v = .fin neg m e →
        (rneInt v < lo → q = lo) ∧ (hi < rneInt v → q = hi)
        ∧ (lo ≤ rneInt v → rneInt v ≤ hi → q = rneInt v))
      ∧ bits rep (.int q) = (BitVec.ofInt n q).toNat
      ∧ toF64 (.int q) = f64OfInt q

/-- 43_quantize.md R231: no FILL and no QUANT with a float representation changes NAN. -/
def Obligations.FloatStoresNeverSetNan : Prop :=
  ∀ (rep : Rep) (s t : State), (rep = .f32 ∨ rep = .f64) →
    (exec (fillInstr rep) s = .next t ∨ exec (quantInstr rep) s = .next t) → t.nan = s.nan

/-- 00_scope.md R10: `rne_int` of a finite value is an integer within half a unit of it, the even one
when two are equally near. The value is `±m * 2^-k`, or an integer already. -/
def Obligations.RneIntIsNearestTiesToEven : Prop :=
  ∀ (v : F64) (neg : Bool) (m : Nat) (e : Int), num64 v = .fin neg m e →
    (0 ≤ e → rneInt v = signedInt neg m * 2 ^ e.toNat)
    ∧ (e < 0 →
      2 * (rneInt v * 2 ^ (-e).toNat - signedInt neg m).natAbs ≤ 2 ^ (-e).toNat
      ∧ (2 * (rneInt v * 2 ^ (-e).toNat - signedInt neg m).natAbs = 2 ^ (-e).toNat →
        rneInt v % 2 = 0))

/-- 00_scope.md R8: binary64 arithmetic. The fields of a pattern give its value; rounding keeps every
value that binary64 holds; `fadd`, `fsub`, `fmul` and `fdiv` of finite operands give the binary64 nearest
to the exact result, ties to even, an exact zero having the sign of IEEE 754; the comparisons are those
of the values; `fneg` and `fabs` are exact; `f64(i)` is the binary64 nearest to i, and exact up to 2^53.
The definitions of IEEE 754 are from outside the spec (log 12). -/
def Obligations.RoundingKeepsRepresentableValues : Prop :=
  (∀ v : F64,
    let frac := (v.extractLsb' 0 52).toNat
    let ex := (v.extractLsb' 52 11).toNat
    num64 v =
      if ex = 2047 then if frac = 0 then .inf (v.getLsbD 63) else .nan
      else if ex = 0 then .fin (v.getLsbD 63) frac (-1074)
      else .fin (v.getLsbD 63) (2 ^ 52 + frac) (ex - 1075))
  ∧ (∀ (v : F64) (neg : Bool) (m : Nat) (e : Int),
    num64 v = .fin neg m e → round64 neg m e = v)
  ∧ (∀ (a b : F64) (s t : Bool) (m n : Nat) (e d : Int),
    num64 a = .fin s m e → num64 b = .fin t n d →
    let x := valueOf s m e
    let y := valueOf t n d
    let zero : Bool → F64 := fun neg => if neg then 0x8000000000000000#64 else 0
    RoundsTo binary64 (x + y) (fadd a b).toNat ∧ (x + y = 0 → fadd a b = zero (s && t))
    ∧ RoundsTo binary64 (x - y) (fsub a b).toNat ∧ (x - y = 0 → fsub a b = zero (s && !t))
    ∧ RoundsTo binary64 (x * y) (fmul a b).toNat ∧ (x * y = 0 → fmul a b = zero (s ^^ t))
    ∧ (y ≠ 0 → RoundsTo binary64 (x / y) (fdiv a b).toNat
      ∧ (x = 0 → fdiv a b = zero (s ^^ t)))
    ∧ (feq a b = true ↔ x = y) ∧ (fle a b = true ↔ x ≤ y)
    ∧ num64 (fneg a) = .fin (!s) m e ∧ num64 (fabs a) = .fin false m e)
  ∧ ∀ i : Int, RoundsTo binary64 i (f64OfInt i).toNat
    ∧ (i.natAbs ≤ 2 ^ 53 → ∃ s m e, num64 (f64OfInt i) = .fin s m e ∧ valueOf s m e = i)

/-- 00_scope.md R8, R9: arithmetic with a NaN or an infinity. A NaN operand, inf - inf, 0 * inf, 0 / 0
and inf / inf give a NaN, and every NaN result is the canonical one; the other results with an infinity,
and a nonzero number divided by 0, are infinities, zeros or the infinite operand itself; a NaN compares
false, and the infinities are the ends of the order; the binary32 NaN is its canonical one. That these
are the cases of IEEE 754 is from outside the spec (log 12). -/
def Obligations.ArithmeticNansAreCanonical : Prop :=
  (∀ a b : F64,
    let nan := 0x7FF8000000000000#64
    let inf : Bool → F64 := fun neg => if neg then 0xFFF0000000000000#64 else 0x7FF0000000000000#64
    let zero : Bool → F64 := fun neg => if neg then 0x8000000000000000#64 else 0
    (isNaN (fadd a b) = true → fadd a b = nan) ∧ (isNaN (fsub a b) = true → fsub a b = nan)
    ∧ (isNaN (fmul a b) = true → fmul a b = nan) ∧ (isNaN (fdiv a b) = true → fdiv a b = nan)
    ∧ (isNaN a = true ∨ isNaN b = true →
      fadd a b = nan ∧ fsub a b = nan ∧ fmul a b = nan ∧ fdiv a b = nan
      ∧ feq a b = false ∧ fle a b = false)
    ∧ (∀ s t, num64 a = .inf s → num64 b = .inf t →
      fadd a b = (if s = t then a else nan) ∧ fsub a b = (if s = t then nan else a)
      ∧ fmul a b = inf (s ^^ t) ∧ fdiv a b = nan)
    ∧ (∀ s t n d, num64 a = .inf s → num64 b = .fin t n d →
      fadd a b = a ∧ fsub a b = a
      ∧ fmul a b = (if n = 0 then nan else inf (s ^^ t)) ∧ fdiv a b = inf (s ^^ t))
    ∧ (∀ s m e t, num64 a = .fin s m e → num64 b = .inf t →
      fadd a b = b ∧ fsub a b = fneg b
      ∧ fmul a b = (if m = 0 then nan else inf (s ^^ t)) ∧ fdiv a b = zero (s ^^ t))
    ∧ (∀ s m e t d, num64 a = .fin s m e → num64 b = .fin t 0 d →
      fdiv a b = if m = 0 then nan else inf (s ^^ t))
    ∧ (∀ s, num64 a = .inf s → isNaN b = false →
      (feq a b = true ↔ b = a) ∧ (feq b a = true ↔ b = a)
      ∧ (fle a b = true ↔ s = true ∨ b = a) ∧ (fle b a = true ↔ s = false ∨ b = a)))
  ∧ ∀ v : F64, num32 (rneF32 v) = .nan → rneF32 v = 0x7FC00000#32

/-- 43_quantize.md R231, 00_scope.md R11: the float stores. `Conv(F32, v)` is `rne_f32(v)` and
`ToF64(F32, q)` is `f64_of_f32(q)`; F64 stores and gives back the value itself; the bits are the pattern.
`rne_f32` takes a finite value to the binary32 nearest to it, ties to even; one of magnitude at least
2^128 - 2^103 (pattern 0x47EFFFFFF0000000) becomes ±∞; ±∞ and NaN go to ±∞ and 0x7FC00000; zeros keep
their sign. The fields of a binary32 give its value, and `f64_of_f32` keeps it; of a NaN it gives the
canonical one, which is the model's reading (log 11). -/
def Obligations.F32StoreOverflowsToInfinity : Prop :=
  (∀ v : F64,
    conv .f32 v = .f32 (rneF32 v) ∧ conv .f64 v = .f64 v
    ∧ bits .f64 (.f64 v) = v.toNat ∧ toF64 (.f64 v) = v
    ∧ (isNaN v = true → rneF32 v = 0x7FC00000#32)
    ∧ (isNaN v = false → 0x47EFFFFFF0000000 ≤ v.toNat % 2 ^ 63 →
      rneF32 v = if v.toNat < 2 ^ 63 then 0x7F800000#32 else 0xFF800000#32)
    ∧ (v.toNat % 2 ^ 63 < 0x47EFFFFFF0000000 →
      (rneF32 v).toNat % 2 ^ 31 < 0x7F800000)
    ∧ (∀ neg m e, num64 v = .fin neg m e → RoundsTo binary32 (valueOf neg m e) (rneF32 v).toNat)
    ∧ (feq v 0 = true → rneF32 v = if v.toNat < 2 ^ 63 then 0#32 else 0x80000000#32))
  ∧ ∀ q : F32,
    let frac := (q.extractLsb' 0 23).toNat
    let ex := (q.extractLsb' 23 8).toNat
    bits .f32 (.f32 q) = q.toNat ∧ toF64 (.f32 q) = f64OfF32 q
    ∧ num32 q =
      (if ex = 255 then if frac = 0 then .inf (q.getLsbD 31) else .nan
      else if ex = 0 then .fin (q.getLsbD 31) frac (-149)
      else .fin (q.getLsbD 31) (2 ^ 23 + frac) (ex - 150))
    ∧ (∀ neg m e, num32 q = .fin neg m e →
      ∃ m' e', num64 (f64OfF32 q) = .fin neg m' e' ∧ valueOf neg m' e' = valueOf neg m e)
    ∧ (∀ neg, num32 q = .inf neg → num64 (f64OfF32 q) = .inf neg)
    ∧ (num32 q = .nan → f64OfF32 q = 0x7FF8000000000000#64)

/-! ### STATUS, IRQ_EN and the interrupt -/

/-- 10_state.md R33, 60_exceptions.md R272: the bits of STATUS, ERR_CODE as the number of its error, and
a host write to it, busy or not: it clears the W1C bits it has ones in, with ERR also ERR_CODE; BUSY,
FATAL and everything else stay. -/
def Obligations.StatusShowsTheFlagsAndClearsTheOnesWritten : Prop :=
  (errCodeBits .none = 0 ∧ errCodeBits .illegal = 1 ∧ errCodeBits .badMethod = 2
    ∧ errCodeBits .badFormat = 3 ∧ errCodeBits .badStrength = 4 ∧ errCodeBits .align = 5
    ∧ errCodeBits .range = 6 ∧ errCodeBits .fatal = 7)
  ∧ ∀ (s : State) (w : Word),
    ((statusWord s).getLsbD 0 = s.busy ∧ (statusWord s).getLsbD 1 = s.done
      ∧ (statusWord s).getLsbD 2 = s.err ∧ (statusWord s).getLsbD 3 = s.warn
      ∧ (statusWord s).getLsbD 4 = s.nan ∧ (statusWord s).getLsbD 5 = s.fatal
      ∧ (statusWord s).extractLsb' 6 2 = 0
      ∧ (statusWord s).extractLsb' 8 4 = errCodeBits s.errCode
      ∧ (statusWord s).extractLsb' 12 20 = 0)
    ∧ hostRead 0x014 s = (.read (statusWord s) .ok, s)
    ∧ hostWrite 0x014 w s = (.write .ok, { s with
      done := if w.getLsbD 1 then false else s.done
      err := if w.getLsbD 2 then false else s.err
      errCode := if w.getLsbD 2 then .none else s.errCode
      warn := if w.getLsbD 3 then false else s.warn
      nan := if w.getLsbD 4 then false else s.nan })

/-- 10_state.md R34: a write to IRQ_EN keeps bits [5:1] and ignores the reserved ones, which read 0; all
bits reset to 0. -/
def Obligations.IrqEnKeepsItsFiveEnables : Prop :=
  (∀ (s : State) (w : Word), ∃ t, hostWrite 0x018 w s = (.write .ok, t)
    ∧ hostRead 0x018 t = (.read (w &&& 0x0000003E#32) .ok, t)
    ∧ t = { s with irqEn := t.irqEn })
  ∧ (∀ s : State, ∃ w, hostRead 0x018 s = (.read w .ok, s) ∧ w &&& ~~~0x0000003E#32 = 0)
  ∧ ∀ p : Params, hostRead 0x018 (State.resetOf p) = (.read 0 .ok, State.resetOf p)

/-- 60_exceptions.md R280: the interrupt output is the OR of STATUS[5:1] and IRQ_EN[5:1]. -/
def Obligations.IrqIsTheOrOfTheEnabledSources : Prop :=
  ∀ s : State, irq s = true ↔
    ((statusWord s &&& irqEnWord s) &&& 0x0000003E#32) ≠ 0

/-! ### The host bus -/

/-- 10_state.md R31, R35, R37, R39 to R43, R56, R57: a write to a RW register changes that register and
nothing else (CFG_METHOD and CFG_FMT keep the low eight bits); each register reads its own value, the
narrow ones with 0 above it, and PARAM0 to PARAM2 the parameters of a well-formed instance; a write to a
RO register or to a reserved offset is ignored with an OK response; a reserved offset and CMD read 0; the
halves of the session's binary64 registers. -/
def Obligations.RegistersFollowTheirAccessTypes : Prop :=
  ∀ (s : State) (w : Word),
    (hostWrite 0x020 w s = (.write .ok, { s with len := w })
      ∧ hostWrite 0x024 w s = (.write .ok, { s with inBase := w })
      ∧ hostWrite 0x028 w s = (.write .ok, { s with outBase := w })
      ∧ hostWrite 0x030 w s = (.write .ok, { s with cfgMethod := w.extractLsb' 0 8 })
      ∧ hostWrite 0x034 w s = (.write .ok, { s with cfgFmt := w.extractLsb' 0 8 })
      ∧ hostWrite 0x038 w s = (.write .ok, { s with cfgRate := w })
      ∧ hostWrite 0x03C w s = (.write .ok, { s with cfgSeed := w })
      ∧ hostWrite 0x040 w s = (.write .ok, { s with cfgStrengthLo := w })
      ∧ hostWrite 0x044 w s = (.write .ok, { s with cfgStrengthHi := w }))
    ∧ (hostRead 0x000 s = (.read 0x4E535131 .ok, s)
      ∧ hostRead 0x010 s = (.read 0 .ok, s)
      ∧ hostRead 0x01C s = (.read s.errInfo .ok, s)
      ∧ hostRead 0x020 s = (.read s.len .ok, s)
      ∧ hostRead 0x024 s = (.read s.inBase .ok, s)
      ∧ hostRead 0x028 s = (.read s.outBase .ok, s)
      ∧ hostRead 0x030 s = (.read (s.cfgMethod.setWidth 32) .ok, s)
      ∧ hostRead 0x034 s = (.read (s.cfgFmt.setWidth 32) .ok, s)
      ∧ hostRead 0x038 s = (.read s.cfgRate .ok, s)
      ∧ hostRead 0x03C s = (.read s.cfgSeed .ok, s)
      ∧ hostRead 0x040 s = (.read s.cfgStrengthLo .ok, s)
      ∧ hostRead 0x044 s = (.read s.cfgStrengthHi .ok, s)
      ∧ hostRead 0x050 s = (.read (s.sMethod.setWidth 32) .ok, s)
      ∧ hostRead 0x054 s = (.read (s.sFmt.setWidth 32) .ok, s)
      ∧ hostRead 0x058 s = (.read (s.sTaps.setWidth 32) .ok, s)
      ∧ hostRead 0x05C s = (.read (s.sPos.setWidth 32) .ok, s)
      ∧ hostRead 0x060 s = (.read s.sSeed .ok, s)
      ∧ hostRead 0x068 s = (.read (s.sRatio.extractLsb' 0 32) .ok, s)
      ∧ hostRead 0x06C s = (.read (s.sRatio.extractLsb' 32 32) .ok, s)
      ∧ hostRead 0x070 s = (.read (s.sScale.extractLsb' 0 32) .ok, s)
      ∧ hostRead 0x074 s = (.read (s.sScale.extractLsb' 32 32) .ok, s)
      ∧ hostRead 0x078 s = (.read (s.sInvScale.extractLsb' 0 32) .ok, s)
      ∧ hostRead 0x07C s = (.read (s.sInvScale.extractLsb' 32 32) .ok, s))
    ∧ (s.params.wf = true → ∃ p0 p1 p2 : Word,
      hostRead 0x004 s = (.read p0 .ok, s) ∧ p0.toNat = s.params.cap + 2 ^ 16 * s.params.numNs
      ∧ hostRead 0x008 s = (.read p1 .ok, s) ∧ p1.toNat = s.params.ibufEntries
      ∧ hostRead 0x00C s = (.read p2 .ok, s) ∧ p2.toNat = s.params.obufBytes)
    ∧ (∀ a ∈ ([0x000, 0x004, 0x008, 0x00C, 0x01C, 0x050, 0x054, 0x058, 0x05C, 0x060, 0x068, 0x06C,
        0x070, 0x074, 0x078, 0x07C] : List Addr), hostWrite a w s = (.write .ok, s))
    ∧ ∀ a : Addr, a.toNat % 4 = 0 → a.toNat < 0x1000 →
      (a = 0x02C ∨ a = 0x048 ∨ a = 0x04C ∨ a = 0x064 ∨ 0x080 ≤ a.toNat) →
      hostRead a s = (.read 0 .ok, s) ∧ hostWrite a w s = (.write .ok, s)

/-- 60_exceptions.md R270: a CMD write that is not held is dropped without a trace while FATAL, and else
makes its word pending and sets BUSY. -/
def Obligations.CmdWriteIsAcceptedOrDropped : Prop :=
  ∀ (s : State) (w : Word), hostWrite 0x010 w s =
    (.write .ok, if s.fatal then s else { s with pend := w, busy := true })

/-- 70_reset_and_hazards.md R320, 20_memory.md R80: while BUSY = 1 the host's next transaction is held,
unless it goes to ID, PARAM0 to PARAM2, STATUS or IRQ_EN, and a held one stays held; once BUSY = 0 it
takes effect with its normal response; with BUSY = 0 and nothing held the next transaction takes effect
at once. To take effect is to read or write and to give the host the response. A step on the host's turn
is its move. Not R320's but the model's: that a held transaction takes effect on the host's first turn
after the block step, where R320 says as if issued at that moment (DESIGN CHOICE, log 22); that a CMD
write is held while BUSY = 1 with FATAL = 1 too, which no run reaches (DEDUCED, log 10); and the host's
queue, WAIT in it (30_encoding.md R128), the idle move and the turns (logs 2, 19, 4 and 3). -/
def Obligations.BusyHoldsTheHostsTransactions : Prop :=
  ∀ (s : State) (t : Txn) (rest : List HostOp),
    (s.busy = true → s.held = none → s.hostQueue = .txn t :: rest →
      txnAddr t ∉ [0x000, 0x004, 0x008, 0x00C, 0x014, 0x018] →
      hostMove s = { s with held := some t, hostQueue := rest })
    ∧ (s.busy = true → s.held = none → s.hostQueue = .txn t :: rest →
      txnAddr t ∈ [0x000, 0x004, 0x008, 0x00C, 0x014, 0x018] →
      hostMove s = finish t { s with hostQueue := rest })
    ∧ (s.busy = true → s.held = some t → hostMove s = s)
    ∧ (s.busy = false → s.held = some t → hostMove s = finish t { s with held := none })
    ∧ (s.busy = false → s.held = none → s.hostQueue = .txn t :: rest →
      hostMove s = finish t { s with hostQueue := rest })
    ∧ (s.held = none → s.hostQueue = .wait :: rest →
      hostMove s = finish (.read 0x014) (if s.busy then s else { s with hostQueue := rest }))
    ∧ (s.held = none → s.hostQueue = [] → hostMove s = s)
    ∧ finish t s = { (transact t s).2 with responses := s.responses ++ [(transact t s).1] }
    ∧ (∀ a, transact (.read a) s = hostRead a s) ∧ (∀ a w, transact (.write a w) s = hostWrite a w s)
    ∧ (whoMoves s = .host → step s = .next (hostMove { s with turns := s.turns.tail }))
    ∧ (∀ g gs, s.turns = g :: gs → whoMoves s = g)
    ∧ (s.turns = [] → whoMoves s = if s.busy then .block else .host)

/-- 20_memory.md R81: a misaligned transaction ends with ERROR, read data 0 and no effect, whatever its
region. -/
def Obligations.MisalignedTransactionsEndWithError : Prop :=
  ∀ (s : State) (a : Addr) (w : Word), a.toNat % 4 ≠ 0 →
    hostRead a s = (.read 0 .error, s) ∧ hostWrite a w s = (.write .error, s)

/-- 20_memory.md R82: the unmapped ranges, and the entries and bytes past the instance's sizes, end with
ERROR and have no effect. -/
def Obligations.UnmappedTransactionsEndWithError : Prop :=
  ∀ (s : State) (a : Addr) (w : Word),
    (0x03000 ≤ a.toNat ∧ a.toNat < 0x10000 ∨ 0x30000 ≤ a.toNat
      ∨ (0x01000 ≤ a.toNat ∧ a.toNat < 0x02000 ∧ s.params.cap ≤ (a.toNat - 0x01000) / 8)
      ∨ (0x02000 ≤ a.toNat ∧ a.toNat < 0x03000 ∧ s.params.cap ≤ (a.toNat - 0x02000) / 8)
      ∨ (0x10000 ≤ a.toNat ∧ a.toNat < 0x20000 ∧ s.params.ibufEntries ≤ (a.toNat - 0x10000) / 8)
      ∨ (0x20000 ≤ a.toNat ∧ a.toNat < 0x30000 ∧ s.params.obufBytes ≤ a.toNat - 0x20000 + 3)) →
    hostRead a s = (.read 0 .error, s) ∧ hostWrite a w s = (.write .error, s)

/-- 20_memory.md R82, R83: the windows show the live halves of COEF[k] and HIST[k], and a write to either
half is ignored with an OK response. -/
def Obligations.WindowsShowCoefAndHist : Prop :=
  ∀ (s : State) (k : Nat) (w : Word), s.params.wf = true → k < s.params.cap →
    hostRead (BitVec.ofNat 18 (0x01000 + 8 * k)) s =
      (.read ((fileRead s.coef k).extractLsb' 0 32) .ok, s)
    ∧ hostRead (BitVec.ofNat 18 (0x01000 + 8 * k + 4)) s =
      (.read ((fileRead s.coef k).extractLsb' 32 32) .ok, s)
    ∧ hostRead (BitVec.ofNat 18 (0x02000 + 8 * k)) s =
      (.read ((fileRead s.hist k).extractLsb' 0 32) .ok, s)
    ∧ hostRead (BitVec.ofNat 18 (0x02000 + 8 * k + 4)) s =
      (.read ((fileRead s.hist k).extractLsb' 32 32) .ok, s)
    ∧ hostWrite (BitVec.ofNat 18 (0x01000 + 8 * k)) w s = (.write .ok, s)
    ∧ hostWrite (BitVec.ofNat 18 (0x01000 + 8 * k + 4)) w s = (.write .ok, s)
    ∧ hostWrite (BitVec.ofNat 18 (0x02000 + 8 * k)) w s = (.write .ok, s)
    ∧ hostWrite (BitVec.ofNat 18 (0x02000 + 8 * k + 4)) w s = (.write .ok, s)

/-- 20_memory.md R84, R85: an IBUF entry whose two halves the host has written reads as the binary64
with the high half at the higher address, whatever was there before. -/
def Obligations.IbufEntryIsItsTwoHalves : Prop :=
  ∀ (s : State) (i : Nat) (lo hi : Word), s.params.wf = true → i < s.params.ibufEntries →
    let s1 := (hostWrite (BitVec.ofNat 18 (0x10000 + 8 * i)) lo s).2
    let s2 := (hostWrite (BitVec.ofNat 18 (0x10000 + 8 * i + 4)) hi s1).2
    ibufRead s2.mem i = some (hi ++ lo)

/-- 20_memory.md R82, R86, R90, R93: an aligned address in range of IBUF or OBUF. A write gets OK, reads
back, sets the four bytes with the low one at the low address, and changes nothing else; a read gets OK
and changes nothing but the model's count of free bytes (log 7), and where the four bytes have been
written it is `{byte a+3, byte a+2, byte a+1, byte a}` and changes nothing. -/
def Obligations.BufferWordReadsBackAsWritten : Prop :=
  ∀ (s : State) (a : Addr) (w : Word), a.toNat % 4 = 0 →
    (0x10000 ≤ a.toNat ∧ a.toNat < 0x20000 ∧ (a.toNat - 0x10000) / 8 < s.params.ibufEntries
      ∨ 0x20000 ≤ a.toNat ∧ a.toNat < 0x30000 ∧ a.toNat - 0x20000 + 3 < s.params.obufBytes) →
    (∃ t, hostWrite a w s = (.write .ok, t) ∧ hostRead a t = (.read w .ok, t)
      ∧ t = { s with mem := t.mem }
      ∧ (∀ j < 4, memByte t.mem (a.toNat + j) = some (w.extractLsb' (8 * j) 8))
      ∧ ∀ c, (c < a.toNat ∨ a.toNat + 4 ≤ c) → memByte t.mem c = memByte s.mem c)
    ∧ (∃ v n, hostRead a s = (.read v .ok, { s with freeCount := n }))
    ∧ ∀ b0 b1 b2 b3 : Byte, memByte s.mem a.toNat = some b0 → memByte s.mem (a.toNat + 1) = some b1 →
      memByte s.mem (a.toNat + 2) = some b2 → memByte s.mem (a.toNat + 3) = some b3 →
      hostRead a s = (.read (b3 ++ b2 ++ b1 ++ b0) .ok, s)

/-- 20_memory.md R91: a host read changes nothing, but for the model's own count of free bytes. -/
def Obligations.HostReadsHaveNoSideEffect : Prop :=
  ∀ (s : State) (a : Addr), (hostRead a s).2 = { s with freeCount := (hostRead a s).2.freeCount }

/-! ### Rules of the whole machine -/

/-- 10_state.md R32: no host transaction writes a session register, COEF, HIST, ERR_INFO or the
parameters; it clears DONE, ERR, WARN and NAN at most, and never FATAL. -/
def Obligations.TransactionsNeverWriteTheSession : Prop :=
  ∀ (t : Txn) (s s' : State), (transact t s).2 = s' →
    s'.sMethod = s.sMethod ∧ s'.sFmt = s.sFmt ∧ s'.sTaps = s.sTaps ∧ s'.sPos = s.sPos
    ∧ s'.sSeed = s.sSeed ∧ s'.sRatio = s.sRatio ∧ s'.sScale = s.sScale
    ∧ s'.sInvScale = s.sInvScale ∧ s'.coef = s.coef ∧ s'.hist = s.hist
    ∧ s'.errInfo = s.errInfo ∧ s'.params = s.params ∧ s'.fatal = s.fatal
    ∧ (s'.done = true → s.done = true) ∧ (s'.err = true → s.err = true)
    ∧ (s'.warn = true → s.warn = true) ∧ (s'.nan = true → s.nan = true)

/-- 10_state.md R32: no command writes CFG_*, LEN, IN_BASE, OUT_BASE, IRQ_EN or the parameters, nor
anything of the host's side. -/
def Obligations.CommandsNeverWriteTheHostsRegisters : Prop :=
  ∀ (i : Instr) (s t : State), exec i s = .next t →
    t.cfgMethod = s.cfgMethod ∧ t.cfgFmt = s.cfgFmt ∧ t.cfgRate = s.cfgRate
    ∧ t.cfgSeed = s.cfgSeed ∧ t.cfgStrengthLo = s.cfgStrengthLo
    ∧ t.cfgStrengthHi = s.cfgStrengthHi ∧ t.len = s.len ∧ t.inBase = s.inBase
    ∧ t.outBase = s.outBase ∧ t.irqEn = s.irqEn ∧ t.params = s.params
    ∧ t.pend = s.pend ∧ t.busy = s.busy ∧ t.held = s.held ∧ t.hostQueue = s.hostQueue
    ∧ t.responses = s.responses ∧ t.turns = s.turns ∧ t.freeCount = s.freeCount

/-- 10_state.md R32: FILL and QUANT write no session register but SEED, and QUANT also POS and HIST. -/
def Obligations.OnlyInitWritesTheSessionSetup : Prop :=
  ∀ (i : Instr) (s t : State), i ≠ .init → exec i s = .next t →
    t.sMethod = s.sMethod ∧ t.sFmt = s.sFmt ∧ t.sTaps = s.sTaps ∧ t.sRatio = s.sRatio
    ∧ t.sScale = s.sScale ∧ t.sInvScale = s.sInvScale ∧ t.coef = s.coef ∧ t.warn = s.warn
    ∧ ((∀ rep, i ≠ quantInstr rep) → t.sPos = s.sPos ∧ t.hist = s.hist)

/-- 20_memory.md R91, R86: no command writes IBUF: every byte below OBUF stays, in every outcome. -/
def Obligations.NoCommandWritesIbuf : Prop :=
  ∀ (i : Instr) (s t : State), exec i s = .next t →
    ∀ a < 0x20000, memByte t.mem a = memByte s.mem a

/-- 60_exceptions.md R275, R279: FATAL is left only by reset: while it is set and no command is pending,
a step of the host or the block keeps FATAL, BUSY = 0, every session register, COEF, HIST and ERR_INFO.
(A host write to OBUF works as usual then, and is none of this.) -/
def Obligations.FatalIsLeftOnlyByReset : Prop :=
  ∀ s t : State, s.fatal = true → s.busy = false → whoMoves s ≠ .platform → step s = .next t →
    t.fatal = true ∧ t.busy = false
    ∧ t.sMethod = s.sMethod ∧ t.sFmt = s.sFmt ∧ t.sTaps = s.sTaps ∧ t.sPos = s.sPos
    ∧ t.sSeed = s.sSeed ∧ t.sRatio = s.sRatio ∧ t.sScale = s.sScale ∧ t.sInvScale = s.sInvScale
    ∧ t.coef = s.coef ∧ t.hist = s.hist ∧ t.errInfo = s.errInfo

/-- 60_exceptions.md R272, R275: a command sets FATAL only if it is a FILL or a QUANT and S_METHOD is
not valid, and then it only reports; in a state that keeps the invariant S_METHOD is then 0xFF. -/
def Obligations.FatalComesOnlyFromAnInvalidMethod : Prop :=
  ∀ (i : Instr) (s t : State), s.fatal = false → exec i s = .next t → t.fatal = true →
    (∃ rep, i = fillInstr rep ∨ i = quantInstr rep)
    ∧ 1 + s.params.numNs < s.sMethod.toNat
    ∧ t = { s with
        err := true, errCode := .fatal, errInfo := s.pend, fatal := true, done := true }
    ∧ (s.Inv → s.sMethod = 0xFF)
end

