-- ==== Sys2Proof/Laws/Memory.lean ====
section
/-! SUPPORT. The laws of buffer memory: read after write, what a write leaves alone, and the canonical form kept by every write. -/

namespace Sys2Proof.Machine

@[simp] theorem memByte_nil (a : Nat) : memByte [] a = none := rfl

/-- A byte read after one byte is set: the new byte there, the old one everywhere else. -/
theorem memByte_memSet (m : Mem) (a : Nat) (v : Byte) (b : Nat) :
    memByte (memSet m a v) b = if b = a then some v else memByte m b := by
  induction m with
  | nil => by_cases h : b = a <;> simp [memSet, memByte, h]
  | cons x m ih =>
    obtain ⟨c, w⟩ := x
    by_cases h1 : a < c
    · by_cases h : b = a <;> simp [memSet, memByte, h1, h]
    · by_cases h2 : a = c
      · subst h2
        by_cases h : b = a <;> simp [memSet, memByte, h]
      · simp only [memSet, h1, h2, if_false, memByte, ih]
        by_cases h3 : b = c
        · have : b ≠ a := by omega
          simp [h3, Ne.symm h2]
        · simp [h3]

/-- A byte read after n bytes are written: byte b - a of the value inside, the old byte outside. -/
theorem memByte_memWrite (m : Mem) (a n v b : Nat) :
    memByte (memWrite m a n v) b =
      if a ≤ b ∧ b < a + n then some (BitVec.ofNat 8 (v / 256 ^ (b - a))) else memByte m b := by
  induction n generalizing m a v with
  | zero => simp [memWrite]
  | succ n ih =>
    rw [memWrite, ih, memByte_memSet]
    by_cases h : b = a
    · subst h
      simp
    · by_cases h1 : a + 1 ≤ b ∧ b < a + 1 + n
      · have h2 : a ≤ b ∧ b < a + (n + 1) := by omega
        have h3 : b - a = (b - (a + 1)) + 1 := by omega
        rw [if_pos h1, if_pos h2, Nat.div_div_eq_div_mul, h3, Nat.pow_succ, Nat.mul_comm 256]
      · have h2 : ¬ (a ≤ b ∧ b < a + (n + 1)) := by omega
        rw [if_neg h1, if_neg h2, if_neg h]

theorem memByte_memWrite_inside {m : Mem} {a n v b : Nat} (h1 : a ≤ b) (h2 : b < a + n) :
    memByte (memWrite m a n v) b = some (BitVec.ofNat 8 (v / 256 ^ (b - a))) := by
  rw [memByte_memWrite, if_pos ⟨h1, h2⟩]

theorem memByte_memWrite_outside {m : Mem} {a n v b : Nat} (h : b < a ∨ a + n ≤ b) :
    memByte (memWrite m a n v) b = memByte m b := by
  rw [memByte_memWrite, if_neg (by omega)]

/-- In canonical form every later address is larger than the head's. -/
theorem wf_cons_iff (x : Host.Cell) (m : Mem) :
    Mem.wf (x :: m) = true ↔ (∀ y ∈ m, x.1 < y.1) ∧ Mem.wf m = true := by
  induction m generalizing x with
  | nil => simp [Mem.wf]
  | cons y m ih =>
    simp only [Mem.wf, Bool.and_eq_true, decide_eq_true_eq, List.mem_cons, forall_eq_or_imp]
    constructor
    · rintro ⟨h, hw⟩
      exact ⟨⟨h, fun z hz => Nat.lt_trans h (((ih y).1 hw).1 z hz)⟩, hw⟩
    · rintro ⟨⟨h, _⟩, hw⟩
      exact ⟨h, hw⟩

/-- Which cells a memory can list after one byte is set. -/
theorem mem_memSet {m : Mem} {a : Nat} {v : Byte} {y : Host.Cell} (h : y ∈ memSet m a v) :
    y = (a, v) ∨ y ∈ m := by
  induction m with
  | nil => simpa [memSet] using h
  | cons x m ih =>
    obtain ⟨c, w⟩ := x
    simp only [memSet] at h
    split at h
    · simpa using h
    · split at h
      · rcases List.mem_cons.1 h with h | h
        · exact .inl h
        · exact .inr (List.mem_cons_of_mem _ h)
      · rcases List.mem_cons.1 h with h | h
        · exact .inr (h ▸ List.mem_cons_self ..)
        · rcases ih h with h | h
          · exact .inl h
          · exact .inr (List.mem_cons_of_mem _ h)

/-- Setting a byte keeps the canonical form. -/
theorem memSet_wf {m : Mem} (h : m.wf = true) (a : Nat) (v : Byte) : (memSet m a v).wf = true := by
  induction m with
  | nil => rfl
  | cons x m ih =>
    obtain ⟨c, w⟩ := x
    have hx := (wf_cons_iff _ _).1 h
    simp only [memSet]
    split
    · next hac => exact (wf_cons_iff _ _).2 ⟨by
        intro y hy
        rcases List.mem_cons.1 hy with rfl | hy
        · exact hac
        · exact Nat.lt_trans hac (hx.1 y hy), h⟩
    · split
      · next hac => subst hac; exact (wf_cons_iff _ _).2 hx
      · refine (wf_cons_iff _ _).2 ⟨fun y hy => ?_, ih hx.2⟩
        rcases mem_memSet hy with rfl | hy
        · show c < a; omega
        · exact hx.1 y hy

/-- Writing bytes keeps the canonical form. -/
theorem memWrite_wf {m : Mem} (h : m.wf = true) (a n v : Nat) : (memWrite m a n v).wf = true := by
  induction n generalizing m a v with
  | zero => exact h
  | succ n ih => exact ih (memSet_wf h _ _) _ _

/-- MemRead looks at its bytes only. -/
theorem memRead_congr {m m' : Mem} {a n : Nat}
    (h : ∀ b, a ≤ b → b < a + n → memByte m b = memByte m' b) : memRead m a n = memRead m' a n := by
  induction n generalizing a with
  | zero => rfl
  | succ n ih =>
    rw [memRead, memRead, h a (by omega) (by omega),
      ih fun b h1 h2 => h b (by omega) (by omega)]

/-- MemRead after MemWrite of the same bytes gives the value back (20_memory.md R86). -/
theorem memRead_memWrite (m : Mem) (a n v : Nat) :
    memRead (memWrite m a n v) a n = some (v % 256 ^ n) := by
  induction n generalizing m a v with
  | zero => simp [memRead, Nat.mod_one]
  | succ n ih =>
    have h : memByte (memWrite m a (n + 1) v) a = some (BitVec.ofNat 8 v) := by
      rw [memByte_memWrite_inside (Nat.le_refl _) (by omega)]; simp
    rw [memRead, h, memWrite, ih]
    simp only [BitVec.toNat_ofNat, Option.some.injEq]
    show v % 256 + 256 * (v / 256 % 256 ^ n) = v % 256 ^ (n + 1)
    rw [Nat.pow_succ, Nat.mul_comm (256 ^ n) 256, Nat.mod_mul]

end Sys2Proof.Machine
end

