-- ==== Sys2Proof/Laws/State.lean ====
section
/-! SUPPORT. One lemma per field per update of State, true by rfl, so that no later proof unfolds a record update. -/

namespace Sys2Proof.Machine

/-! ### DONE is set (60_exceptions.md R271) -/

@[simp] theorem complete_params (s : State) : (complete s).params = s.params := rfl
@[simp] theorem complete_pend (s : State) : (complete s).pend = s.pend := rfl
@[simp] theorem complete_busy (s : State) : (complete s).busy = s.busy := rfl
@[simp] theorem complete_done (s : State) : (complete s).done = true := rfl
@[simp] theorem complete_err (s : State) : (complete s).err = s.err := rfl
@[simp] theorem complete_warn (s : State) : (complete s).warn = s.warn := rfl
@[simp] theorem complete_nan (s : State) : (complete s).nan = s.nan := rfl
@[simp] theorem complete_fatal (s : State) : (complete s).fatal = s.fatal := rfl
@[simp] theorem complete_errCode (s : State) : (complete s).errCode = s.errCode := rfl
@[simp] theorem complete_irqEn (s : State) : (complete s).irqEn = s.irqEn := rfl
@[simp] theorem complete_errInfo (s : State) : (complete s).errInfo = s.errInfo := rfl
@[simp] theorem complete_len (s : State) : (complete s).len = s.len := rfl
@[simp] theorem complete_inBase (s : State) : (complete s).inBase = s.inBase := rfl
@[simp] theorem complete_outBase (s : State) : (complete s).outBase = s.outBase := rfl
@[simp] theorem complete_cfgMethod (s : State) : (complete s).cfgMethod = s.cfgMethod := rfl
@[simp] theorem complete_cfgFmt (s : State) : (complete s).cfgFmt = s.cfgFmt := rfl
@[simp] theorem complete_cfgRate (s : State) : (complete s).cfgRate = s.cfgRate := rfl
@[simp] theorem complete_cfgSeed (s : State) : (complete s).cfgSeed = s.cfgSeed := rfl
@[simp] theorem complete_cfgStrengthLo (s : State) : (complete s).cfgStrengthLo = s.cfgStrengthLo := rfl
@[simp] theorem complete_cfgStrengthHi (s : State) : (complete s).cfgStrengthHi = s.cfgStrengthHi := rfl
@[simp] theorem complete_sMethod (s : State) : (complete s).sMethod = s.sMethod := rfl
@[simp] theorem complete_sFmt (s : State) : (complete s).sFmt = s.sFmt := rfl
@[simp] theorem complete_sTaps (s : State) : (complete s).sTaps = s.sTaps := rfl
@[simp] theorem complete_sPos (s : State) : (complete s).sPos = s.sPos := rfl
@[simp] theorem complete_sSeed (s : State) : (complete s).sSeed = s.sSeed := rfl
@[simp] theorem complete_sRatio (s : State) : (complete s).sRatio = s.sRatio := rfl
@[simp] theorem complete_sScale (s : State) : (complete s).sScale = s.sScale := rfl
@[simp] theorem complete_sInvScale (s : State) : (complete s).sInvScale = s.sInvScale := rfl
@[simp] theorem complete_coef (s : State) : (complete s).coef = s.coef := rfl
@[simp] theorem complete_hist (s : State) : (complete s).hist = s.hist := rfl
@[simp] theorem complete_mem (s : State) : (complete s).mem = s.mem := rfl
@[simp] theorem complete_held (s : State) : (complete s).held = s.held := rfl
@[simp] theorem complete_hostQueue (s : State) : (complete s).hostQueue = s.hostQueue := rfl
@[simp] theorem complete_responses (s : State) : (complete s).responses = s.responses := rfl
@[simp] theorem complete_turns (s : State) : (complete s).turns = s.turns := rfl
@[simp] theorem complete_freeCount (s : State) : (complete s).freeCount = s.freeCount := rfl

/-! ### An error is recorded (60_exceptions.md R273) -/

@[simp] theorem raiseErr_params (code : ErrCode) (s : State) : (raiseErr code s).params = s.params := rfl
@[simp] theorem raiseErr_pend (code : ErrCode) (s : State) : (raiseErr code s).pend = s.pend := rfl
@[simp] theorem raiseErr_busy (code : ErrCode) (s : State) : (raiseErr code s).busy = s.busy := rfl
@[simp] theorem raiseErr_done (code : ErrCode) (s : State) : (raiseErr code s).done = true := rfl
@[simp] theorem raiseErr_err (code : ErrCode) (s : State) : (raiseErr code s).err = true := rfl
@[simp] theorem raiseErr_warn (code : ErrCode) (s : State) : (raiseErr code s).warn = s.warn := rfl
@[simp] theorem raiseErr_nan (code : ErrCode) (s : State) : (raiseErr code s).nan = s.nan := rfl
@[simp] theorem raiseErr_fatal (code : ErrCode) (s : State) : (raiseErr code s).fatal = s.fatal := rfl
@[simp] theorem raiseErr_errCode (code : ErrCode) (s : State) : (raiseErr code s).errCode = code := rfl
@[simp] theorem raiseErr_irqEn (code : ErrCode) (s : State) : (raiseErr code s).irqEn = s.irqEn := rfl
@[simp] theorem raiseErr_errInfo (code : ErrCode) (s : State) : (raiseErr code s).errInfo = s.pend := rfl
@[simp] theorem raiseErr_len (code : ErrCode) (s : State) : (raiseErr code s).len = s.len := rfl
@[simp] theorem raiseErr_inBase (code : ErrCode) (s : State) : (raiseErr code s).inBase = s.inBase := rfl
@[simp] theorem raiseErr_outBase (code : ErrCode) (s : State) : (raiseErr code s).outBase = s.outBase := rfl
@[simp] theorem raiseErr_cfgMethod (code : ErrCode) (s : State) : (raiseErr code s).cfgMethod = s.cfgMethod := rfl
@[simp] theorem raiseErr_cfgFmt (code : ErrCode) (s : State) : (raiseErr code s).cfgFmt = s.cfgFmt := rfl
@[simp] theorem raiseErr_cfgRate (code : ErrCode) (s : State) : (raiseErr code s).cfgRate = s.cfgRate := rfl
@[simp] theorem raiseErr_cfgSeed (code : ErrCode) (s : State) : (raiseErr code s).cfgSeed = s.cfgSeed := rfl
@[simp] theorem raiseErr_cfgStrengthLo (code : ErrCode) (s : State) : (raiseErr code s).cfgStrengthLo = s.cfgStrengthLo := rfl
@[simp] theorem raiseErr_cfgStrengthHi (code : ErrCode) (s : State) : (raiseErr code s).cfgStrengthHi = s.cfgStrengthHi := rfl
@[simp] theorem raiseErr_sMethod (code : ErrCode) (s : State) : (raiseErr code s).sMethod = s.sMethod := rfl
@[simp] theorem raiseErr_sFmt (code : ErrCode) (s : State) : (raiseErr code s).sFmt = s.sFmt := rfl
@[simp] theorem raiseErr_sTaps (code : ErrCode) (s : State) : (raiseErr code s).sTaps = s.sTaps := rfl
@[simp] theorem raiseErr_sPos (code : ErrCode) (s : State) : (raiseErr code s).sPos = s.sPos := rfl
@[simp] theorem raiseErr_sSeed (code : ErrCode) (s : State) : (raiseErr code s).sSeed = s.sSeed := rfl
@[simp] theorem raiseErr_sRatio (code : ErrCode) (s : State) : (raiseErr code s).sRatio = s.sRatio := rfl
@[simp] theorem raiseErr_sScale (code : ErrCode) (s : State) : (raiseErr code s).sScale = s.sScale := rfl
@[simp] theorem raiseErr_sInvScale (code : ErrCode) (s : State) : (raiseErr code s).sInvScale = s.sInvScale := rfl
@[simp] theorem raiseErr_coef (code : ErrCode) (s : State) : (raiseErr code s).coef = s.coef := rfl
@[simp] theorem raiseErr_hist (code : ErrCode) (s : State) : (raiseErr code s).hist = s.hist := rfl
@[simp] theorem raiseErr_mem (code : ErrCode) (s : State) : (raiseErr code s).mem = s.mem := rfl
@[simp] theorem raiseErr_held (code : ErrCode) (s : State) : (raiseErr code s).held = s.held := rfl
@[simp] theorem raiseErr_hostQueue (code : ErrCode) (s : State) : (raiseErr code s).hostQueue = s.hostQueue := rfl
@[simp] theorem raiseErr_responses (code : ErrCode) (s : State) : (raiseErr code s).responses = s.responses := rfl
@[simp] theorem raiseErr_turns (code : ErrCode) (s : State) : (raiseErr code s).turns = s.turns := rfl
@[simp] theorem raiseErr_freeCount (code : ErrCode) (s : State) : (raiseErr code s).freeCount = s.freeCount := rfl

/-! ### The fatal fault is recorded (60_exceptions.md R275) -/

@[simp] theorem raiseFatal_params (s : State) : (raiseFatal s).params = s.params := rfl
@[simp] theorem raiseFatal_pend (s : State) : (raiseFatal s).pend = s.pend := rfl
@[simp] theorem raiseFatal_busy (s : State) : (raiseFatal s).busy = s.busy := rfl
@[simp] theorem raiseFatal_done (s : State) : (raiseFatal s).done = true := rfl
@[simp] theorem raiseFatal_err (s : State) : (raiseFatal s).err = true := rfl
@[simp] theorem raiseFatal_warn (s : State) : (raiseFatal s).warn = s.warn := rfl
@[simp] theorem raiseFatal_nan (s : State) : (raiseFatal s).nan = s.nan := rfl
@[simp] theorem raiseFatal_fatal (s : State) : (raiseFatal s).fatal = true := rfl
@[simp] theorem raiseFatal_errCode (s : State) : (raiseFatal s).errCode = .fatal := rfl
@[simp] theorem raiseFatal_irqEn (s : State) : (raiseFatal s).irqEn = s.irqEn := rfl
@[simp] theorem raiseFatal_errInfo (s : State) : (raiseFatal s).errInfo = s.pend := rfl
@[simp] theorem raiseFatal_len (s : State) : (raiseFatal s).len = s.len := rfl
@[simp] theorem raiseFatal_inBase (s : State) : (raiseFatal s).inBase = s.inBase := rfl
@[simp] theorem raiseFatal_outBase (s : State) : (raiseFatal s).outBase = s.outBase := rfl
@[simp] theorem raiseFatal_cfgMethod (s : State) : (raiseFatal s).cfgMethod = s.cfgMethod := rfl
@[simp] theorem raiseFatal_cfgFmt (s : State) : (raiseFatal s).cfgFmt = s.cfgFmt := rfl
@[simp] theorem raiseFatal_cfgRate (s : State) : (raiseFatal s).cfgRate = s.cfgRate := rfl
@[simp] theorem raiseFatal_cfgSeed (s : State) : (raiseFatal s).cfgSeed = s.cfgSeed := rfl
@[simp] theorem raiseFatal_cfgStrengthLo (s : State) : (raiseFatal s).cfgStrengthLo = s.cfgStrengthLo := rfl
@[simp] theorem raiseFatal_cfgStrengthHi (s : State) : (raiseFatal s).cfgStrengthHi = s.cfgStrengthHi := rfl
@[simp] theorem raiseFatal_sMethod (s : State) : (raiseFatal s).sMethod = s.sMethod := rfl
@[simp] theorem raiseFatal_sFmt (s : State) : (raiseFatal s).sFmt = s.sFmt := rfl
@[simp] theorem raiseFatal_sTaps (s : State) : (raiseFatal s).sTaps = s.sTaps := rfl
@[simp] theorem raiseFatal_sPos (s : State) : (raiseFatal s).sPos = s.sPos := rfl
@[simp] theorem raiseFatal_sSeed (s : State) : (raiseFatal s).sSeed = s.sSeed := rfl
@[simp] theorem raiseFatal_sRatio (s : State) : (raiseFatal s).sRatio = s.sRatio := rfl
@[simp] theorem raiseFatal_sScale (s : State) : (raiseFatal s).sScale = s.sScale := rfl
@[simp] theorem raiseFatal_sInvScale (s : State) : (raiseFatal s).sInvScale = s.sInvScale := rfl
@[simp] theorem raiseFatal_coef (s : State) : (raiseFatal s).coef = s.coef := rfl
@[simp] theorem raiseFatal_hist (s : State) : (raiseFatal s).hist = s.hist := rfl
@[simp] theorem raiseFatal_mem (s : State) : (raiseFatal s).mem = s.mem := rfl
@[simp] theorem raiseFatal_held (s : State) : (raiseFatal s).held = s.held := rfl
@[simp] theorem raiseFatal_hostQueue (s : State) : (raiseFatal s).hostQueue = s.hostQueue := rfl
@[simp] theorem raiseFatal_responses (s : State) : (raiseFatal s).responses = s.responses := rfl
@[simp] theorem raiseFatal_turns (s : State) : (raiseFatal s).turns = s.turns := rfl
@[simp] theorem raiseFatal_freeCount (s : State) : (raiseFatal s).freeCount = s.freeCount := rfl

/-! ### BUSY is cleared (60_exceptions.md R270) -/

@[simp] theorem release_params (s : State) : (release s).params = s.params := rfl
@[simp] theorem release_pend (s : State) : (release s).pend = s.pend := rfl
@[simp] theorem release_busy (s : State) : (release s).busy = false := rfl
@[simp] theorem release_done (s : State) : (release s).done = s.done := rfl
@[simp] theorem release_err (s : State) : (release s).err = s.err := rfl
@[simp] theorem release_warn (s : State) : (release s).warn = s.warn := rfl
@[simp] theorem release_nan (s : State) : (release s).nan = s.nan := rfl
@[simp] theorem release_fatal (s : State) : (release s).fatal = s.fatal := rfl
@[simp] theorem release_errCode (s : State) : (release s).errCode = s.errCode := rfl
@[simp] theorem release_irqEn (s : State) : (release s).irqEn = s.irqEn := rfl
@[simp] theorem release_errInfo (s : State) : (release s).errInfo = s.errInfo := rfl
@[simp] theorem release_len (s : State) : (release s).len = s.len := rfl
@[simp] theorem release_inBase (s : State) : (release s).inBase = s.inBase := rfl
@[simp] theorem release_outBase (s : State) : (release s).outBase = s.outBase := rfl
@[simp] theorem release_cfgMethod (s : State) : (release s).cfgMethod = s.cfgMethod := rfl
@[simp] theorem release_cfgFmt (s : State) : (release s).cfgFmt = s.cfgFmt := rfl
@[simp] theorem release_cfgRate (s : State) : (release s).cfgRate = s.cfgRate := rfl
@[simp] theorem release_cfgSeed (s : State) : (release s).cfgSeed = s.cfgSeed := rfl
@[simp] theorem release_cfgStrengthLo (s : State) : (release s).cfgStrengthLo = s.cfgStrengthLo := rfl
@[simp] theorem release_cfgStrengthHi (s : State) : (release s).cfgStrengthHi = s.cfgStrengthHi := rfl
@[simp] theorem release_sMethod (s : State) : (release s).sMethod = s.sMethod := rfl
@[simp] theorem release_sFmt (s : State) : (release s).sFmt = s.sFmt := rfl
@[simp] theorem release_sTaps (s : State) : (release s).sTaps = s.sTaps := rfl
@[simp] theorem release_sPos (s : State) : (release s).sPos = s.sPos := rfl
@[simp] theorem release_sSeed (s : State) : (release s).sSeed = s.sSeed := rfl
@[simp] theorem release_sRatio (s : State) : (release s).sRatio = s.sRatio := rfl
@[simp] theorem release_sScale (s : State) : (release s).sScale = s.sScale := rfl
@[simp] theorem release_sInvScale (s : State) : (release s).sInvScale = s.sInvScale := rfl
@[simp] theorem release_coef (s : State) : (release s).coef = s.coef := rfl
@[simp] theorem release_hist (s : State) : (release s).hist = s.hist := rfl
@[simp] theorem release_mem (s : State) : (release s).mem = s.mem := rfl
@[simp] theorem release_held (s : State) : (release s).held = s.held := rfl
@[simp] theorem release_hostQueue (s : State) : (release s).hostQueue = s.hostQueue := rfl
@[simp] theorem release_responses (s : State) : (release s).responses = s.responses := rfl
@[simp] theorem release_turns (s : State) : (release s).turns = s.turns := rfl
@[simp] theorem release_freeCount (s : State) : (release s).freeCount = s.freeCount := rfl

/-! ### A turn is taken (log 3) -/

@[simp] theorem takeTurn_params (s : State) : (takeTurn s).params = s.params := rfl
@[simp] theorem takeTurn_pend (s : State) : (takeTurn s).pend = s.pend := rfl
@[simp] theorem takeTurn_busy (s : State) : (takeTurn s).busy = s.busy := rfl
@[simp] theorem takeTurn_done (s : State) : (takeTurn s).done = s.done := rfl
@[simp] theorem takeTurn_err (s : State) : (takeTurn s).err = s.err := rfl
@[simp] theorem takeTurn_warn (s : State) : (takeTurn s).warn = s.warn := rfl
@[simp] theorem takeTurn_nan (s : State) : (takeTurn s).nan = s.nan := rfl
@[simp] theorem takeTurn_fatal (s : State) : (takeTurn s).fatal = s.fatal := rfl
@[simp] theorem takeTurn_errCode (s : State) : (takeTurn s).errCode = s.errCode := rfl
@[simp] theorem takeTurn_irqEn (s : State) : (takeTurn s).irqEn = s.irqEn := rfl
@[simp] theorem takeTurn_errInfo (s : State) : (takeTurn s).errInfo = s.errInfo := rfl
@[simp] theorem takeTurn_len (s : State) : (takeTurn s).len = s.len := rfl
@[simp] theorem takeTurn_inBase (s : State) : (takeTurn s).inBase = s.inBase := rfl
@[simp] theorem takeTurn_outBase (s : State) : (takeTurn s).outBase = s.outBase := rfl
@[simp] theorem takeTurn_cfgMethod (s : State) : (takeTurn s).cfgMethod = s.cfgMethod := rfl
@[simp] theorem takeTurn_cfgFmt (s : State) : (takeTurn s).cfgFmt = s.cfgFmt := rfl
@[simp] theorem takeTurn_cfgRate (s : State) : (takeTurn s).cfgRate = s.cfgRate := rfl
@[simp] theorem takeTurn_cfgSeed (s : State) : (takeTurn s).cfgSeed = s.cfgSeed := rfl
@[simp] theorem takeTurn_cfgStrengthLo (s : State) : (takeTurn s).cfgStrengthLo = s.cfgStrengthLo := rfl
@[simp] theorem takeTurn_cfgStrengthHi (s : State) : (takeTurn s).cfgStrengthHi = s.cfgStrengthHi := rfl
@[simp] theorem takeTurn_sMethod (s : State) : (takeTurn s).sMethod = s.sMethod := rfl
@[simp] theorem takeTurn_sFmt (s : State) : (takeTurn s).sFmt = s.sFmt := rfl
@[simp] theorem takeTurn_sTaps (s : State) : (takeTurn s).sTaps = s.sTaps := rfl
@[simp] theorem takeTurn_sPos (s : State) : (takeTurn s).sPos = s.sPos := rfl
@[simp] theorem takeTurn_sSeed (s : State) : (takeTurn s).sSeed = s.sSeed := rfl
@[simp] theorem takeTurn_sRatio (s : State) : (takeTurn s).sRatio = s.sRatio := rfl
@[simp] theorem takeTurn_sScale (s : State) : (takeTurn s).sScale = s.sScale := rfl
@[simp] theorem takeTurn_sInvScale (s : State) : (takeTurn s).sInvScale = s.sInvScale := rfl
@[simp] theorem takeTurn_coef (s : State) : (takeTurn s).coef = s.coef := rfl
@[simp] theorem takeTurn_hist (s : State) : (takeTurn s).hist = s.hist := rfl
@[simp] theorem takeTurn_mem (s : State) : (takeTurn s).mem = s.mem := rfl
@[simp] theorem takeTurn_held (s : State) : (takeTurn s).held = s.held := rfl
@[simp] theorem takeTurn_hostQueue (s : State) : (takeTurn s).hostQueue = s.hostQueue := rfl
@[simp] theorem takeTurn_responses (s : State) : (takeTurn s).responses = s.responses := rfl
@[simp] theorem takeTurn_turns (s : State) : (takeTurn s).turns = s.turns.tail := rfl
@[simp] theorem takeTurn_freeCount (s : State) : (takeTurn s).freeCount = s.freeCount := rfl

/-! ### A response goes back (20_memory.md R80) -/

@[simp] theorem respond_params (r : Response) (s : State) : (respond r s).params = s.params := rfl
@[simp] theorem respond_pend (r : Response) (s : State) : (respond r s).pend = s.pend := rfl
@[simp] theorem respond_busy (r : Response) (s : State) : (respond r s).busy = s.busy := rfl
@[simp] theorem respond_done (r : Response) (s : State) : (respond r s).done = s.done := rfl
@[simp] theorem respond_err (r : Response) (s : State) : (respond r s).err = s.err := rfl
@[simp] theorem respond_warn (r : Response) (s : State) : (respond r s).warn = s.warn := rfl
@[simp] theorem respond_nan (r : Response) (s : State) : (respond r s).nan = s.nan := rfl
@[simp] theorem respond_fatal (r : Response) (s : State) : (respond r s).fatal = s.fatal := rfl
@[simp] theorem respond_errCode (r : Response) (s : State) : (respond r s).errCode = s.errCode := rfl
@[simp] theorem respond_irqEn (r : Response) (s : State) : (respond r s).irqEn = s.irqEn := rfl
@[simp] theorem respond_errInfo (r : Response) (s : State) : (respond r s).errInfo = s.errInfo := rfl
@[simp] theorem respond_len (r : Response) (s : State) : (respond r s).len = s.len := rfl
@[simp] theorem respond_inBase (r : Response) (s : State) : (respond r s).inBase = s.inBase := rfl
@[simp] theorem respond_outBase (r : Response) (s : State) : (respond r s).outBase = s.outBase := rfl
@[simp] theorem respond_cfgMethod (r : Response) (s : State) : (respond r s).cfgMethod = s.cfgMethod := rfl
@[simp] theorem respond_cfgFmt (r : Response) (s : State) : (respond r s).cfgFmt = s.cfgFmt := rfl
@[simp] theorem respond_cfgRate (r : Response) (s : State) : (respond r s).cfgRate = s.cfgRate := rfl
@[simp] theorem respond_cfgSeed (r : Response) (s : State) : (respond r s).cfgSeed = s.cfgSeed := rfl
@[simp] theorem respond_cfgStrengthLo (r : Response) (s : State) : (respond r s).cfgStrengthLo = s.cfgStrengthLo := rfl
@[simp] theorem respond_cfgStrengthHi (r : Response) (s : State) : (respond r s).cfgStrengthHi = s.cfgStrengthHi := rfl
@[simp] theorem respond_sMethod (r : Response) (s : State) : (respond r s).sMethod = s.sMethod := rfl
@[simp] theorem respond_sFmt (r : Response) (s : State) : (respond r s).sFmt = s.sFmt := rfl
@[simp] theorem respond_sTaps (r : Response) (s : State) : (respond r s).sTaps = s.sTaps := rfl
@[simp] theorem respond_sPos (r : Response) (s : State) : (respond r s).sPos = s.sPos := rfl
@[simp] theorem respond_sSeed (r : Response) (s : State) : (respond r s).sSeed = s.sSeed := rfl
@[simp] theorem respond_sRatio (r : Response) (s : State) : (respond r s).sRatio = s.sRatio := rfl
@[simp] theorem respond_sScale (r : Response) (s : State) : (respond r s).sScale = s.sScale := rfl
@[simp] theorem respond_sInvScale (r : Response) (s : State) : (respond r s).sInvScale = s.sInvScale := rfl
@[simp] theorem respond_coef (r : Response) (s : State) : (respond r s).coef = s.coef := rfl
@[simp] theorem respond_hist (r : Response) (s : State) : (respond r s).hist = s.hist := rfl
@[simp] theorem respond_mem (r : Response) (s : State) : (respond r s).mem = s.mem := rfl
@[simp] theorem respond_held (r : Response) (s : State) : (respond r s).held = s.held := rfl
@[simp] theorem respond_hostQueue (r : Response) (s : State) : (respond r s).hostQueue = s.hostQueue := rfl
@[simp] theorem respond_responses (r : Response) (s : State) : (respond r s).responses = s.responses ++ [r] := rfl
@[simp] theorem respond_turns (r : Response) (s : State) : (respond r s).turns = s.turns := rfl
@[simp] theorem respond_freeCount (r : Response) (s : State) : (respond r s).freeCount = s.freeCount := rfl

/-! ### The stream of a QUANT goes back into the state (43_quantize.md R235) -/

@[simp] theorem withStream_params (c : Stream) (s : State) : (withStream s c).params = s.params := rfl
@[simp] theorem withStream_pend (c : Stream) (s : State) : (withStream s c).pend = s.pend := rfl
@[simp] theorem withStream_busy (c : Stream) (s : State) : (withStream s c).busy = s.busy := rfl
@[simp] theorem withStream_done (c : Stream) (s : State) : (withStream s c).done = s.done := rfl
@[simp] theorem withStream_err (c : Stream) (s : State) : (withStream s c).err = s.err := rfl
@[simp] theorem withStream_warn (c : Stream) (s : State) : (withStream s c).warn = s.warn := rfl
@[simp] theorem withStream_nan (c : Stream) (s : State) : (withStream s c).nan = c.out.nan := rfl
@[simp] theorem withStream_fatal (c : Stream) (s : State) : (withStream s c).fatal = s.fatal := rfl
@[simp] theorem withStream_errCode (c : Stream) (s : State) : (withStream s c).errCode = s.errCode := rfl
@[simp] theorem withStream_irqEn (c : Stream) (s : State) : (withStream s c).irqEn = s.irqEn := rfl
@[simp] theorem withStream_errInfo (c : Stream) (s : State) : (withStream s c).errInfo = s.errInfo := rfl
@[simp] theorem withStream_len (c : Stream) (s : State) : (withStream s c).len = s.len := rfl
@[simp] theorem withStream_inBase (c : Stream) (s : State) : (withStream s c).inBase = s.inBase := rfl
@[simp] theorem withStream_outBase (c : Stream) (s : State) : (withStream s c).outBase = s.outBase := rfl
@[simp] theorem withStream_cfgMethod (c : Stream) (s : State) : (withStream s c).cfgMethod = s.cfgMethod := rfl
@[simp] theorem withStream_cfgFmt (c : Stream) (s : State) : (withStream s c).cfgFmt = s.cfgFmt := rfl
@[simp] theorem withStream_cfgRate (c : Stream) (s : State) : (withStream s c).cfgRate = s.cfgRate := rfl
@[simp] theorem withStream_cfgSeed (c : Stream) (s : State) : (withStream s c).cfgSeed = s.cfgSeed := rfl
@[simp] theorem withStream_cfgStrengthLo (c : Stream) (s : State) : (withStream s c).cfgStrengthLo = s.cfgStrengthLo := rfl
@[simp] theorem withStream_cfgStrengthHi (c : Stream) (s : State) : (withStream s c).cfgStrengthHi = s.cfgStrengthHi := rfl
@[simp] theorem withStream_sMethod (c : Stream) (s : State) : (withStream s c).sMethod = s.sMethod := rfl
@[simp] theorem withStream_sFmt (c : Stream) (s : State) : (withStream s c).sFmt = s.sFmt := rfl
@[simp] theorem withStream_sTaps (c : Stream) (s : State) : (withStream s c).sTaps = s.sTaps := rfl
@[simp] theorem withStream_sPos (c : Stream) (s : State) : (withStream s c).sPos = c.pos := rfl
@[simp] theorem withStream_sSeed (c : Stream) (s : State) : (withStream s c).sSeed = c.seed := rfl
@[simp] theorem withStream_sRatio (c : Stream) (s : State) : (withStream s c).sRatio = s.sRatio := rfl
@[simp] theorem withStream_sScale (c : Stream) (s : State) : (withStream s c).sScale = s.sScale := rfl
@[simp] theorem withStream_sInvScale (c : Stream) (s : State) : (withStream s c).sInvScale = s.sInvScale := rfl
@[simp] theorem withStream_coef (c : Stream) (s : State) : (withStream s c).coef = s.coef := rfl
@[simp] theorem withStream_hist (c : Stream) (s : State) : (withStream s c).hist = c.hist := rfl
@[simp] theorem withStream_mem (c : Stream) (s : State) : (withStream s c).mem = c.out.mem := rfl
@[simp] theorem withStream_held (c : Stream) (s : State) : (withStream s c).held = s.held := rfl
@[simp] theorem withStream_hostQueue (c : Stream) (s : State) : (withStream s c).hostQueue = s.hostQueue := rfl
@[simp] theorem withStream_responses (c : Stream) (s : State) : (withStream s c).responses = s.responses := rfl
@[simp] theorem withStream_turns (c : Stream) (s : State) : (withStream s c).turns = s.turns := rfl
@[simp] theorem withStream_freeCount (c : Stream) (s : State) : (withStream s c).freeCount = s.freeCount := rfl

/-! ### The session is cleared (40_catalog_and_init.md R155) -/

@[simp] theorem clearSession_params (s : State) : (clearSession s).params = s.params := rfl
@[simp] theorem clearSession_pend (s : State) : (clearSession s).pend = s.pend := rfl
@[simp] theorem clearSession_busy (s : State) : (clearSession s).busy = s.busy := rfl
@[simp] theorem clearSession_done (s : State) : (clearSession s).done = s.done := rfl
@[simp] theorem clearSession_err (s : State) : (clearSession s).err = s.err := rfl
@[simp] theorem clearSession_warn (s : State) : (clearSession s).warn = false := rfl
@[simp] theorem clearSession_nan (s : State) : (clearSession s).nan = false := rfl
@[simp] theorem clearSession_fatal (s : State) : (clearSession s).fatal = s.fatal := rfl
@[simp] theorem clearSession_errCode (s : State) : (clearSession s).errCode = s.errCode := rfl
@[simp] theorem clearSession_irqEn (s : State) : (clearSession s).irqEn = s.irqEn := rfl
@[simp] theorem clearSession_errInfo (s : State) : (clearSession s).errInfo = s.errInfo := rfl
@[simp] theorem clearSession_len (s : State) : (clearSession s).len = s.len := rfl
@[simp] theorem clearSession_inBase (s : State) : (clearSession s).inBase = s.inBase := rfl
@[simp] theorem clearSession_outBase (s : State) : (clearSession s).outBase = s.outBase := rfl
@[simp] theorem clearSession_cfgMethod (s : State) : (clearSession s).cfgMethod = s.cfgMethod := rfl
@[simp] theorem clearSession_cfgFmt (s : State) : (clearSession s).cfgFmt = s.cfgFmt := rfl
@[simp] theorem clearSession_cfgRate (s : State) : (clearSession s).cfgRate = s.cfgRate := rfl
@[simp] theorem clearSession_cfgSeed (s : State) : (clearSession s).cfgSeed = s.cfgSeed := rfl
@[simp] theorem clearSession_cfgStrengthLo (s : State) : (clearSession s).cfgStrengthLo = s.cfgStrengthLo := rfl
@[simp] theorem clearSession_cfgStrengthHi (s : State) : (clearSession s).cfgStrengthHi = s.cfgStrengthHi := rfl
@[simp] theorem clearSession_sMethod (s : State) : (clearSession s).sMethod = s.sMethod := rfl
@[simp] theorem clearSession_sFmt (s : State) : (clearSession s).sFmt = s.sFmt := rfl
@[simp] theorem clearSession_sTaps (s : State) : (clearSession s).sTaps = 0 := rfl
@[simp] theorem clearSession_sPos (s : State) : (clearSession s).sPos = 0 := rfl
@[simp] theorem clearSession_sSeed (s : State) : (clearSession s).sSeed = s.sSeed := rfl
@[simp] theorem clearSession_sRatio (s : State) : (clearSession s).sRatio = s.sRatio := rfl
@[simp] theorem clearSession_sScale (s : State) : (clearSession s).sScale = s.sScale := rfl
@[simp] theorem clearSession_sInvScale (s : State) : (clearSession s).sInvScale = s.sInvScale := rfl
@[simp] theorem clearSession_coef (s : State) : (clearSession s).coef = zeroFile s.params.cap := rfl
@[simp] theorem clearSession_hist (s : State) : (clearSession s).hist = zeroFile s.params.cap := rfl
@[simp] theorem clearSession_mem (s : State) : (clearSession s).mem = s.mem := rfl
@[simp] theorem clearSession_held (s : State) : (clearSession s).held = s.held := rfl
@[simp] theorem clearSession_hostQueue (s : State) : (clearSession s).hostQueue = s.hostQueue := rfl
@[simp] theorem clearSession_responses (s : State) : (clearSession s).responses = s.responses := rfl
@[simp] theorem clearSession_turns (s : State) : (clearSession s).turns = s.turns := rfl
@[simp] theorem clearSession_freeCount (s : State) : (clearSession s).freeCount = s.freeCount := rfl

/-! ### The scales are set (40_catalog_and_init.md R153, R154) -/

@[simp] theorem setScale_params (s : State) : (setScale s).params = s.params := rfl
@[simp] theorem setScale_pend (s : State) : (setScale s).pend = s.pend := rfl
@[simp] theorem setScale_busy (s : State) : (setScale s).busy = s.busy := rfl
@[simp] theorem setScale_done (s : State) : (setScale s).done = s.done := rfl
@[simp] theorem setScale_err (s : State) : (setScale s).err = s.err := rfl
@[simp] theorem setScale_warn (s : State) : (setScale s).warn = s.warn := rfl
@[simp] theorem setScale_nan (s : State) : (setScale s).nan = s.nan := rfl
@[simp] theorem setScale_fatal (s : State) : (setScale s).fatal = s.fatal := rfl
@[simp] theorem setScale_errCode (s : State) : (setScale s).errCode = s.errCode := rfl
@[simp] theorem setScale_irqEn (s : State) : (setScale s).irqEn = s.irqEn := rfl
@[simp] theorem setScale_errInfo (s : State) : (setScale s).errInfo = s.errInfo := rfl
@[simp] theorem setScale_len (s : State) : (setScale s).len = s.len := rfl
@[simp] theorem setScale_inBase (s : State) : (setScale s).inBase = s.inBase := rfl
@[simp] theorem setScale_outBase (s : State) : (setScale s).outBase = s.outBase := rfl
@[simp] theorem setScale_cfgMethod (s : State) : (setScale s).cfgMethod = s.cfgMethod := rfl
@[simp] theorem setScale_cfgFmt (s : State) : (setScale s).cfgFmt = s.cfgFmt := rfl
@[simp] theorem setScale_cfgRate (s : State) : (setScale s).cfgRate = s.cfgRate := rfl
@[simp] theorem setScale_cfgSeed (s : State) : (setScale s).cfgSeed = s.cfgSeed := rfl
@[simp] theorem setScale_cfgStrengthLo (s : State) : (setScale s).cfgStrengthLo = s.cfgStrengthLo := rfl
@[simp] theorem setScale_cfgStrengthHi (s : State) : (setScale s).cfgStrengthHi = s.cfgStrengthHi := rfl
@[simp] theorem setScale_sMethod (s : State) : (setScale s).sMethod = s.sMethod := rfl
@[simp] theorem setScale_sFmt (s : State) : (setScale s).sFmt = s.cfgFmt := rfl
@[simp] theorem setScale_sTaps (s : State) : (setScale s).sTaps = s.sTaps := rfl
@[simp] theorem setScale_sPos (s : State) : (setScale s).sPos = s.sPos := rfl
@[simp] theorem setScale_sSeed (s : State) : (setScale s).sSeed = s.sSeed := rfl
@[simp] theorem setScale_sRatio (s : State) : (setScale s).sRatio = ratioTable (srcCode s.cfgFmt) (dstCode s.cfgFmt) := rfl
@[simp] theorem setScale_sScale (s : State) : (setScale s).sScale = 
      fmul (ratioTable (srcCode s.cfgFmt) (dstCode s.cfgFmt)) (strength s) := rfl
@[simp] theorem setScale_sInvScale (s : State) : (setScale s).sInvScale = 
      inverseScale (fmul (ratioTable (srcCode s.cfgFmt) (dstCode s.cfgFmt)) (strength s)) := rfl
@[simp] theorem setScale_coef (s : State) : (setScale s).coef = s.coef := rfl
@[simp] theorem setScale_hist (s : State) : (setScale s).hist = s.hist := rfl
@[simp] theorem setScale_mem (s : State) : (setScale s).mem = s.mem := rfl
@[simp] theorem setScale_held (s : State) : (setScale s).held = s.held := rfl
@[simp] theorem setScale_hostQueue (s : State) : (setScale s).hostQueue = s.hostQueue := rfl
@[simp] theorem setScale_responses (s : State) : (setScale s).responses = s.responses := rfl
@[simp] theorem setScale_turns (s : State) : (setScale s).turns = s.turns := rfl
@[simp] theorem setScale_freeCount (s : State) : (setScale s).freeCount = s.freeCount := rfl

/-! ### A filter is set (40_catalog_and_init.md R156, R157) -/

@[simp] theorem setFilter_params (f : Selection) (s : State) : (setFilter f s).params = s.params := rfl
@[simp] theorem setFilter_pend (f : Selection) (s : State) : (setFilter f s).pend = s.pend := rfl
@[simp] theorem setFilter_busy (f : Selection) (s : State) : (setFilter f s).busy = s.busy := rfl
@[simp] theorem setFilter_done (f : Selection) (s : State) : (setFilter f s).done = s.done := rfl
@[simp] theorem setFilter_err (f : Selection) (s : State) : (setFilter f s).err = s.err := rfl
@[simp] theorem setFilter_warn (f : Selection) (s : State) : (setFilter f s).warn = f.warn := rfl
@[simp] theorem setFilter_nan (f : Selection) (s : State) : (setFilter f s).nan = s.nan := rfl
@[simp] theorem setFilter_fatal (f : Selection) (s : State) : (setFilter f s).fatal = s.fatal := rfl
@[simp] theorem setFilter_errCode (f : Selection) (s : State) : (setFilter f s).errCode = s.errCode := rfl
@[simp] theorem setFilter_irqEn (f : Selection) (s : State) : (setFilter f s).irqEn = s.irqEn := rfl
@[simp] theorem setFilter_errInfo (f : Selection) (s : State) : (setFilter f s).errInfo = s.errInfo := rfl
@[simp] theorem setFilter_len (f : Selection) (s : State) : (setFilter f s).len = s.len := rfl
@[simp] theorem setFilter_inBase (f : Selection) (s : State) : (setFilter f s).inBase = s.inBase := rfl
@[simp] theorem setFilter_outBase (f : Selection) (s : State) : (setFilter f s).outBase = s.outBase := rfl
@[simp] theorem setFilter_cfgMethod (f : Selection) (s : State) : (setFilter f s).cfgMethod = s.cfgMethod := rfl
@[simp] theorem setFilter_cfgFmt (f : Selection) (s : State) : (setFilter f s).cfgFmt = s.cfgFmt := rfl
@[simp] theorem setFilter_cfgRate (f : Selection) (s : State) : (setFilter f s).cfgRate = s.cfgRate := rfl
@[simp] theorem setFilter_cfgSeed (f : Selection) (s : State) : (setFilter f s).cfgSeed = s.cfgSeed := rfl
@[simp] theorem setFilter_cfgStrengthLo (f : Selection) (s : State) : (setFilter f s).cfgStrengthLo = s.cfgStrengthLo := rfl
@[simp] theorem setFilter_cfgStrengthHi (f : Selection) (s : State) : (setFilter f s).cfgStrengthHi = s.cfgStrengthHi := rfl
@[simp] theorem setFilter_sMethod (f : Selection) (s : State) : (setFilter f s).sMethod = f.method := rfl
@[simp] theorem setFilter_sFmt (f : Selection) (s : State) : (setFilter f s).sFmt = s.sFmt := rfl
@[simp] theorem setFilter_sTaps (f : Selection) (s : State) : (setFilter f s).sTaps = f.taps := rfl
@[simp] theorem setFilter_sPos (f : Selection) (s : State) : (setFilter f s).sPos = s.sPos := rfl
@[simp] theorem setFilter_sSeed (f : Selection) (s : State) : (setFilter f s).sSeed = s.sSeed := rfl
@[simp] theorem setFilter_sRatio (f : Selection) (s : State) : (setFilter f s).sRatio = s.sRatio := rfl
@[simp] theorem setFilter_sScale (f : Selection) (s : State) : (setFilter f s).sScale = s.sScale := rfl
@[simp] theorem setFilter_sInvScale (f : Selection) (s : State) : (setFilter f s).sInvScale = s.sInvScale := rfl
@[simp] theorem setFilter_coef (f : Selection) (s : State) : (setFilter f s).coef = f.coef := rfl
@[simp] theorem setFilter_hist (f : Selection) (s : State) : (setFilter f s).hist = s.hist := rfl
@[simp] theorem setFilter_mem (f : Selection) (s : State) : (setFilter f s).mem = s.mem := rfl
@[simp] theorem setFilter_held (f : Selection) (s : State) : (setFilter f s).held = s.held := rfl
@[simp] theorem setFilter_hostQueue (f : Selection) (s : State) : (setFilter f s).hostQueue = s.hostQueue := rfl
@[simp] theorem setFilter_responses (f : Selection) (s : State) : (setFilter f s).responses = s.responses := rfl
@[simp] theorem setFilter_turns (f : Selection) (s : State) : (setFilter f s).turns = s.turns := rfl
@[simp] theorem setFilter_freeCount (f : Selection) (s : State) : (setFilter f s).freeCount = s.freeCount := rfl

/-! ### The host acknowledges (60_exceptions.md R279) -/

@[simp] theorem acknowledge_params (w : Word) (s : State) : (acknowledge w s).params = s.params := rfl
@[simp] theorem acknowledge_pend (w : Word) (s : State) : (acknowledge w s).pend = s.pend := rfl
@[simp] theorem acknowledge_busy (w : Word) (s : State) : (acknowledge w s).busy = s.busy := rfl
@[simp] theorem acknowledge_done (w : Word) (s : State) : (acknowledge w s).done = (s.done && !w.getLsbD 1) := rfl
@[simp] theorem acknowledge_err (w : Word) (s : State) : (acknowledge w s).err = (s.err && !w.getLsbD 2) := rfl
@[simp] theorem acknowledge_warn (w : Word) (s : State) : (acknowledge w s).warn = (s.warn && !w.getLsbD 3) := rfl
@[simp] theorem acknowledge_nan (w : Word) (s : State) : (acknowledge w s).nan = (s.nan && !w.getLsbD 4) := rfl
@[simp] theorem acknowledge_fatal (w : Word) (s : State) : (acknowledge w s).fatal = s.fatal := rfl
@[simp] theorem acknowledge_errCode (w : Word) (s : State) : (acknowledge w s).errCode = 
      if w.getLsbD 2 then .none else s.errCode := rfl
@[simp] theorem acknowledge_irqEn (w : Word) (s : State) : (acknowledge w s).irqEn = s.irqEn := rfl
@[simp] theorem acknowledge_errInfo (w : Word) (s : State) : (acknowledge w s).errInfo = s.errInfo := rfl
@[simp] theorem acknowledge_len (w : Word) (s : State) : (acknowledge w s).len = s.len := rfl
@[simp] theorem acknowledge_inBase (w : Word) (s : State) : (acknowledge w s).inBase = s.inBase := rfl
@[simp] theorem acknowledge_outBase (w : Word) (s : State) : (acknowledge w s).outBase = s.outBase := rfl
@[simp] theorem acknowledge_cfgMethod (w : Word) (s : State) : (acknowledge w s).cfgMethod = s.cfgMethod := rfl
@[simp] theorem acknowledge_cfgFmt (w : Word) (s : State) : (acknowledge w s).cfgFmt = s.cfgFmt := rfl
@[simp] theorem acknowledge_cfgRate (w : Word) (s : State) : (acknowledge w s).cfgRate = s.cfgRate := rfl
@[simp] theorem acknowledge_cfgSeed (w : Word) (s : State) : (acknowledge w s).cfgSeed = s.cfgSeed := rfl
@[simp] theorem acknowledge_cfgStrengthLo (w : Word) (s : State) : (acknowledge w s).cfgStrengthLo = s.cfgStrengthLo := rfl
@[simp] theorem acknowledge_cfgStrengthHi (w : Word) (s : State) : (acknowledge w s).cfgStrengthHi = s.cfgStrengthHi := rfl
@[simp] theorem acknowledge_sMethod (w : Word) (s : State) : (acknowledge w s).sMethod = s.sMethod := rfl
@[simp] theorem acknowledge_sFmt (w : Word) (s : State) : (acknowledge w s).sFmt = s.sFmt := rfl
@[simp] theorem acknowledge_sTaps (w : Word) (s : State) : (acknowledge w s).sTaps = s.sTaps := rfl
@[simp] theorem acknowledge_sPos (w : Word) (s : State) : (acknowledge w s).sPos = s.sPos := rfl
@[simp] theorem acknowledge_sSeed (w : Word) (s : State) : (acknowledge w s).sSeed = s.sSeed := rfl
@[simp] theorem acknowledge_sRatio (w : Word) (s : State) : (acknowledge w s).sRatio = s.sRatio := rfl
@[simp] theorem acknowledge_sScale (w : Word) (s : State) : (acknowledge w s).sScale = s.sScale := rfl
@[simp] theorem acknowledge_sInvScale (w : Word) (s : State) : (acknowledge w s).sInvScale = s.sInvScale := rfl
@[simp] theorem acknowledge_coef (w : Word) (s : State) : (acknowledge w s).coef = s.coef := rfl
@[simp] theorem acknowledge_hist (w : Word) (s : State) : (acknowledge w s).hist = s.hist := rfl
@[simp] theorem acknowledge_mem (w : Word) (s : State) : (acknowledge w s).mem = s.mem := rfl
@[simp] theorem acknowledge_held (w : Word) (s : State) : (acknowledge w s).held = s.held := rfl
@[simp] theorem acknowledge_hostQueue (w : Word) (s : State) : (acknowledge w s).hostQueue = s.hostQueue := rfl
@[simp] theorem acknowledge_responses (w : Word) (s : State) : (acknowledge w s).responses = s.responses := rfl
@[simp] theorem acknowledge_turns (w : Word) (s : State) : (acknowledge w s).turns = s.turns := rfl
@[simp] theorem acknowledge_freeCount (w : Word) (s : State) : (acknowledge w s).freeCount = s.freeCount := rfl

/-! ### SEED is set (40_catalog_and_init.md R157) -/

@[simp] theorem seedSession_params (s : State) : (seedSession s).params = s.params := rfl
@[simp] theorem seedSession_pend (s : State) : (seedSession s).pend = s.pend := rfl
@[simp] theorem seedSession_busy (s : State) : (seedSession s).busy = s.busy := rfl
@[simp] theorem seedSession_done (s : State) : (seedSession s).done = s.done := rfl
@[simp] theorem seedSession_err (s : State) : (seedSession s).err = s.err := rfl
@[simp] theorem seedSession_warn (s : State) : (seedSession s).warn = s.warn := rfl
@[simp] theorem seedSession_nan (s : State) : (seedSession s).nan = s.nan := rfl
@[simp] theorem seedSession_fatal (s : State) : (seedSession s).fatal = s.fatal := rfl
@[simp] theorem seedSession_errCode (s : State) : (seedSession s).errCode = s.errCode := rfl
@[simp] theorem seedSession_irqEn (s : State) : (seedSession s).irqEn = s.irqEn := rfl
@[simp] theorem seedSession_errInfo (s : State) : (seedSession s).errInfo = s.errInfo := rfl
@[simp] theorem seedSession_len (s : State) : (seedSession s).len = s.len := rfl
@[simp] theorem seedSession_inBase (s : State) : (seedSession s).inBase = s.inBase := rfl
@[simp] theorem seedSession_outBase (s : State) : (seedSession s).outBase = s.outBase := rfl
@[simp] theorem seedSession_cfgMethod (s : State) : (seedSession s).cfgMethod = s.cfgMethod := rfl
@[simp] theorem seedSession_cfgFmt (s : State) : (seedSession s).cfgFmt = s.cfgFmt := rfl
@[simp] theorem seedSession_cfgRate (s : State) : (seedSession s).cfgRate = s.cfgRate := rfl
@[simp] theorem seedSession_cfgSeed (s : State) : (seedSession s).cfgSeed = s.cfgSeed := rfl
@[simp] theorem seedSession_cfgStrengthLo (s : State) : (seedSession s).cfgStrengthLo = s.cfgStrengthLo := rfl
@[simp] theorem seedSession_cfgStrengthHi (s : State) : (seedSession s).cfgStrengthHi = s.cfgStrengthHi := rfl
@[simp] theorem seedSession_sMethod (s : State) : (seedSession s).sMethod = s.sMethod := rfl
@[simp] theorem seedSession_sFmt (s : State) : (seedSession s).sFmt = s.sFmt := rfl
@[simp] theorem seedSession_sTaps (s : State) : (seedSession s).sTaps = s.sTaps := rfl
@[simp] theorem seedSession_sPos (s : State) : (seedSession s).sPos = s.sPos := rfl
@[simp] theorem seedSession_sSeed (s : State) : (seedSession s).sSeed = s.cfgSeed := rfl
@[simp] theorem seedSession_sRatio (s : State) : (seedSession s).sRatio = s.sRatio := rfl
@[simp] theorem seedSession_sScale (s : State) : (seedSession s).sScale = s.sScale := rfl
@[simp] theorem seedSession_sInvScale (s : State) : (seedSession s).sInvScale = s.sInvScale := rfl
@[simp] theorem seedSession_coef (s : State) : (seedSession s).coef = s.coef := rfl
@[simp] theorem seedSession_hist (s : State) : (seedSession s).hist = s.hist := rfl
@[simp] theorem seedSession_mem (s : State) : (seedSession s).mem = s.mem := rfl
@[simp] theorem seedSession_held (s : State) : (seedSession s).held = s.held := rfl
@[simp] theorem seedSession_hostQueue (s : State) : (seedSession s).hostQueue = s.hostQueue := rfl
@[simp] theorem seedSession_responses (s : State) : (seedSession s).responses = s.responses := rfl
@[simp] theorem seedSession_turns (s : State) : (seedSession s).turns = s.turns := rfl
@[simp] theorem seedSession_freeCount (s : State) : (seedSession s).freeCount = s.freeCount := rfl

/-! ### The reset input (70_reset_and_hazards.md R311) -/

@[simp] theorem platformReset_params (s : State) : (platformReset s).params = s.params := rfl
@[simp] theorem platformReset_pend (s : State) : (platformReset s).pend = 0 := rfl
@[simp] theorem platformReset_busy (s : State) : (platformReset s).busy = false := rfl
@[simp] theorem platformReset_done (s : State) : (platformReset s).done = false := rfl
@[simp] theorem platformReset_err (s : State) : (platformReset s).err = false := rfl
@[simp] theorem platformReset_warn (s : State) : (platformReset s).warn = false := rfl
@[simp] theorem platformReset_nan (s : State) : (platformReset s).nan = false := rfl
@[simp] theorem platformReset_fatal (s : State) : (platformReset s).fatal = false := rfl
@[simp] theorem platformReset_errCode (s : State) : (platformReset s).errCode = .none := rfl
@[simp] theorem platformReset_irqEn (s : State) : (platformReset s).irqEn = 0 := rfl
@[simp] theorem platformReset_errInfo (s : State) : (platformReset s).errInfo = 0 := rfl
@[simp] theorem platformReset_len (s : State) : (platformReset s).len = 0 := rfl
@[simp] theorem platformReset_inBase (s : State) : (platformReset s).inBase = 0 := rfl
@[simp] theorem platformReset_outBase (s : State) : (platformReset s).outBase = 0 := rfl
@[simp] theorem platformReset_cfgMethod (s : State) : (platformReset s).cfgMethod = 0 := rfl
@[simp] theorem platformReset_cfgFmt (s : State) : (platformReset s).cfgFmt = 0 := rfl
@[simp] theorem platformReset_cfgRate (s : State) : (platformReset s).cfgRate = 0 := rfl
@[simp] theorem platformReset_cfgSeed (s : State) : (platformReset s).cfgSeed = 0 := rfl
@[simp] theorem platformReset_cfgStrengthLo (s : State) : (platformReset s).cfgStrengthLo = 0 := rfl
@[simp] theorem platformReset_cfgStrengthHi (s : State) : (platformReset s).cfgStrengthHi = 0 := rfl
@[simp] theorem platformReset_sMethod (s : State) : (platformReset s).sMethod = 0xFF := rfl
@[simp] theorem platformReset_sFmt (s : State) : (platformReset s).sFmt = 0 := rfl
@[simp] theorem platformReset_sTaps (s : State) : (platformReset s).sTaps = 0 := rfl
@[simp] theorem platformReset_sPos (s : State) : (platformReset s).sPos = 0 := rfl
@[simp] theorem platformReset_sSeed (s : State) : (platformReset s).sSeed = 0 := rfl
@[simp] theorem platformReset_sRatio (s : State) : (platformReset s).sRatio = 0 := rfl
@[simp] theorem platformReset_sScale (s : State) : (platformReset s).sScale = 0 := rfl
@[simp] theorem platformReset_sInvScale (s : State) : (platformReset s).sInvScale = 0 := rfl
@[simp] theorem platformReset_coef (s : State) : (platformReset s).coef = List.replicate s.params.cap 0 := rfl
@[simp] theorem platformReset_hist (s : State) : (platformReset s).hist = List.replicate s.params.cap 0 := rfl
@[simp] theorem platformReset_mem (s : State) : (platformReset s).mem = [] := rfl
@[simp] theorem platformReset_held (s : State) : (platformReset s).held = none := rfl
@[simp] theorem platformReset_hostQueue (s : State) : (platformReset s).hostQueue = s.hostQueue := rfl
@[simp] theorem platformReset_responses (s : State) : (platformReset s).responses = s.responses := rfl
@[simp] theorem platformReset_turns (s : State) : (platformReset s).turns = s.turns := rfl
@[simp] theorem platformReset_freeCount (s : State) : (platformReset s).freeCount = s.freeCount := rfl

end Sys2Proof.Machine
end

