-- ==== Sys2Proof/Laws/Bus.lean ====
section
/-! SUPPORT. The laws of the host bus: what an address selects, and that every transaction and reset keep the canonical form of memory. -/

namespace Sys2Proof.Machine

/-- An aligned address of the register space selects its register (10_state.md R31). -/
theorem target_reg {p : Params} {a : Addr} (h1 : a.toNat % 4 = 0) (h2 : a.toNat < 0x1000) :
    target p a = .reg (regOfOffset a.toNat) := by
  simp [target, h1, h2]

/-- What a buffer target says of its address: it is the address itself, aligned, and its four bytes lie
in IBUF or in OBUF (20_memory.md R82). -/
theorem target_buffer {p : Params} {a : Addr} {b : Nat} (h : target p a = .buffer b) :
    b = a.toNat ∧ a.toNat % 4 = 0 ∧
      ((0x10000 ≤ b ∧ b + 4 ≤ 0x10000 + 8 * p.ibufEntries ∧ b + 4 ≤ 0x20000) ∨
        (0x20000 ≤ b ∧ b + 4 ≤ 0x20000 + p.obufBytes ∧ b + 4 ≤ 0x30000)) := by
  unfold target at h
  simp only at h
  repeat' split at h
  all_goals first | (cases h; done) | (cases h; refine ⟨rfl, ?_, ?_⟩ <;> omega)

/-- An aligned address in range of IBUF or OBUF selects its four bytes (20_memory.md R82). -/
theorem target_of_range {p : Params} {a : Addr} (h0 : a.toNat % 4 = 0)
    (h : 0x10000 ≤ a.toNat ∧ a.toNat < 0x20000 ∧ (a.toNat - 0x10000) / 8 < p.ibufEntries
      ∨ 0x20000 ≤ a.toNat ∧ a.toNat < 0x30000 ∧ a.toNat - 0x20000 + 3 < p.obufBytes) :
    target p a = .buffer a.toNat := by
  unfold target
  simp only
  rw [if_neg (by omega), if_neg (by omega), if_neg (by omega), if_neg (by omega), if_neg (by omega)]
  rcases h with h | h
  · rw [if_pos (by omega), if_pos h.2.2]
  · rw [if_neg (by omega), if_pos (by omega), if_pos h.2.2]

/-- What a host write leaves in memory: the old bytes, or four bytes at its address. -/
theorem hostWrite_mem (a : Addr) (w : Word) (s : State) :
    (hostWrite a w s).2.mem = s.mem ∨
      (target s.params a = .buffer a.toNat ∧
        (hostWrite a w s).2 = { s with mem := memWrite s.mem a.toNat 4 w.toNat }) := by
  unfold hostWrite
  cases h : target s.params a with
  | reg r =>
    refine .inl ?_
    cases r <;> try rfl
    show (acceptCommand w s).mem = s.mem
    unfold acceptCommand
    split <;> rfl
  | buffer b => exact .inr ⟨by rw [(target_buffer h).1], by rw [(target_buffer h).1]⟩
  | _ => exact .inl rfl

/-- A read leaves memory alone. -/
theorem hostRead_mem (a : Addr) (s : State) : (hostRead a s).2.mem = s.mem := by
  unfold hostRead
  split <;> rfl

/-- A transaction keeps the canonical form of memory. -/
theorem transact_mem_wf (t : Txn) {s : State} (h : s.mem.wf = true) :
    (transact t s).2.mem.wf = true := by
  cases t with
  | read a => rw [show (transact (.read a) s).2 = (hostRead a s).2 from rfl, hostRead_mem]; exact h
  | write a w =>
    rw [show (transact (.write a w) s).2 = (hostWrite a w s).2 from rfl]
    rcases hostWrite_mem a w s with e | ⟨_, e⟩ <;> rw [e]
    · exact h
    · exact memWrite_wf h _ _ _

/-- Reset leaves memory in its canonical form, and so does `State.reset`. -/
theorem platformReset_mem_wf (s : State) : (platformReset s).mem.wf = true := rfl

theorem reset_mem_wf : State.reset.mem.wf = true := rfl

end Sys2Proof.Machine
end

