-- ==== Sys2Proof/Laws/Init.lean ====
section
/-! SUPPORT. One spec lemma for INIT and one for each way its filter is chosen (40_catalog_and_init.md R150 to R158). -/

namespace Sys2Proof.Machine

/-- The match test in the spec's words: name and rate (40_catalog_and_init.md R150). -/
theorem filterMatches_iff (m : BitVec 8) (r : Word) (e : FilterSpec) :
    filterMatches m r e = true ↔ e.name = m ∧
      fle (fdiv (fabs (fsub (f64OfInt r.toNat) e.targetRate)) e.targetRate) rateTolerance = true := by
  simp [filterMatches]

theorem lookup_first {before after : List FilterSpec} {e : FilterSpec} {m : BitVec 8} {r : Word}
    (h : filterMatches m r e = true) (hb : ∀ d ∈ before, filterMatches m r d = false) :
    lookup (before ++ e :: after) m r = some e :=
  List.find?_eq_some_iff_append.2 ⟨h, before, after, rfl, fun d hd => by simp [hb d hd]⟩

theorem lookup_none {catalog : List FilterSpec} {m : BitVec 8} {r : Word}
    (h : ∀ d ∈ catalog, filterMatches m r d = false) : lookup catalog m r = none :=
  List.find?_eq_none.2 fun d hd => by simp [h d hd]

/-- What the chosen filter can be. -/
theorem chooseFilter_cases (p : Params) (m : BitVec 8) (r : Word) :
    (methodShaping p m = true ∧ ∃ e ∈ p.catalog, lookup p.catalog m r = some e ∧
      chooseFilter p m r =
        { method := m, taps := BitVec.ofNat 10 e.tapCount, coef := loadCoefficients p.cap e,
          warn := false }) ∨
    (methodShaping p m = true ∧ lookup p.catalog m r = none ∧
      chooseFilter p m r =
        { method := methodTpdfHp, taps := 0, coef := zeroFile p.cap, warn := true }) ∨
    (methodShaping p m = false ∧
      chooseFilter p m r = { method := m, taps := 0, coef := zeroFile p.cap, warn := false }) := by
  unfold chooseFilter
  cases h : methodShaping p m with
  | false => exact .inr (.inr ⟨rfl, rfl⟩)
  | true =>
    cases hl : lookup p.catalog m r with
    | none => exact .inr (.inl ⟨rfl, rfl, rfl⟩)
    | some e => exact .inl ⟨rfl, e, List.mem_of_find?_eq_some hl, rfl, rfl⟩

/-- The coefficient file after a filter is loaded, entry by entry. -/
theorem loadCoefficients_get {cap k : Nat} (e : FilterSpec) (h : k < cap) :
    (loadCoefficients cap e)[k]? = some (if k < e.tapCount then fileRead e.coefficients k else 0) := by
  simp [loadCoefficients, List.getElem?_range h]

@[simp] theorem loadCoefficients_length (cap : Nat) (e : FilterSpec) :
    (loadCoefficients cap e).length = cap := by simp [loadCoefficients]

@[simp] theorem zeroFile_length (cap : Nat) : (zeroFile cap).length = cap := List.length_replicate

theorem zeroFile_get {cap k : Nat} (h : k < cap) : (zeroFile cap)[k]? = some 0 := by
  simp [zeroFile, h]

/-- What the outcome of INIT can be: one of its three reports, or the new session. -/
theorem execInit_cases (s : State) :
    (¬ InitReady s ∧ ∃ code, code ≠ ErrCode.none ∧ code ≠ ErrCode.fatal ∧
      exec .init s = .next (raiseErr code s)) ∨
    (InitReady s ∧ exec .init s = .next (complete (initSession s))) := by
  rw [show exec .init s = execInit s from rfl]
  unfold execInit InitReady methodValid
  by_cases h1 : s.cfgMethod.toNat ≤ 1 + s.params.numNs
  · by_cases h2 : srcCode s.cfgFmt ≤ 4 ∧ dstCode s.cfgFmt ≤ 4
    · cases h3 : strengthValid (strength s) with
      | true => exact .inr ⟨⟨h1, h2, rfl⟩, by simp [h1, h2]⟩
      | false =>
        exact .inl ⟨fun h => by simp at h, .badStrength, by decide, by decide, by simp [h1, h2]⟩
    · refine .inl ⟨fun h => h2 h.2.1, .badFormat, by decide, by decide, ?_⟩
      simp only [Bool.not_eq_true', ← Bool.decide_and]
      simp [h1, h2]
  · exact .inl ⟨fun h => h1 h.1, .badMethod, by decide, by decide, by simp [h1]⟩

theorem execInit_ready {s : State} (h : InitReady s) :
    exec .init s = .next (complete (initSession s)) := by
  rcases execInit_cases s with ⟨h', _⟩ | ⟨_, e⟩
  · exact absurd h h'
  · exact e

end Sys2Proof.Machine
end

