-- ==== Sys2Proof/Laws/Generator.lean ====
section
/-! SUPPORT. The laws of the generator: how far a draw moves SEED, and the values of many draws by number. -/

namespace Sys2Proof.Machine

@[simp] theorem seedAfter_zero (s : Word) : seedAfter 0 s = s := rfl

theorem seedAfter_succ (n : Nat) (s : Word) : seedAfter (n + 1) s = seedSucc (seedAfter n s) := rfl

theorem seedAfter_add (m n : Nat) (s : Word) : seedAfter (m + n) s = seedAfter n (seedAfter m s) := by
  induction n with
  | zero => rfl
  | succ n ih => rw [← Nat.add_assoc, seedAfter_succ, seedAfter_succ, ih]

/-- One draw moves SEED by the advances of its method. -/
theorem draw_seed (m : BitVec 8) (seed : Word) :
    (draw m seed).2 = seedAfter (drawAdvances m) seed := by
  unfold draw drawAdvances
  split <;> rfl

/-- Draws in order move SEED by their number times the advances of the method. -/
theorem drawMany_seed (m : BitVec 8) (n : Nat) (seed : Word) :
    (drawMany m n seed).2 = seedAfter (drawAdvances m * n) seed := by
  induction n generalizing seed with
  | zero => rfl
  | succ n ih =>
    show (drawMany m n (draw m seed).2).2 = _
    rw [ih, draw_seed, ← seedAfter_add, Nat.mul_succ, Nat.add_comm]

theorem drawMany_length (m : BitVec 8) (n : Nat) (seed : Word) :
    (drawMany m n seed).1.length = n := by
  induction n generalizing seed with
  | zero => rfl
  | succ n ih => exact congrArg Nat.succ (ih (draw m seed).2)

/-- Draw number j after one draw is draw number j + 1 from before it. -/
theorem drawNumber_succ (m : BitVec 8) (seed : Word) (j : Nat) :
    drawNumber m (draw m seed).2 j = drawNumber m seed (j + 1) := by
  unfold drawNumber
  rw [draw_seed, ← seedAfter_add, Nat.mul_succ, Nat.add_comm]

/-- Entry j of a draw sequence is draw number j. -/
theorem drawMany_read (m : BitVec 8) {n j : Nat} (h : j < n) (seed : Word) :
    fileRead (drawMany m n seed).1 j = drawNumber m seed j := by
  induction n generalizing j seed with
  | zero => omega
  | succ n ih =>
    cases j with
    | zero => rfl
    | succ j =>
      show fileRead (drawMany m n (draw m seed).2).1 j = _
      rw [ih (by omega), drawNumber_succ]

end Sys2Proof.Machine
end

