-- ==== Sys2Proof/Laws/Samples.lean ====
section
/-! SUPPORT. One spec lemma for each shared operation of FILL and QUANT: the store of a sample, the stores of a FILL, the cycle of a QUANT and its loop. -/

namespace Sys2Proof.Machine

theorem width_pos (rep : Rep) : 0 < width rep := by cases rep <;> decide

theorem sampleAddr_add (rep : Rep) (s : State) (i n : Nat) :
    sampleAddr rep s (i + n) = sampleAddr rep s i + n * width rep := by
  simp only [sampleAddr, Nat.add_mul]; omega

theorem sampleAddr_mono (rep : Rep) (s : State) {i j : Nat} (h : i ≤ j) :
    sampleAddr rep s i ≤ sampleAddr rep s j := by
  obtain ⟨n, rfl⟩ := Nat.exists_eq_add_of_le h
  rw [sampleAddr_add]; exact Nat.le_add_right ..

theorem obufOrigin_le_sampleAddr (rep : Rep) (s : State) (i : Nat) :
    obufOrigin ≤ sampleAddr rep s i := Nat.le_add_right ..

/-! ### One store -/

@[simp] theorem storeSample_nan (rep : Rep) (a : Nat) (v : F64) (o : Output) :
    (storeSample rep a v o).nan = (o.nan || convSetsNan rep v) := rfl

theorem storeSample_outside {rep : Rep} {a b : Nat} (v : F64) (o : Output)
    (h : b < a ∨ a + width rep ≤ b) : memByte (storeSample rep a v o).mem b = memByte o.mem b :=
  memByte_memWrite_outside h

theorem storeSample_inside {rep : Rep} {j : Nat} (a : Nat) (v : F64) (o : Output)
    (h : j < width rep) :
    memByte (storeSample rep a v o).mem (a + j) = some (sampleByte rep v j) := by
  refine (memByte_memWrite_inside (Nat.le_add_right ..) (by omega)).trans ?_
  rw [Nat.add_sub_cancel_left]; rfl

theorem storeSample_wf {o : Output} (rep : Rep) (a : Nat) (v : F64) (h : o.mem.wf = true) :
    (storeSample rep a v o).mem.wf = true := memWrite_wf h _ _ _

/-! ### The stores of a FILL -/

/-- The value a FILL stores in slot i, from its scratch sequence. -/
def slotOutput (s : State) (tmp : List F64) (i : Nat) : F64 :=
  fmul (slotValue s.sMethod tmp i) s.sScale

theorem fillStores_outside (rep : Rep) (s : State) (tmp : List F64) {n i a : Nat} (o : Output)
    (h : a < sampleAddr rep s i ∨ sampleAddr rep s (i + n) ≤ a) :
    memByte (fillStores rep s tmp n i o).mem a = memByte o.mem a := by
  induction n generalizing i o with
  | zero => rfl
  | succ n ih =>
    have h1 := sampleAddr_add rep s i 1
    have h2 := sampleAddr_add rep s (i + 1) n
    have h3 : i + (n + 1) = i + 1 + n := by omega
    rw [fillStores, ih, storeSample_outside]
    · rw [h3, h2] at h; omega
    · rw [h3] at h; omega

theorem fillStores_inside (rep : Rep) (s : State) (tmp : List F64) {n i k j : Nat} (o : Output)
    (hk : k < n) (hj : j < width rep) :
    memByte (fillStores rep s tmp n i o).mem (sampleAddr rep s (i + k) + j) =
      some (sampleByte rep (slotOutput s tmp (i + k)) j) := by
  induction n generalizing i k o with
  | zero => omega
  | succ n ih =>
    rw [fillStores]
    cases k with
    | zero =>
      have h1 := sampleAddr_add rep s i 1
      simp only [Nat.add_zero]
      rw [fillStores_outside _ _ _ _ (.inl (by rw [h1]; omega)), storeSample_inside _ _ _ hj]
      rfl
    | succ k =>
      have h3 : i + (k + 1) = i + 1 + k := by omega
      rw [h3, ih _ (by omega)]

theorem fillStores_wf {o : Output} (rep : Rep) (s : State) (tmp : List F64) (n i : Nat)
    (h : o.mem.wf = true) : (fillStores rep s tmp n i o).mem.wf = true := by
  induction n generalizing i o with
  | zero => exact h
  | succ n ih => exact ih _ (storeSample_wf _ _ _ h)

theorem fillStores_nan (rep : Rep) (s : State) (tmp : List F64) (n i : Nat) (o : Output) :
    (fillStores rep s tmp n i o).nan = true ↔
      o.nan = true ∨ ∃ k < n, convSetsNan rep (slotOutput s tmp (i + k)) = true := by
  induction n generalizing i o with
  | zero => simp [fillStores]
  | succ n ih =>
    rw [fillStores, ih, storeSample_nan, Bool.or_eq_true, or_assoc]
    refine or_congr_right ⟨?_, ?_⟩
    · rintro (h | ⟨k, hk, h⟩)
      · exact ⟨0, by omega, h⟩
      · exact ⟨k + 1, by omega, by rwa [show i + (k + 1) = i + 1 + k by omega]⟩
    · rintro ⟨_ | k, hk, h⟩
      · exact .inl h
      · exact .inr ⟨k, by omega, by rwa [show i + (k + 1) = i + 1 + k by omega] at h⟩

/-- What the outcome of a FILL can be: one of its three reports in their order, or its run. -/
theorem fill_cases (rep : Rep) (s : State) :
    (s.outBase.toNat % width rep ≠ 0 ∧ fill rep s = .next (raiseErr .align s)) ∨
    (s.outBase.toNat % width rep = 0 ∧ ¬ OutputFits rep s ∧ fill rep s = .next (raiseErr .range s)) ∨
    (s.outBase.toNat % width rep = 0 ∧ OutputFits rep s ∧ methodValid s.params s.sMethod = false ∧
      fill rep s = .next (raiseFatal s)) ∨
    (FillReady rep s ∧ fill rep s = .next (fillRun rep s)) := by
  unfold fill FillReady OutputFits methodValid
  split
  · exact .inl ⟨‹_›, rfl⟩
  · next h1 =>
    have h1 := Decidable.not_not.1 h1
    split
    · exact .inr (.inl ⟨h1, by omega, rfl⟩)
    · next h2 =>
      split
      · next h3 => exact .inr (.inr (.inl ⟨h1, by omega, by simpa using h3, rfl⟩))
      · next h3 => exact .inr (.inr (.inr ⟨⟨h1, by omega, by simpa using h3⟩, rfl⟩))

/-! ### The cycle and the loop of a QUANT -/

@[simp] theorem quantCycle_seed (rep : Rep) (s : State) (i : Nat) (x : F64) (c : Stream) :
    (quantCycle rep s i x c).seed = (draw s.sMethod c.seed).2 := rfl

@[simp] theorem quantCycle_pos (rep : Rep) (s : State) (i : Nat) (x : F64) (c : Stream) :
    (quantCycle rep s i x c).pos =
      BitVec.ofNat 10 (modCap s.params.cap ((c.pos.toNat : Int) + 1)) := rfl

@[simp] theorem quantCycle_hist_length (rep : Rep) (s : State) (i : Nat) (x : F64) (c : Stream) :
    (quantCycle rep s i x c).hist.length = c.hist.length := List.length_set ..

theorem quantCycle_outside {rep : Rep} {s : State} {i a : Nat} (x : F64) (c : Stream)
    (h : a < sampleAddr rep s i ∨ sampleAddr rep s (i + 1) ≤ a) :
    memByte (quantCycle rep s i x c).out.mem a = memByte c.out.mem a :=
  storeSample_outside _ _ (by rw [sampleAddr_add] at h; omega)

/-- What one sample does: its entry has been written and the cycle runs, or it is the model fault. -/
theorem quantSample_cases (rep : Rep) (s : State) (i : Nat) (c : Stream) :
    (∃ x, ibufRead c.out.mem (s.inBase.toNat + i) = some x ∧
      quantSample rep s i c = .ok (quantCycle rep s i x c)) ∨
    (ibufRead c.out.mem (s.inBase.toNat + i) = none ∧
      quantSample rep s i c = .error (.unwrittenIbuf (s.inBase.toNat + i))) := by
  unfold quantSample
  cases h : ibufRead c.out.mem (s.inBase.toNat + i) with
  | some x => exact .inl ⟨x, rfl, rfl⟩
  | none => exact .inr ⟨rfl, rfl⟩

/-- An invariant of the stream that every cycle keeps holds after any number of samples. -/
theorem quantSamples_induct {rep : Rep} {s : State} {P : Stream → Prop}
    (step : ∀ i x c, P c → P (quantCycle rep s i x c)) {n i : Nat} {c c' : Stream}
    (h : quantSamples rep s n i c = .ok c') (hc : P c) : P c' := by
  induction n generalizing i c with
  | zero => cases h; exact hc
  | succ n ih =>
    rw [quantSamples] at h
    rcases quantSample_cases rep s i c with ⟨x, _, e⟩ | ⟨_, e⟩ <;> rw [e] at h
    · exact ih h (step _ _ _ hc)
    · cases h

/-- Samples one after another: a + b samples are a samples and then b more. -/
theorem quantSamples_add (rep : Rep) (s : State) (a b i : Nat) (c : Stream) :
    quantSamples rep s (a + b) i c =
      match quantSamples rep s a i c with
      | .ok c1 => quantSamples rep s b (i + a) c1
      | .error f => .error f := by
  induction a generalizing i c with
  | zero => simp [quantSamples]
  | succ a ih =>
    rw [Nat.succ_add, quantSamples, quantSamples]
    cases quantSample rep s i c with
    | error f => rfl
    | ok c1 => simp only [ih, show i + 1 + a = i + (a + 1) by omega]

theorem quantSamples_outside {rep : Rep} {s : State} {n i a : Nat} {c c' : Stream}
    (h : quantSamples rep s n i c = .ok c')
    (ha : a < sampleAddr rep s i ∨ sampleAddr rep s (i + n) ≤ a) :
    memByte c'.out.mem a = memByte c.out.mem a := by
  induction n generalizing i c with
  | zero => cases h; rfl
  | succ n ih =>
    have h1 := sampleAddr_mono rep s (Nat.le_add_right i 1)
    have h2 := sampleAddr_mono rep s (show i + 1 ≤ i + (n + 1) by omega)
    have h3 : i + (n + 1) = i + 1 + n := by omega
    rw [quantSamples] at h
    rcases quantSample_cases rep s i c with ⟨x, _, e⟩ | ⟨_, e⟩ <;> rw [e] at h
    · rw [ih h (by rw [h3] at ha; omega), quantCycle_outside]; omega
    · cases h

/-- What the outcome of a QUANT can be: one of its three reports in their order, or its run. -/
theorem quant_cases (rep : Rep) (s : State) :
    (s.outBase.toNat % width rep ≠ 0 ∧ quant rep s = .next (raiseErr .align s)) ∨
    (s.outBase.toNat % width rep = 0 ∧ ¬ (InputFits s ∧ OutputFits rep s) ∧
      quant rep s = .next (raiseErr .range s)) ∨
    (s.outBase.toNat % width rep = 0 ∧ InputFits s ∧ OutputFits rep s ∧
      methodValid s.params s.sMethod = false ∧ quant rep s = .next (raiseFatal s)) ∨
    (QuantChecksPass rep s ∧ quant rep s = quantRun rep s) := by
  unfold quant QuantChecksPass InputFits OutputFits methodValid
  split
  · exact .inl ⟨‹_›, rfl⟩
  · next h1 =>
    have h1 := Decidable.not_not.1 h1
    split
    · exact .inr (.inl ⟨h1, by omega, rfl⟩)
    · next h2 =>
      split
      · next h3 => exact .inr (.inr (.inl ⟨h1, by omega, by omega, by simpa using h3, rfl⟩))
      · next h3 =>
        exact .inr (.inr (.inr ⟨⟨h1, by omega, by omega, by simpa using h3⟩, rfl⟩))

end Sys2Proof.Machine
end

