-- ==== Sys2Proof/Laws/Exec.lean ====
section
/-! SUPPORT. What executing a command can do, said once: the families of the table, what a ready FILL or QUANT runs, and every way `exec` answers a next state. -/

namespace Sys2Proof.Machine

/-! ### The families -/

theorem exec_fill (rep : Rep) (s : State) : exec (fillInstr rep) s = fill rep s := by
  cases rep <;> rfl

theorem exec_quant (rep : Rep) (s : State) : exec (quantInstr rep) s = quant rep s := by
  cases rep <;> rfl

/-- Every command is NOP, INIT, a FILL or a QUANT. -/
theorem instr_cases (i : Instr) :
    i = .nop ∨ i = .init ∨ (∃ rep, i = fillInstr rep) ∨ ∃ rep, i = quantInstr rep := by
  cases i
  · exact .inl rfl
  · exact .inr (.inl rfl)
  · exact .inr (.inr (.inl ⟨.s16, rfl⟩))
  · exact .inr (.inr (.inl ⟨.s32, rfl⟩))
  · exact .inr (.inr (.inl ⟨.f32, rfl⟩))
  · exact .inr (.inr (.inl ⟨.f64, rfl⟩))
  · exact .inr (.inr (.inr ⟨.s16, rfl⟩))
  · exact .inr (.inr (.inr ⟨.s32, rfl⟩))
  · exact .inr (.inr (.inr ⟨.f32, rfl⟩))
  · exact .inr (.inr (.inr ⟨.f64, rfl⟩))

/-- The bounds of well-formed parameters (00_scope.md R4). -/
theorem wf_nums {p : Params} (h : p.wf = true) :
    1 ≤ p.cap ∧ p.cap ≤ 512 ∧ p.ibufEntries ≤ 8192 ∧ p.obufBytes ≤ 65536 := by
  simp [Params.wf] at h; omega

/-- NAN is set by the integer stores of a NaN only (43_quantize.md R230, R231). -/
theorem convSetsNan_iff (rep : Rep) (v : F64) :
    convSetsNan rep v = true ↔ ((rep = .s16 ∨ rep = .s32) ∧ isNaN v = true) := by
  cases rep <;> simp [convSetsNan]

/-! ### FILL -/

theorem fill_ready {rep : Rep} {s : State} (h : FillReady rep s) :
    fill rep s = .next (fillRun rep s) := by
  rcases fill_cases rep s with ⟨h1, _⟩ | ⟨_, h1, _⟩ | ⟨_, _, h1, _⟩ | ⟨_, e⟩
  · exact absurd h.1 h1
  · exact absurd h.2.1 h1
  · simp [methodValid, h.2.2] at h1
  · exact e

/-- The value of slot i from a long enough scratch sequence is the slot of the draws by number. -/
theorem slotOutput_eq {s : State} {n i : Nat} (h : i + 2 < n) :
    slotOutput s (drawMany s.sMethod n s.sSeed).1 i = fillOutput s i := by
  unfold slotOutput slotValue fillOutput fillSlot
  rw [drawMany_read _ (by omega), drawMany_read _ (by omega), drawMany_read _ (by omega)]

/-- An address of the output range is a byte of one of its samples. -/
theorem output_cover {rep : Rep} {s : State} {a : Nat} (h : ¬ OutsideOutput rep s a) :
    ∃ i < s.len.toNat, ∃ j < width rep, a = sampleAddr rep s i + j := by
  unfold OutsideOutput at h
  have hw := width_pos rep
  have hs := sampleAddr_add rep s 0 s.len.toNat
  rw [Nat.zero_add] at hs
  refine ⟨(a - sampleAddr rep s 0) / width rep, ?_, (a - sampleAddr rep s 0) % width rep,
    Nat.mod_lt _ hw, ?_⟩
  · rw [Nat.div_lt_iff_lt_mul hw]; omega
  · have h1 := sampleAddr_add rep s 0 ((a - sampleAddr rep s 0) / width rep)
    have h2 := Nat.div_add_mod (a - sampleAddr rep s 0) (width rep)
    rw [Nat.zero_add] at h1
    rw [Nat.mul_comm] at h2
    omega

/-! ### QUANT -/

theorem quant_pass {rep : Rep} {s : State} (h : QuantChecksPass rep s) :
    quant rep s = quantRun rep s := by
  rcases quant_cases rep s with ⟨h1, _⟩ | ⟨_, h1, _⟩ | ⟨_, _, _, h1, _⟩ | ⟨_, e⟩
  · exact absurd h.1 h1
  · exact absurd ⟨h.2.1, h.2.2.1⟩ h1
  · simp [methodValid, h.2.2.2] at h1
  · exact e

/-- An IBUF entry depends on the bytes below OBUF only. -/
theorem ibufRead_congr {m m' : Mem} {i n : Nat} (hi : i < n) (hn : n ≤ 8192)
    (h : ∀ a < 0x20000, memByte m a = memByte m' a) : ibufRead m i = ibufRead m' i := by
  unfold ibufRead
  rw [memRead_congr]
  intro b h1 h2
  apply h
  unfold ibufOrigin at *
  omega

/-- Samples whose entries have been written run through, from any stream that shows the IBUF of the
state. -/
theorem quantSamples_ok {rep : Rep} {s : State} (hw : s.params.wf = true) {n i : Nat} {c : Stream}
    (hf : s.inBase.toNat + (i + n) ≤ s.params.ibufEntries)
    (hc : ∀ a < 0x20000, memByte c.out.mem a = memByte s.mem a)
    (hr : ∀ k, i ≤ k → k < i + n → EntryWritten s k) :
    ∃ c', quantSamples rep s n i c = .ok c' := by
  induction n generalizing i c with
  | zero => exact ⟨_, rfl⟩
  | succ n ih =>
    rw [quantSamples]
    rcases quantSample_cases rep s i c with ⟨x, _, e⟩ | ⟨h, e⟩ <;> rw [e]
    · apply ih (by omega)
      · intro a ha
        rw [quantCycle_outside _ _ (.inl (Nat.lt_of_lt_of_le ha (obufOrigin_le_sampleAddr ..))),
          hc a ha]
      · exact fun k h1 h2 => hr k (by omega) (by omega)
    · have hi := hr i (by omega) (by omega)
      unfold EntryWritten at hi
      rw [ibufRead_congr (n := s.params.ibufEntries) (by omega) (wf_nums hw).2.2.1 hc] at h
      rw [h] at hi
      cases hi

/-- The position of a cycle is the next one of the ring (43_quantize.md R235). -/
theorem quantCycle_pos_toNat {rep : Rep} {s : State} (hw : s.params.wf = true) (i : Nat) (x : F64)
    (c : Stream) :
    (quantCycle rep s i x c).pos.toNat = (c.pos.toNat + 1) % s.params.cap := by
  have hcap := wf_nums hw
  have h1 : modCap s.params.cap ((c.pos.toNat : Int) + 1) = (c.pos.toNat + 1) % s.params.cap := by
    unfold modCap; norm_cast
  have h2 : (c.pos.toNat + 1) % s.params.cap < 512 :=
    Nat.lt_of_lt_of_le (Nat.mod_lt _ (by omega)) hcap.2.1
  rw [quantCycle_pos, h1, BitVec.toNat_ofNat, Nat.mod_eq_of_lt (by omega)]

theorem quantSamples_wf {rep : Rep} {s : State} {n i : Nat} {c c' : Stream}
    (h : quantSamples rep s n i c = .ok c') (hc : c.out.mem.wf = true) : c'.out.mem.wf = true :=
  quantSamples_induct (P := fun c => c.out.mem.wf = true)
    (fun _ _ _ h => storeSample_wf _ _ _ h) h hc

/-! ### Every way a command answers a next state -/

/-- What `exec` can do when it answers a next state: report an error, report the fatal fault, or the
command's own effect. -/
theorem exec_next {i : Instr} {s t : State} (h : exec i s = .next t) :
    (∃ code, code ≠ ErrCode.none ∧ code ≠ .fatal ∧ t = raiseErr code s ∧ i ≠ .nop) ∨
    (t = raiseFatal s ∧ methodValid s.params s.sMethod = false ∧
      ∃ rep, i = fillInstr rep ∨ i = quantInstr rep) ∨
    (i = .nop ∧ t = complete s) ∨
    (i = .init ∧ InitReady s ∧ t = complete (initSession s)) ∨
    (∃ rep, i = fillInstr rep ∧ FillReady rep s ∧ t = fillRun rep s) ∨
    (∃ rep c, i = quantInstr rep ∧ QuantChecksPass rep s ∧
      quantSamples rep s s.len.toNat 0 (streamOf s) = .ok c ∧ t = complete (withStream s c)) := by
  rcases instr_cases i with rfl | rfl | ⟨rep, rfl⟩ | ⟨rep, rfl⟩
  · exact .inr (.inr (.inl ⟨rfl, by cases h; rfl⟩))
  · rcases execInit_cases s with ⟨_, c, c1, c2, e⟩ | ⟨hr, e⟩ <;> rw [e] at h <;> cases h
    · exact .inl ⟨c, c1, c2, rfl, by decide⟩
    · exact .inr (.inr (.inr (.inl ⟨rfl, hr, rfl⟩)))
  · rw [exec_fill] at h
    rcases fill_cases rep s with ⟨_, e⟩ | ⟨_, _, e⟩ | ⟨_, _, hm, e⟩ | ⟨hr, e⟩ <;> rw [e] at h <;>
      cases h
    · exact .inl ⟨_, by decide, by decide, rfl, by cases rep <;> decide⟩
    · exact .inl ⟨_, by decide, by decide, rfl, by cases rep <;> decide⟩
    · exact .inr (.inl ⟨rfl, hm, rep, .inl rfl⟩)
    · exact .inr (.inr (.inr (.inr (.inl ⟨rep, rfl, hr, rfl⟩))))
  · rw [exec_quant] at h
    rcases quant_cases rep s with ⟨_, e⟩ | ⟨_, _, e⟩ | ⟨_, _, _, hm, e⟩ | ⟨hr, e⟩ <;> rw [e] at h
    · cases h; exact .inl ⟨_, by decide, by decide, rfl, by cases rep <;> decide⟩
    · cases h; exact .inl ⟨_, by decide, by decide, rfl, by cases rep <;> decide⟩
    · cases h; exact .inr (.inl ⟨rfl, hm, rep, .inr rfl⟩)
    · rw [quantRun] at h
      cases hq : quantSamples rep s s.len.toNat 0 (streamOf s) with
      | error f => rw [hq] at h; cases h
      | ok c =>
        rw [hq] at h
        cases h
        exact .inr (.inr (.inr (.inr (.inr ⟨rep, c, rfl, hr, hq, rfl⟩))))

/-- A command keeps the canonical form of memory. -/
theorem exec_mem_wf {i : Instr} {s t : State} (h : exec i s = .next t) (hm : s.mem.wf = true) :
    t.mem.wf = true := by
  rcases exec_next h with ⟨_, _, _, rfl, _⟩ | ⟨rfl, _⟩ | ⟨_, rfl⟩ | ⟨_, _, rfl⟩ | ⟨_, _, _, rfl⟩ |
    ⟨_, _, _, _, hq, rfl⟩
  · exact hm
  · exact hm
  · exact hm
  · exact hm
  · exact fillStores_wf _ _ _ _ _ hm
  · exact quantSamples_wf hq hm

end Sys2Proof.Machine
end

