-- ==== Sys2Proof/Laws/Float.lean ====
section
/-! SUPPORT. The laws of rounding: a rounded number is never a NaN and its pattern never passes the infinity of its sign (00_scope.md R8, R9). -/

namespace Sys2Proof.Machine

/-- The pattern of a rounded number lies between the zero and the infinity of its sign. -/
theorem pack_bounds (f : Format) (neg : Bool) (m : Nat) (e : Int) :
    f.signPattern neg ≤ f.pack neg m e ∧ f.pack neg m e ≤ f.signPattern neg + f.infPattern := by
  unfold Format.pack
  split
  · omega
  · exact ⟨Nat.le_add_right .., Nat.add_le_add_left (Nat.min_le_right ..) _⟩

/-- A pattern whose magnitude does not pass that of ∞ is no NaN. -/
theorem unpack_ne_nan {y : Nat} (h : y % 2 ^ 63 ≤ 0x7FF0000000000000) :
    (binary64.unpack y == .nan) = false := by
  unfold Format.unpack binary64
  simp only
  split
  · split
    · rfl
    · exfalso; norm_num at *; omega
  · split <;> rfl

/-- Rounding never makes a NaN. -/
theorem isNaN_round64 (neg : Bool) (m : Nat) (e : Int) : isNaN (round64 neg m e) = false := by
  obtain ⟨h0, h1⟩ := pack_bounds binary64 neg m e
  have hs : binary64.signPattern neg = 0 ∨ binary64.signPattern neg = 2 ^ 63 := by
    cases neg <;> decide
  have hi : binary64.infPattern = 0x7FF0000000000000 := by decide
  unfold isNaN num64 round64
  rw [BitVec.toNat_ofNat]
  rw [hi] at h1
  exact unpack_ne_nan (by rcases hs with h | h <;> omega)

theorem isNaN_inf64 (neg : Bool) : isNaN (inf64 neg) = false := by cases neg <;> decide

theorem isNaN_zero64 (neg : Bool) : isNaN (zero64 neg) = false := by cases neg <;> decide

end Sys2Proof.Machine
end

