-- ==== Sys2Proof/Laws/PerInstr.lean ====
section
/-! SUPPORT. One lemma per instruction: it is well formed, its word decodes to it, and its word is a valid command word. -/

namespace Sys2Proof.Laws.RoundTrip

/-- What is said of every instruction as syntax (30_encoding.md R123, R124). -/
def Statement (i : Instr) : Prop := i.wf = true ∧ decode (encode i) = .ok i

theorem nop : Statement .nop := ⟨by decide, by decide⟩
theorem init : Statement .init := ⟨by decide, by decide⟩
theorem fillS16 : Statement .fillS16 := ⟨by decide, by decide⟩
theorem fillS32 : Statement .fillS32 := ⟨by decide, by decide⟩
theorem fillF32 : Statement .fillF32 := ⟨by decide, by decide⟩
theorem fillF64 : Statement .fillF64 := ⟨by decide, by decide⟩
theorem quantS16 : Statement .quantS16 := ⟨by decide, by decide⟩
theorem quantS32 : Statement .quantS32 := ⟨by decide, by decide⟩
theorem quantF32 : Statement .quantF32 := ⟨by decide, by decide⟩
theorem quantF64 : Statement .quantF64 := ⟨by decide, by decide⟩

end Sys2Proof.Laws.RoundTrip
end

