-- ==== Sys2Proof/Laws/Rounding.lean ====
section
/-! SUPPORT. The laws of correct rounding: magnitudes as numbers of the least unit, what a pattern stands for, and that `pack` gives the nearest representable value, ties to even (00_scope.md R8, R10, R11). -/

namespace Sys2Proof.Machine

/-- The magnitude of a pattern without its sign, in units of `2^minExp`. -/
def Format.units (f : Format) (p : Nat) : Nat :=
  if p / 2 ^ f.fracBits = 0 then p % 2 ^ f.fracBits
  else (2 ^ f.fracBits + p % 2 ^ f.fracBits) * 2 ^ (p / 2 ^ f.fracBits - 1)

/-- A magnitude lies below the binade after its own. -/
theorem units_lt (f : Format) (p : Nat) : f.units p < 2 ^ (f.fracBits + p / 2 ^ f.fracBits) := by
  have h := Nat.mod_lt p (Nat.two_pow_pos f.fracBits)
  unfold Format.units
  split
  · next h0 => rw [h0]; exact h
  · next h0 =>
    obtain ⟨k, hk⟩ := Nat.exists_eq_succ_of_ne_zero h0
    rw [hk, Nat.succ_sub_one, show f.fracBits + (k+1) = (f.fracBits + 1) + k by omega, Nat.pow_add,
      Nat.pow_succ]
    exact Nat.mul_lt_mul_of_pos_right (by omega) (Nat.two_pow_pos k)

/-- A normal magnitude reaches its binade. -/
theorem le_units (f : Format) {p : Nat} (h0 : p / 2 ^ f.fracBits ≠ 0) :
    2 ^ (f.fracBits + (p / 2 ^ f.fracBits - 1)) ≤ f.units p := by
  unfold Format.units; rw [if_neg h0, Nat.pow_add]
  exact Nat.mul_le_mul_right _ (by omega)

/-- Magnitudes rise strictly with their patterns. -/
theorem units_lt_units (f : Format) {p q : Nat} (h : p < q) : f.units p < f.units q := by
  have hd : p / 2 ^ f.fracBits ≤ q / 2 ^ f.fracBits := Nat.div_le_div_right (Nat.le_of_lt h)
  rcases Nat.lt_or_eq_of_le hd with hlt | heq
  · refine Nat.lt_of_lt_of_le (units_lt f p) (Nat.le_trans ?_ (le_units f (p := q)
      (Nat.ne_zero_of_lt hlt)))
    exact Nat.pow_le_pow_right (by decide)
      (by rw [Nat.add_le_add_iff_left]; exact Nat.le_sub_one_of_lt hlt)
  · have h1 := Nat.div_add_mod p (2 ^ f.fracBits)
    have h2 := Nat.div_add_mod q (2 ^ f.fracBits)
    rw [heq] at h1
    have hm : p % 2 ^ f.fracBits < q % 2 ^ f.fracBits := by omega
    unfold Format.units; rw [heq]
    split
    · exact hm
    · exact Nat.mul_lt_mul_of_pos_right (by omega) (Nat.two_pow_pos _)

/-- The units of a canonical significand and exponent. -/
theorem units_canonical (f : Format) {k n : Nat} (h1 : n ≤ 2 ^ (f.fracBits + 1))
    (h2 : k = 0 ∨ 2 ^ f.fracBits ≤ n) :
    f.units (k * 2 ^ f.fracBits + n) = n * 2 ^ k := by
  have hp := Nat.two_pow_pos f.fracBits
  rw [Nat.pow_succ] at h1
  rcases Nat.lt_or_ge n (2 ^ f.fracBits) with hn | hn
  · have : k = 0 := by omega
    subst this
    unfold Format.units
    simp [Nat.div_eq_of_lt hn, Nat.mod_eq_of_lt hn]
  · rcases Nat.lt_or_ge n (2 * 2 ^ f.fracBits) with hm | hm
    · have e : k * 2 ^ f.fracBits + n = (n - 2 ^ f.fracBits) + (k + 1) * 2 ^ f.fracBits
        := by rw [Nat.add_mul]; omega
      unfold Format.units
      rw [e, Nat.add_mul_div_right _ _ hp, Nat.add_mul_mod_self_right, Nat.div_eq_of_lt (by omega),
        Nat.mod_eq_of_lt (by omega)]
      rw [if_neg (by omega)]; congr 1
      · omega
      · congr 1; omega
    · have hm : n = 2 * 2 ^ f.fracBits := by omega
      subst hm
      have e : k * 2 ^ f.fracBits + 2 * 2 ^ f.fracBits = (k + 2) * 2 ^ f.fracBits
        := by rw [Nat.add_mul]
      unfold Format.units
      rw [e, Nat.mul_div_cancel _ hp, Nat.mul_mod_left, if_neg (by omega), show k + 2 - 1
        = k + 1 by omega, Nat.pow_succ]; ring

/-- Every representable magnitude is a multiple of `2^k` units, or lies below the binade of that
unit. -/
theorem units_dvd_or_lt (f : Format) (p k : Nat) :
    2 ^ k ∣ f.units p ∨ (k ≠ 0 ∧ f.units p < 2 ^ (f.fracBits + k)) := by
  rcases Nat.lt_or_ge k (p / 2 ^ f.fracBits) with h | h
  · left; unfold Format.units; rw [if_neg (by omega)]
    exact Dvd.dvd.mul_left (Nat.pow_dvd_pow 2 (by omega)) _
  · by_cases hk : k = 0
    · left; subst hk; simp
    · right; exact ⟨hk, Nat.lt_of_lt_of_le (units_lt f p) (Nat.pow_le_pow_right (by decide)
        (by omega))⟩

/-- The sign bit as a multiple of its weight. -/
theorem signPattern_eq (f : Format) (neg : Bool) :
    f.signPattern neg = (if neg then 1 else 0) * 2 ^ (f.fracBits + f.expBits) := by
  cases neg <;> simp [Format.signPattern]

/-- The fields of a pattern do not see its sign. -/
theorem sign_fields (f : Format) (b : Nat) :
    b % 2 ^ (f.fracBits + f.expBits) % 2 ^ f.fracBits = b % 2 ^ f.fracBits ∧
    b % 2 ^ (f.fracBits + f.expBits) / 2 ^ f.fracBits = b / 2 ^ f.fracBits % 2 ^ f.expBits := by
  refine ⟨Nat.mod_mod_of_dvd _ (Nat.pow_dvd_pow 2 (Nat.le_add_right ..)), ?_⟩
  rw [Nat.pow_add, Nat.mod_mul_right_div_self]

/-- What a pattern that unpacks to a number stands for: its sign and its magnitude in units. -/
theorem valueOf_unpack (f : Format) {b : Nat} {neg : Bool} {m : Nat} {e : Int}
    (h : f.unpack b = .fin neg m e) :
    valueOf neg m e = signedInt neg (f.units (b % 2 ^ (f.fracBits + f.expBits))) *
      (2 : ℚ) ^ f.minExp ∧
    neg = (b / 2 ^ (f.fracBits + f.expBits) % 2 == 1) ∧ b % 2 ^
      (f.fracBits + f.expBits) < f.infPattern := by
  obtain ⟨h1, h2⟩ := sign_fields f b
  have hp := Nat.two_pow_pos f.fracBits
  have he := Nat.mod_lt (b / 2 ^ f.fracBits) (Nat.two_pow_pos f.expBits)
  unfold Format.unpack at h
  simp only at h
  split at h
  · split at h <;> cases h
  · next hn =>
    have hlt : b % 2 ^ (f.fracBits + f.expBits) < f.infPattern := by
      unfold Format.infPattern
      rw [← Nat.div_lt_iff_lt_mul hp, h2]; omega
    split at h
    · next h0 =>
      cases h
      refine ⟨?_, rfl, hlt⟩
      unfold Format.units valueOf; rw [h2, h1, if_pos h0]
    · next h0 =>
      cases h
      refine ⟨?_, rfl, hlt⟩
      unfold Format.units valueOf; rw [h2, h1, if_neg h0, zpow_add₀ (by norm_num), zpow_natCast]
      unfold signedInt; split <;> push_cast <;> ring

/-- Every magnitude below that of ∞ unpacks to a number of the sign given. -/
theorem unpack_fin (f : Format) {p : Nat} (neg : Bool) (h : p < f.infPattern) :
    ∃ m e, f.unpack (f.signPattern neg + p) = .fin neg m e := by
  have hp := Nat.two_pow_pos f.fracBits
  have hE := Nat.two_pow_pos f.expBits
  have hlt : p < 2 ^ (f.fracBits + f.expBits) := by
    unfold Format.infPattern at h
    rw [Nat.pow_add, Nat.mul_comm]; exact Nat.lt_of_lt_of_le h (Nat.mul_le_mul_right _ (by omega))
  have hm : (f.signPattern neg + p) % 2 ^ (f.fracBits + f.expBits) = p := by
    rw [signPattern_eq, Nat.mul_add_mod_self_right, Nat.mod_eq_of_lt hlt]
  have hs : ((f.signPattern neg + p) / 2 ^ (f.fracBits + f.expBits) % 2 == 1) = neg := by
    rw [signPattern_eq, Nat.add_comm, Nat.add_mul_div_right _ _ (Nat.two_pow_pos _),
      Nat.div_eq_of_lt hlt]
    cases neg <;> rfl
  obtain ⟨_, h2⟩ := sign_fields f (f.signPattern neg + p)
  rw [hm] at h2
  have hx : (f.signPattern neg + p) / 2 ^ f.fracBits % 2 ^ f.expBits ≠ 2 ^ f.expBits - 1 := by
    rw [← h2]; unfold Format.infPattern at h
    have := (Nat.div_lt_iff_lt_mul hp).2 h; omega
  unfold Format.unpack
  simp only [if_neg hx, hs]
  split
  · exact ⟨_, _, rfl⟩
  · exact ⟨_, _, rfl⟩

/-- `n` is `y` rounded to an integer, to nearest, ties to even. -/
def NearestEven (y : ℚ) (n : Nat) : Prop := |y - n| ≤ 1 / 2 ∧ (|y - n| = 1 / 2 → n % 2 = 0)

/-- The integer rounding of a quotient by a power of two is to nearest, ties to even. -/
theorem rneShift_nearest (m d : Nat) : NearestEven (m / 2 ^ d) (rneShift m d) := by
  have hd := Nat.div_add_mod m (2 ^ d)
  have hp : (0 : ℚ) < 2 ^ d := by positivity
  have hq : (m : ℚ) / 2 ^ d = (m / 2 ^ d : Nat) + (m % 2 ^ d : Nat) / 2 ^ d := by
    field_simp
    exact_mod_cast hd.symm
  have hr : (((m % 2 ^ d : Nat) : ℚ)) < 2 ^ d := by exact_mod_cast Nat.mod_lt m (Nat.two_pow_pos d)
  rw [hq]
  generalize hqq : m / 2 ^ d = q
  unfold rneShift NearestEven
  simp only [hqq]
  generalize m % 2 ^ d = r at *
  have h0 : (0 : ℚ) ≤ r := by positivity
  split
  · next hc =>
    have e : (q : ℚ) + r / 2 ^ d - (q + 1 : Nat) = - ((2 ^ d - r) / 2 ^ d)
      := by push_cast; field_simp; ring
    rw [e, abs_neg, abs_of_nonneg (by apply div_nonneg <;> linarith)]
    have h2 : (2 : ℚ) ^ d ≤ 2 * r := by
      rcases hc with hc | hc
      · exact_mod_cast Nat.le_of_lt hc
      · exact_mod_cast Nat.le_of_eq hc.1.symm
    refine ⟨by rw [div_le_div_iff₀ hp (by norm_num)]; linarith, fun h => ?_⟩
    rw [div_eq_div_iff hp.ne' (by norm_num)] at h
    have : (2 : ℚ) * r = 2 ^ d := by linarith
    have : 2 * r = 2 ^ d := by exact_mod_cast this
    omega
  · next hc =>
    rw [show (q : ℚ) + r / 2 ^ d - q = r / 2 ^ d by ring, abs_of_nonneg (by positivity)]
    have h2 : 2 * (r : ℚ) ≤ 2 ^ d := by exact_mod_cast (show 2 * r ≤ 2 ^ d by omega)
    refine ⟨by rw [div_le_div_iff₀ hp (by norm_num)]; linarith, fun h => ?_⟩
    rw [div_eq_div_iff hp.ne' (by norm_num)] at h
    have : (2 : ℚ) * r = 2 ^ d := by linarith
    have : 2 * r = 2 ^ d := by exact_mod_cast this
    omega

/-- The integer rounding of a scaled significand is to nearest, ties to even. -/
theorem rneScale_nearest (m : Nat) (e : Int) : NearestEven (m * (2 : ℚ) ^ e) (rneScale m e) := by
  unfold rneScale
  split
  · next he =>
    obtain ⟨k, rfl⟩ := Int.eq_ofNat_of_zero_le he
    unfold NearestEven; simp
  · next he =>
    obtain ⟨k, hk⟩ := Int.eq_ofNat_of_zero_le (show 0 ≤ -e by omega)
    have : e = -(k : Int) := by omega
    subst this
    have := rneShift_nearest m k
    simpa [zpow_neg, div_eq_mul_inv] using this

/-- The unit `2^minExp` of a format. -/
theorem unit_pos (f : Format) : (0 : ℚ) < (2 : ℚ) ^ f.minExp := zpow_pos (by norm_num) _

/-- Among the multiples of `c`, the one at the nearest integer is nearest; another is as near only
when that integer is even. -/
theorem nearest_multiple {y c : ℚ} {n : Nat} (hc : 0 < c) (h : NearestEven (y / c) n) (j : Int) :
    |y - n * c| ≤ |y - j * c| ∧ (|y - n * c| = |y - j * c| → (j : ℚ) * c = n * c ∨ n % 2 = 0) := by
  have hd : |y - n * c| = |y / c - n| * c := by
    rw [← abs_of_pos hc, ← abs_mul, abs_of_pos hc]; congr 1; field_simp
  have hj : |y - j * c| = |y / c - j| * c := by
    rw [← abs_of_pos hc, ← abs_mul, abs_of_pos hc]; congr 1; field_simp
  by_cases hn : j = n
  · subst hn; simp
  · have h1 : (1 : ℚ) ≤ |(n : ℚ) - j| := by
      have : (1 : Int) ≤ |(n : Int) - j| := Int.one_le_abs (by omega)
      exact_mod_cast this
    have h2 : |(n : ℚ) - j| ≤ |y / c - n| + |y / c - j| := by
      rw [show (n : ℚ) - j = -(y / c - n) + (y / c - j) by ring]
      exact (abs_add_le _ _).trans (by rw [abs_neg])
    have h3 := h.1
    rw [hd, hj]
    refine ⟨mul_le_mul_of_nonneg_right (by linarith) hc.le, fun he => .inr (h.2 ?_)⟩
    have := mul_right_cancel₀ hc.ne' he
    linarith

/-- The bound from which magnitudes round to ∞, in units. -/
theorem overflowBound_eq (f : Format) (hE : 2 ≤ f.expBits) :
    overflowBound f = ((2 : ℚ) ^ (f.fracBits + (2 ^ f.expBits - 2)) - 2 ^
      (2 ^ f.expBits - 2 - 2)) * 2 ^ f.minExp := by
  obtain ⟨k, hk⟩ : ∃ k, f.expBits = k + 2 := ⟨f.expBits - 2, by omega⟩
  have h4 : 4 ≤ 2 ^ f.expBits := by rw [hk, Nat.pow_add]; have := Nat.two_pow_pos k; omega
  have hh : (2 : Int) ^ (f.expBits - 1) * 2 = ((2 ^ f.expBits : Nat) : Int) := by
    rw [hk]; push_cast; exact (pow_succ _ _).symm
  unfold overflowBound Format.minExp
  rw [sub_mul, ← zpow_natCast (2 : ℚ) (f.fracBits + _), ← zpow_natCast (2 : ℚ) (_ - 2 - 2),
    ← zpow_add₀ (by norm_num), ← zpow_add₀ (by norm_num)]
  generalize 2 ^ f.expBits = N at *
  generalize (2 : Int) ^ (f.expBits - 1) = M at *
  congr 2 <;> push_cast <;> omega

/-- The pattern of ∞ continues the magnitudes: the next power of two. -/
theorem units_infPattern (f : Format) (hE : 2 ≤ f.expBits) :
    f.units f.infPattern = 2 ^ (f.fracBits + (2 ^ f.expBits - 2)) := by
  have h4 : 4 ≤ 2 ^ f.expBits := Nat.pow_le_pow_right (n := 2) (by decide) hE
  have := units_canonical f (k := 2 ^ f.expBits - 2) (n := 2 ^ f.fracBits)
    (by rw [Nat.pow_succ]; omega) (.inr (Nat.le_refl _))
  rw [Nat.pow_add, ← this]; congr 1
  unfold Format.infPattern
  rw [show 2 ^ f.expBits - 1 = (2 ^ f.expBits - 2) + 1 by omega, Nat.add_mul, Nat.one_mul]

/-- The patterns below that of ∞ are those of the magnitudes below it. -/
theorem lt_infPattern_iff (f : Format) (hE : 2 ≤ f.expBits) (p : Nat) :
    p < f.infPattern ↔ f.units p < 2 ^ (f.fracBits + (2 ^ f.expBits - 2)) := by
  rw [← units_infPattern f hE]
  constructor
  · exact units_lt_units f
  · intro h
    rcases Nat.lt_or_ge p f.infPattern with h1 | h1
    · exact h1
    · rcases Nat.lt_or_eq_of_le h1 with h2 | h2
      · exact absurd (units_lt_units f h2) (by omega)
      · rw [h2] at h; omega

/-- The significand that rounding leaves is one of the format, or the next power of two. -/
theorem significand_range {F k n : Nat} {y : ℚ} (h1 : y < 2 ^ (F + 1 + k))
    (h2 : k = 0 ∨ (2 : ℚ) ^ (F + k) ≤ y)
    (hn : NearestEven (y / 2 ^ k) n) : n ≤ 2 ^ (F + 1) ∧ (k = 0 ∨ 2 ^ F ≤ n) := by
  have hk : (0 : ℚ) < 2 ^ k := by positivity
  have h3 := abs_le.1 hn.1
  constructor
  · have : y / 2 ^ k < 2 ^ (F + 1) := by rw [div_lt_iff₀ hk, ← pow_add]; exact h1
    have : (n : ℚ) < 2 ^ (F + 1) + 1 := by linarith
    have : n < 2 ^ (F + 1) + 1 := by exact_mod_cast this
    omega
  · refine h2.imp_right fun h => ?_
    have : (2 : ℚ) ^ F ≤ y / 2 ^ k := by rw [le_div_iff₀ hk, ← pow_add]; exact h
    have : (2 : ℚ) ^ F < n + 1 := by linarith
    have : 2 ^ F < n + 1 := by exact_mod_cast this
    omega

/-- `y` units round below ∞ exactly when they lie below the overflow bound. -/
theorem lt_overflow_iff {F K k n : Nat} (hK : 2 ≤ K) {y : ℚ} (h1 : y < 2 ^ (F + 1 + k))
    (h2 : k = 0 ∨ (2 : ℚ) ^ (F + k) ≤ y)
    (hn : NearestEven (y / 2 ^ k) n) : y < 2 ^ (F + K) - 2 ^ (K - 2) ↔ n * 2 ^ k < 2 ^ (F + K) := by
  have hk : (0 : ℚ) < 2 ^ k := by positivity
  obtain ⟨r1, r2⟩ := significand_range h1 h2 hn
  have h3 := abs_le.1 hn.1
  have hy : y = y / 2 ^ k * 2 ^ k := by field_simp
  have hlow : (n - 1 / 2 : ℚ) * 2 ^ k ≤ y
    := by rw [hy]; exact mul_le_mul_of_nonneg_right (by linarith) hk.le
  have hhigh : y ≤ (n + 1 / 2 : ℚ) * 2 ^ k
    := by rw [hy]; exact mul_le_mul_of_nonneg_right (by linarith) hk.le
  have hK2 : (2 : ℚ) ^ K = 4 * 2 ^ (K - 2) := by
    obtain ⟨j, rfl⟩ : ∃ j, K = j + 2 := ⟨K - 2, by omega⟩
    rw [pow_add]; norm_num; ring
  have hKp : (0 : ℚ) < 2 ^ (K - 2) := by positivity
  constructor
  · intro hlt
    by_contra hge
    have hge : 2 ^ (F + K) ≤ n * 2 ^ k := by omega
    have hge' : (2 : ℚ) ^ (F + K) ≤ n * 2 ^ k := by exact_mod_cast hge
    rcases Nat.lt_or_ge k K with hkK | hkK
    · have : (2 : ℚ) ^ k ≤ 2 ^ (K - 1) := pow_le_pow_right₀ (by norm_num) (by omega)
      have e : (2 : ℚ) ^ (K - 1) = 2 * 2 ^ (K - 2) := by rw [← pow_succ']; congr 1; omega
      linarith
    · rcases h2 with h2 | h2
      · omega
      · have : (2 : ℚ) ^ (F + K) ≤ 2 ^ (F + k) := pow_le_pow_right₀ (by norm_num) (by omega)
        linarith
  · intro hlt
    have hkK : k < K := by
      rcases r2 with r2 | r2
      · omega
      · by_contra hh
        have : 2 ^ (F + K) ≤ 2 ^ F * 2 ^ k
          := by rw [← Nat.pow_add]; exact Nat.pow_le_pow_right (by decide) (by omega)
        have := Nat.mul_le_mul_right (2 ^ k) r2
        omega
    rcases Nat.lt_or_ge (k + 1) K with hk1 | hk1
    · have a : (2 : ℚ) ^ (F + 1 + k) ≤ 2 ^ (F + (K - 1)) := pow_le_pow_right₀ (by norm_num)
        (by omega)
      have b : (2 : ℚ) ^ (F + K) = 2 * 2 ^ (F + (K - 1)) := by rw [← pow_succ']; congr 1; omega
      have c : (2 : ℚ) ^ (K - 2) ≤ 2 ^ (F + (K - 1)) := pow_le_pow_right₀ (by norm_num) (by omega)
      linarith
    · have hkk : k = K - 1 := by omega
      have e : (2 : ℚ) ^ k = 2 * 2 ^ (K - 2) := by rw [hkk, ← pow_succ']; congr 1; omega
      have e2 : (2 : ℕ) ^ (F + K) = 2 ^ (F + 1) * 2 ^ k := by rw [← Nat.pow_add]; congr 1; omega
      have e3 : (2 : ℚ) ^ (F + K) = 2 ^ (F + 1) * 2 ^ k := by exact_mod_cast e2
      have hn1 : n + 1 ≤ 2 ^ (F + 1) := by rw [e2] at hlt; exact Nat.lt_of_mul_lt_mul_right hlt
      have hn1' : (n : ℚ) + 1 ≤ 2 ^ (F + 1) := by exact_mod_cast hn1
      rcases lt_or_eq_of_le hhigh with h | h
      · have := mul_le_mul_of_nonneg_right (show (n : ℚ) + 1 / 2 ≤ 2 ^
          (F + 1) - 1 / 2 by linarith) hk.le
        rw [e3]; nlinarith
      · have hz : y / 2 ^ k - n = 1 / 2 := by rw [h]; field_simp; ring
        have hev := hn.2 (by rw [hz]; norm_num)
        have : n + 2 ≤ 2 ^ (F + 1) := by
          rw [Nat.pow_succ] at hn1 ⊢; omega
        have : (n : ℚ) + 2 ≤ 2 ^ (F + 1) := by exact_mod_cast this
        have := mul_le_mul_of_nonneg_right (show (n : ℚ) + 1 / 2 ≤ 2 ^
          (F + 1) - 3 / 2 by linarith) hk.le
        rw [e3]; nlinarith

/-- The core of rounding: when `k` is the exponent of the unit that `y` units are rounded to and `n`
the nearest integer of that unit, the pattern made of `k` and `n` is `y` units rounded to the
format. -/
theorem roundsTo_of_nearest (f : Format) (hF : 1 ≤ f.fracBits) (hE : 2 ≤ f.expBits) {y : ℚ}
    {k n : Nat}
    (neg : Bool) (hy : 0 < y) (h1 : y < 2 ^ (f.fracBits + 1 + k)) (h2 : k = 0 ∨ (2 : ℚ) ^
      (f.fracBits + k) ≤ y)
    (hn : NearestEven (y / 2 ^ k) n) :
    RoundsTo f ((if neg then -1 else 1) * y * 2 ^ f.minExp)
      (f.signPattern neg + min (k * 2 ^ f.fracBits + n) f.infPattern) := by
  have hU := unit_pos f
  have h4 : 4 ≤ 2 ^ f.expBits := Nat.pow_le_pow_right (n := 2) (by decide) hE
  obtain ⟨r1, r2⟩ := significand_range h1 h2 hn
  have hunits := units_canonical f r1 r2
  have hov := lt_overflow_iff (K := 2 ^ f.expBits - 2) (by omega) h1 h2 hn
  rw [← hunits, ← lt_infPattern_iff f hE] at hov
  have hs : (if neg then (-1 : ℚ) else 1) * (if neg then (-1 : ℚ) else 1) = 1
    := by cases neg <;> norm_num
  have habs1 : |(if neg then (-1 : ℚ) else 1)| = 1 := by cases neg <;> norm_num
  generalize hsg : (if neg then (-1 : ℚ) else 1) = σ at *
  have habs : |σ * y * 2 ^ f.minExp| = y * 2 ^ f.minExp := by
    rw [abs_mul, abs_mul, habs1, abs_of_pos hy, abs_of_pos hU, one_mul]
  have hneg : decide (σ * y * 2 ^ f.minExp < 0) = neg := by
    have := mul_pos hy hU
    cases neg
    · simp only [Bool.false_eq_true, if_false] at hsg; subst hsg; simp; nlinarith
    · simp only [if_true] at hsg; subst hsg; simp; nlinarith
  rw [RoundsTo, overflowBound_eq f hE, habs, hneg]
  constructor
  · intro h
    have h := le_of_mul_le_mul_right h hU
    rw [min_eq_right (Nat.le_of_not_lt fun hh => absurd (hov.2 hh) (not_lt.2 h))]
  · intro h
    have hp := hov.1 (lt_of_mul_lt_mul_right h hU.le)
    rw [min_eq_left (Nat.le_of_lt hp)]
    obtain ⟨m, e, hu⟩ := unpack_fin f neg hp
    refine ⟨neg, m, e, hu, fun _ => rfl, fun q neg' m' e' hq => ?_⟩
    have hval : valueOf neg m e = σ * (n * 2 ^ k) * 2 ^ f.minExp := by
      rw [(valueOf_unpack f hu).1]
      have hlt : k * 2 ^ f.fracBits + n < 2 ^ (f.fracBits + f.expBits) := by
        unfold Format.infPattern at hp
        rw [Nat.pow_add, Nat.mul_comm (2 ^ f.fracBits)]
        exact Nat.lt_of_lt_of_le hp (Nat.mul_le_mul_right _ (by omega))
      rw [signPattern_eq, Nat.mul_add_mod_self_right, Nat.mod_eq_of_lt hlt, hunits, ← hsg]
      unfold signedInt; cases neg <;> simp
    obtain ⟨hval', _, _⟩ := valueOf_unpack f hq
    generalize q % 2 ^ (f.fracBits + f.expBits) = p' at *
    -- the other value, seen from the sign of x
    obtain ⟨w, hw, hw'⟩ : ∃ w : Int, valueOf neg' m' e' = σ * w * 2 ^ f.minExp ∧ (w
      = f.units p' ∨ w = -f.units p') := by
      rw [hval']
      cases neg <;> cases neg' <;> simp only [Bool.false_eq_true, if_false, if_true] at hsg
        <;> subst hsg
      · exact ⟨f.units p', by simp [signedInt], .inl rfl⟩
      · exact ⟨-f.units p', by simp [signedInt], .inr rfl⟩
      · exact ⟨-f.units p', by simp [signedInt], .inr rfl⟩
      · exact ⟨f.units p', by simp [signedInt], .inl rfl⟩
    have hd : ∀ z : ℚ, |σ * y * 2 ^ f.minExp - σ * z * 2 ^ f.minExp| = |y - z| * 2 ^ f.minExp := by
      intro z
      rw [show σ * y * 2 ^ f.minExp - σ * z * 2 ^ f.minExp = σ * (y - z) * 2 ^ f.minExp by ring,
        abs_mul, abs_mul, habs1, one_mul, abs_of_pos hU]
    rw [hval, hw, hd, hd]
    have hk : (0 : ℚ) < 2 ^ k := by positivity
    rcases units_dvd_or_lt f p' k with hdvd | ⟨hk0, hlt⟩
    · obtain ⟨j, hj⟩ : ∃ j : Int, w = j * 2 ^ k := by
        obtain ⟨c, hc⟩ := hdvd
        rcases hw' with rfl | rfl
        · exact ⟨c, by rw [hc]; push_cast; ring⟩
        · exact ⟨-c, by rw [hc]; push_cast; ring⟩
      have hm := nearest_multiple hk hn j
      rw [show (w : ℚ) = j * 2 ^ k by rw [hj]; push_cast; ring]
      refine ⟨mul_le_mul_of_nonneg_right hm.1 hU.le, fun he => ?_⟩
      rcases hm.2 (mul_right_cancel₀ hU.ne' he) with h | h
      · exact .inl (by rw [h])
      · right
        have a : f.signPattern neg % 2 = 0 := by
          rw [signPattern_eq, show f.fracBits + f.expBits =
            (f.fracBits + f.expBits - 1) + 1 by omega, Nat.pow_succ, ← Nat.mul_assoc]
          exact Nat.mul_mod_left ..
        have b : k * 2 ^ f.fracBits % 2 = 0 := by
          rw [show f.fracBits = (f.fracBits - 1) + 1 by omega, Nat.pow_succ, ← Nat.mul_assoc]
          exact Nat.mul_mod_left ..
        omega
    · have hy' := h2.resolve_left hk0
      have hw2 : (w : ℚ) < 2 ^ (f.fracBits + k) := by
        have : w < 2 ^ (f.fracBits + k) := by
          have : ((f.units p' : Nat) : Int) < 2 ^ (f.fracBits + k) := by exact_mod_cast hlt
          omega
        exact_mod_cast this
      have hm := (nearest_multiple hk hn (2 ^ f.fracBits)).1
      have e : ((2 ^ f.fracBits : Int) : ℚ) * 2 ^ k = 2 ^ (f.fracBits + k)
        := by push_cast; rw [← pow_add]
      rw [e, abs_of_nonneg (a := y - 2 ^ (f.fracBits + k)) (by linarith)] at hm
      have hlt' : |y - n * 2 ^ k| < |y - w|
        := by rw [abs_of_nonneg (a := y - w) (by linarith)]; linarith
      exact ⟨mul_le_mul_of_nonneg_right hlt'.le hU.le, fun he => absurd
        (mul_right_cancel₀ hU.ne' he) hlt'.ne⟩

/-- An odd integer and a value strictly between its neighbours round alike to multiples of 4 and
more. -/
theorem nearest_sticky {S j n : Nat} {B : ℚ} (hodd : S % 2 = 1) (h1 : (S : ℚ) - 1 < B)
    (h2 : B < S + 1) (hj : 2 ≤ j)
    (h : NearestEven (S / 2 ^ j) n) : NearestEven (B / 2 ^ j) n := by
  obtain ⟨i, rfl⟩ : ∃ i, j = i + 2 := ⟨j - 2, by omega⟩
  have hc : (0 : ℚ) < 2 ^ i := by positivity
  have hj4 : (2 : ℚ) ^ (i + 2) = 4 * 2 ^ i := by rw [pow_add]; ring
  obtain ⟨ha, hb⟩ := abs_le.1 h.1
  have hdiv : (S : ℚ) / 2 ^ (i + 2) * (4 * 2 ^ i) = S := by rw [hj4]; field_simp
  have ha' : 4 * (2 ^ i : ℚ) * n - 2 * 2 ^ i ≤ S := by nlinarith
  have hb' : (S : ℚ) ≤ 4 * 2 ^ i * n + 2 * 2 ^ i := by nlinarith
  have ha : 4 * 2 ^ i * n ≤ S + 2 * 2 ^ i := by
    have : 4 * (2 ^ i : ℚ) * n ≤ S + 2 * 2 ^ i := by linarith
    exact_mod_cast this
  have hb : S ≤ 4 * 2 ^ i * n + 2 * 2 ^ i := by exact_mod_cast hb'
  rw [Nat.mul_assoc] at ha hb
  have ha : 4 * (2 ^ i * n) + 1 ≤ S + 2 * 2 ^ i := by omega
  have hb : S + 1 ≤ 4 * (2 ^ i * n) + 2 * 2 ^ i := by omega
  have ha : (4 * (2 ^ i * n) + 1 : ℚ) ≤ S + 2 * 2 ^ i := by exact_mod_cast ha
  have hb : (S + 1 : ℚ) ≤ 4 * (2 ^ i * n) + 2 * 2 ^ i := by exact_mod_cast hb
  have hlt : |B / 2 ^ (i + 2) - n| < 1 / 2 := by
    rw [abs_lt, hj4]
    constructor
    · rw [lt_sub_iff_add_lt, lt_div_iff₀ (by positivity)]; nlinarith
    · rw [sub_lt_iff_lt_add, div_lt_iff₀ (by positivity)]; nlinarith
  exact ⟨hlt.le, fun he => absurd he hlt.ne⟩

/-- The overflow bound is positive. -/
theorem overflowBound_pos (f : Format) (hE : 2 ≤ f.expBits) : 0 < overflowBound f := by
  have h4 : 4 ≤ 2 ^ f.expBits := Nat.pow_le_pow_right (n := 2) (by decide) hE
  rw [overflowBound_eq f hE]
  refine mul_pos (sub_pos.2 (pow_lt_pow_right₀ (by norm_num) (by omega))) (unit_pos f)

/-- The zero pattern has the magnitude 0. -/
theorem units_zero (f : Format) : f.units 0 = 0 := by simp [Format.units]

/-- Zero rounds to the zero of either sign. -/
theorem roundsTo_zero (f : Format) (hE : 2 ≤ f.expBits) (neg : Bool) :
    RoundsTo f 0 (f.signPattern neg) := by
  have h4 : 4 ≤ 2 ^ f.expBits := Nat.pow_le_pow_right (n := 2) (by decide) hE
  have hi : 0 < f.infPattern := Nat.mul_pos (by omega) (Nat.two_pow_pos _)
  refine ⟨fun h => ?_, fun _ => ?_⟩
  · rw [abs_zero] at h; exact absurd h (not_le.2 (overflowBound_pos f hE))
  · obtain ⟨m, e, hu⟩ := unpack_fin f neg hi
    have hv : valueOf neg m e = 0 := by
      rw [(valueOf_unpack f hu).1, signPattern_eq, Nat.add_zero, Nat.mul_mod_left, units_zero]
      cases neg <;> simp [signedInt]
    refine ⟨neg, m, e, hu, fun h => absurd rfl h, fun q neg' m' e' _ => ?_⟩
    rw [hv, sub_zero, abs_zero, zero_sub, abs_neg]
    exact ⟨abs_nonneg _, fun h => .inl (abs_eq_zero.1 h.symm)⟩

/-- A number lies in the binade of its logarithm. -/
theorem log2_bounds {m : Nat} (h : m ≠ 0) : 2 ^ m.log2 ≤ m ∧ m < 2 ^ (m.log2 + 1) :=
  ⟨Nat.log2_self_le h, Nat.lt_log2_self⟩

/-- `pack` rounds a value `B` that is its significand, or that its odd, long enough significand
stands for. -/
theorem pack_near (f : Format) (hF : 1 ≤ f.fracBits) (hE : 2 ≤ f.expBits) (neg : Bool) {S : Nat}
    {e : Int} {B : ℚ}
    (hS : S ≠ 0)
    (hB : B = S ∨ (S % 2 = 1 ∧ (S : ℚ) - 1 < B ∧ B < S + 1 ∧ e + 2 ≤ f.unitExp S e)) :
    RoundsTo f ((if neg then -1 else 1) * B * 2 ^ e) (f.pack neg S e) := by
  obtain ⟨hl, hu⟩ := log2_bounds hS
  have hmin : f.minExp ≤ f.unitExp S e := le_max_right _ _
  have hue : e + S.log2 - f.fracBits ≤ f.unitExp S e := le_max_left _ _
  have hor : f.unitExp S e = f.minExp ∨ f.unitExp S e = e + S.log2 - f.fracBits :=
    (max_choice _ _).symm
  have hpack : f.pack neg S e = f.signPattern neg + min
    ((f.unitExp S e - f.minExp).toNat * 2 ^ f.fracBits + rneScale S
      (e - f.unitExp S e)) f.infPattern := by
    unfold Format.pack; rw [if_neg hS]
  have hn := rneScale_nearest S (e - f.unitExp S e)
  rw [hpack]
  generalize f.unitExp S e = u at *
  generalize rneScale S (e - u) = n at *
  obtain ⟨k, hk⟩ := Int.eq_ofNat_of_zero_le (sub_nonneg.2 hmin)
  rw [hk, Int.toNat_natCast]
  have hB0 : 0 < B := by
    have : (1 : ℚ) ≤ S := by exact_mod_cast Nat.one_le_iff_ne_zero.2 hS
    rcases hB with rfl | ⟨_, h, _⟩ <;> linarith
  have h2 : (2 : ℚ) ≠ 0 := by norm_num
  -- B units of 2^e, in units of 2^minExp
  have hy : B * 2 ^ e = B * 2 ^ (e - f.minExp) * 2 ^ f.minExp := by
    rw [mul_assoc, ← zpow_add₀ h2]; congr 2; omega
  have hyk : B * (2 : ℚ) ^ (e - f.minExp) / 2 ^ k = B * 2 ^ (e - u) := by
    rw [div_eq_mul_inv, ← zpow_natCast, ← zpow_neg, mul_assoc, ← zpow_add₀ h2]; congr 2; omega
  -- the bounds of S pass to B
  have hup : B < 2 ^ (u + f.fracBits + 1 - e) := by
    have hS2 : (S : ℚ) < 2 ^ (S.log2 + 1) := by exact_mod_cast hu
    have hle : (2 : ℚ) ^ ((S.log2 + 1 : Nat) : Int) ≤ 2 ^ (u + f.fracBits + 1 - e) :=
      zpow_le_zpow_right₀ (by norm_num) (by push_cast; omega)
    rw [zpow_natCast] at hle
    rcases hB with rfl | ⟨hodd, _, hlt, _⟩
    · linarith
    · have : S + 1 ≤ 2 ^ (S.log2 + 1) := hu
      have : (S : ℚ) + 1 ≤ 2 ^ (S.log2 + 1) := by exact_mod_cast this
      linarith
  have hlow : (k : Int) = 0 ∨ (2 : ℚ) ^ (u + f.fracBits - e) ≤ B := by
    rcases hor with h | h
    · left; omega
    · right
      have e1 : u + f.fracBits - e = (S.log2 : Int) := by omega
      rw [e1, zpow_natCast]
      rcases hB with rfl | ⟨hodd, hgt, _, hj⟩
      · exact_mod_cast hl
      · have hlog : S.log2 ≠ 0 := by omega
        have : 2 ^ S.log2 + 1 ≤ S := by
          obtain ⟨i, hi⟩ := Nat.exists_eq_succ_of_ne_zero hlog
          rw [hi, Nat.pow_succ] at hl ⊢; omega
        have : (2 : ℚ) ^ S.log2 + 1 ≤ S := by exact_mod_cast this
        linarith
  have hnB : NearestEven (B * 2 ^ (e - u)) n := by
    rcases hB with rfl | ⟨hodd, hgt, hlt, hj⟩
    · exact hn
    · obtain ⟨j, hjj⟩ := Int.eq_ofNat_of_zero_le (show 0 ≤ u - e by omega)
      have e2 : e - u = -(j : Int) := by omega
      rw [e2, zpow_neg, zpow_natCast, ← div_eq_mul_inv] at hn ⊢
      exact nearest_sticky hodd hgt hlt (by omega) hn
  rw [mul_assoc, hy, ← mul_assoc]
  have hpos : (0 : ℚ) < 2 ^ (e - f.minExp) := zpow_pos (by norm_num) _
  refine roundsTo_of_nearest f hF hE neg (mul_pos hB0 hpos) ?_ ?_ (by rw [hyk]; exact hnB)
  · rw [← zpow_natCast]
    have := mul_lt_mul_of_pos_right hup hpos
    rw [← zpow_add₀ h2] at this
    rwa [show ((f.fracBits + 1 + k : Nat) : Int) = u + f.fracBits + 1 - e +
      (e - f.minExp) by push_cast; omega]
  · refine hlow.imp (fun h => by exact_mod_cast h) fun h => ?_
    have := mul_le_mul_of_nonneg_right h hpos.le
    rw [← zpow_add₀ h2] at this
    rw [← zpow_natCast]
    rwa [show ((f.fracBits + k : Nat) : Int) = u + f.fracBits - e +
      (e - f.minExp) by push_cast; omega]

/-- `pack` rounds the value it is given, in both formats (00_scope.md R8, R11). -/
theorem pack_roundsTo (f : Format) (hF : 1 ≤ f.fracBits) (hE : 2 ≤ f.expBits) (neg : Bool)
    (m : Nat) (e : Int) :
    RoundsTo f (valueOf neg m e) (f.pack neg m e) := by
  by_cases hm : m = 0
  · subst hm
    have : valueOf neg 0 e = 0 := by cases neg <;> simp [valueOf, signedInt]
    rw [this, show f.pack neg 0 e = f.signPattern neg by simp [Format.pack]]
    exact roundsTo_zero f hE neg
  · have := pack_near f hF hE neg (e := e) hm (.inl rfl)
    have e1 : valueOf neg m e = (if neg then -1 else 1) * (m : ℚ) * 2 ^ e
      := by cases neg <;> simp [valueOf, signedInt]
    rwa [e1]

/-- A packed binary64 has 64 bits. -/
theorem pack64_lt (neg : Bool) (m : Nat) (e : Int) : binary64.pack neg m e < 2 ^ 64 := by
  have h := (pack_bounds binary64 neg m e).2
  have : binary64.signPattern neg + binary64.infPattern < 2 ^ 64 := by cases neg <;> decide
  omega

/-- A packed binary32 has 32 bits. -/
theorem pack32_lt (neg : Bool) (m : Nat) (e : Int) : binary32.pack neg m e < 2 ^ 32 := by
  have h := (pack_bounds binary32 neg m e).2
  have : binary32.signPattern neg + binary32.infPattern < 2 ^ 32 := by cases neg <;> decide
  omega

/-- The pattern of a rounded binary64. -/
theorem round64_toNat (neg : Bool) (m : Nat) (e : Int) :
    (round64 neg m e).toNat = binary64.pack neg m e := by
  rw [round64, BitVec.toNat_ofNat, Nat.mod_eq_of_lt (pack64_lt neg m e)]

/-- `round64` rounds its value to binary64 (00_scope.md R8). -/
theorem round64_roundsTo (neg : Bool) (m : Nat) (e : Int) :
    RoundsTo binary64 (valueOf neg m e) (round64 neg m e).toNat := by
  rw [round64_toNat]; exact pack_roundsTo binary64 (by decide) (by decide) neg m e

/-- Both zeros are the rounded 0. -/
theorem zero64_roundsTo (neg : Bool) : RoundsTo binary64 0 (zero64 neg).toNat := by
  have : (zero64 neg).toNat = binary64.signPattern neg := by cases neg <;> decide
  rw [this]; exact roundsTo_zero binary64 (by decide) neg

/-- A signed magnitude as a rational number. -/
theorem signedInt_cast (neg : Bool) (m : Nat) :
    ((signedInt neg m : Int) : ℚ) = (if neg then -1 else 1) * m := by
  cases neg <;> simp [signedInt]

/-- An integer is the signed magnitude of its sign and absolute value. -/
theorem signedInt_natAbs (z : Int) : signedInt (decide (z < 0)) z.natAbs = z := by
  unfold signedInt; split
  · next h => have := of_decide_eq_true h; omega
  · next h => simp only [decide_eq_true_eq] at h; omega

/-- The value of an integer significand. -/
theorem valueOf_ofInt (z : Int) (e : Int) : valueOf (decide (z < 0)) z.natAbs e = z * 2 ^ e := by
  rw [valueOf, signedInt_natAbs]

/-- A value written with a smaller exponent. -/
theorem valueOf_shift (neg : Bool) (m : Nat) {k e : Int} (h : k ≤ e) :
    valueOf neg m e = signedInt neg (m * 2 ^ (e - k).toNat) * 2 ^ k := by
  obtain ⟨j, hj⟩ := Int.eq_ofNat_of_zero_le (sub_nonneg.2 h)
  obtain rfl : e = k + j := by omega
  rw [hj, Int.toNat_natCast, valueOf, signedInt_cast, signedInt_cast, zpow_add₀ (by norm_num),
    zpow_natCast]
  push_cast; ring

/-- The fields of a pattern and of the pattern with the other sign. -/
theorem fneg_fields (b : F64) : (fneg b).toNat % 2 ^ 52 = b.toNat % 2 ^ 52
    ∧ (fneg b).toNat / 2 ^ 52 % 2 ^ 11 = b.toNat / 2 ^ 52 % 2 ^ 11
    ∧ (fneg b).toNat / 2 ^ 63 % 2 = 1 - b.toNat / 2 ^ 63 % 2 := by
  have hx : (fneg b).toNat = b.toNat ^^^ 2 ^ 63 := by rw [fneg, BitVec.toNat_xor]; rfl
  have h2 := Nat.mod_lt (b.toNat / 2 ^ 63) (show 0 < 2 by decide)
  rw [hx]
  refine ⟨?_, ?_, ?_⟩
  · rw [Nat.xor_mod_two_pow]; simp
  · rw [Nat.xor_div_two_pow, Nat.xor_mod_two_pow]; simp
  · rw [Nat.xor_div_two_pow, show (2 : Nat) ^ 63 / 2 ^ 63 = 1 from rfl]
    have := Nat.xor_mod_two_pow (a := b.toNat / 2 ^ 63) (b := 1) (n := 1)
    simp only [Nat.pow_one] at this
    rw [this]
    rcases (show b.toNat / 2 ^ 63 % 2 = 0 ∨ b.toNat / 2 ^ 63 % 2 = 1 by omega) with h | h
      <;> rw [h] <;> rfl

/-- The sign of a number, changed. -/
def Num.negate : Num → Num
  | .nan => .nan
  | .inf s => .inf (!s)
  | .fin s m e => .fin (!s) m e

/-- `fneg` changes the sign of the number and nothing else (00_scope.md R8). -/
theorem num64_fneg (b : F64) : num64 (fneg b) = (num64 b).negate := by
  obtain ⟨h1, h2, h3⟩ := fneg_fields b
  have h4 : ((fneg b).toNat / 2 ^ 63 % 2 == 1) = !(b.toNat / 2 ^ 63 % 2 == 1) := by
    rw [h3]
    rcases (show b.toNat / 2 ^ 63 % 2 = 0 ∨ b.toNat / 2 ^ 63 % 2 = 1 by omega) with h | h
      <;> rw [h] <;> rfl
  unfold num64 Format.unpack binary64
  simp only [h1, h2, h4, Nat.reduceAdd]
  split
  · split <;> rfl
  · split <;> rfl

/-- The other sign negates the value. -/
theorem valueOf_not (t : Bool) (n : Nat) (d : Int) : valueOf (!t) n d = - valueOf t n d := by
  cases t <;> simp [valueOf, signedInt]

/-- The product of two values. -/
theorem valueOf_mul (s t : Bool) (m n : Nat) (e d : Int) :
    valueOf (s ^^ t) (m * n) (e + d) = valueOf s m e * valueOf t n d := by
  unfold valueOf; rw [zpow_add₀ (by norm_num)]
  cases s <;> cases t <;> simp [signedInt] <;> ring

/-- A zero significand gives the zero of its sign. -/
theorem round64_zero (neg : Bool) (e : Int) : round64 neg 0 e = zero64 neg := by
  simp [round64, Format.pack, zero64]

/-- A value is 0 exactly when its significand is. -/
theorem valueOf_eq_zero {s : Bool} {m : Nat} {e : Int} : valueOf s m e = 0 ↔ m = 0 := by
  have : (2 : ℚ) ^ e ≠ 0 := zpow_ne_zero _ (by norm_num)
  cases s <;> simp [valueOf, signedInt, this]

/-- The significand of a binary64 has at most 53 bits. -/
theorem num64_significand {a : F64} {s m e} (ha : num64 a = .fin s m e) : m < 2 ^ 53 := by
  unfold num64 Format.unpack binary64 at ha
  simp only at ha
  have := Nat.mod_lt a.toNat (Nat.two_pow_pos 52)
  split at ha
  · split at ha <;> cases ha
  · split at ha <;> cases ha <;> omega

/-- The sticky quotient is twice the shifted quotient, or odd and strictly nearest around it, and it
has more than 58 bits. -/
theorem stickyQuotient_near {m n : Nat} (hm : m ≠ 0) (hn : n ≠ 0) (hn53 : n < 2 ^ 53) :
    2 ^ 58 ≤ stickyQuotient m n ∧
    ((2 * (m * 2 ^ divShift / n) : ℚ) = stickyQuotient m n ∨
      (stickyQuotient m n % 2 = 1 ∧ (stickyQuotient m n : ℚ) - 1 < 2 * (m * 2 ^ divShift / n)
        ∧ (2 * (m * 2 ^ divShift / n) : ℚ) < stickyQuotient m n + 1)) := by
  have hn0 : (0 : ℚ) < n := by exact_mod_cast Nat.pos_of_ne_zero hn
  have hdm := Nat.div_add_mod (m * 2 ^ divShift) n
  have hlt := Nat.mod_lt (m * 2 ^ divShift) (Nat.pos_of_ne_zero hn)
  have hq : 2 ^ 57 ≤ m * 2 ^ divShift / n := by
    rw [Nat.le_div_iff_mul_le (Nat.pos_of_ne_zero hn)]
    have h1 : 2 ^ 57 * n ≤ 2 ^ 110 := by omega
    have h2 : 1 * 2 ^ 110 ≤ m * 2 ^ 110 := Nat.mul_le_mul_right _ (by omega)
    exact h1.trans (by rw [divShift]; omega)
  have hX : ((m : ℚ) * 2 ^ divShift / n) = (m * 2 ^ divShift / n : Nat) +
    (m * 2 ^ divShift % n : Nat) / n := by
    rw [eq_comm, ← sub_eq_zero]; field_simp
    have : ((n : ℚ) * (m * 2 ^ divShift / n : Nat) + (m * 2 ^ divShift % n : Nat))
      = m * 2 ^ divShift := by exact_mod_cast hdm
    linarith
  rw [hX]
  unfold stickyQuotient
  generalize m * 2 ^ divShift / n = q at *
  generalize m * 2 ^ divShift % n = r at *
  split
  · next h => subst h; refine ⟨by omega, .inl (by push_cast; ring)⟩
  · next h =>
    have h1 : (0 : ℚ) < r / n := div_pos (by exact_mod_cast Nat.pos_of_ne_zero h) hn0
    have h2 : (r : ℚ) / n < 1 := by rw [div_lt_one hn0]; exact_mod_cast hlt
    refine ⟨by omega, .inr ⟨by omega, ?_, ?_⟩⟩ <;> push_cast <;> linarith

/-- A value as its sign times its magnitude. -/
theorem valueOf_sign (s : Bool) (m : Nat) (e : Int) :
    valueOf s m e = (if s then -1 else 1) * (m * 2 ^ e) := by
  rw [valueOf, signedInt_cast, mul_assoc]

/-- A number whose significand fits and whose exponent is far from both ends is kept by rounding. -/
theorem round64_exact (s : Bool) {m : Nat} {e : Int} (hm : m < 2 ^ 53) (h1 : -1022 ≤ e)
    (h2 : e ≤ 900) :
    ∃ m' e', num64 (round64 s m e) = .fin s m' e' ∧ valueOf s m' e' = valueOf s m e := by
  by_cases h0 : m = 0
  · subst h0; rw [round64_zero]
    refine ⟨0, -1074, by cases s <;> decide, ?_⟩
    rw [valueOf_eq_zero.2 rfl, valueOf_eq_zero.2 rfl]
  · obtain ⟨hl, hu⟩ := log2_bounds h0
    have hlog : m.log2 ≤ 52 := Nat.lt_succ_iff.1 ((Nat.log2_lt h0).2 hm)
    obtain ⟨i, hi⟩ : ∃ i, m.log2 + i = 52 := ⟨52 - m.log2, by omega⟩
    obtain ⟨k, hk⟩ := Int.eq_ofNat_of_zero_le (show 0 ≤ e + 1074 - i by omega)
    have hunit : binary64.unitExp m e = e - i := by
      have hme : binary64.minExp = -1074 := by decide
      rw [Format.unitExp, hme, max_eq_left] <;> simp only [binary64] <;> push_cast <;> omega
    have hrne : rneScale m (e - (e - i)) = m * 2 ^ i := by
      rw [rneScale, if_pos (by omega)]; congr 2; omega
    have hlo : 2 ^ 52 ≤ m * 2 ^ i := by rw [← hi, Nat.pow_add]; exact Nat.mul_le_mul_right _ hl
    have hhi : m * 2 ^ i ≤ 2 ^ 53 := by
      rw [show 53 = m.log2 + 1 + i by omega, Nat.pow_add _ _ i]; exact Nat.mul_le_mul_right _ hu.le
    have hp : k * 2 ^ 52 + m * 2 ^ i < binary64.infPattern := by
      have : binary64.infPattern = 2047 * 2 ^ 52 := by decide
      rw [this]; omega
    have hto : (round64 s m e).toNat = binary64.signPattern s + (k * 2 ^ 52 + m * 2 ^ i) := by
      rw [round64_toNat, Format.pack, if_neg h0]
      simp only
      rw [hunit, hrne, show (e - i - binary64.minExp).toNat
        = k by rw [show binary64.minExp = -1074 by decide]; omega]
      rw [show binary64.fracBits = 52 from rfl, min_eq_left hp.le]
    obtain ⟨m', e', hf⟩ := unpack_fin binary64 s hp
    refine ⟨m', e', by rw [num64, hto]; exact hf, ?_⟩
    have hlt : k * 2 ^ 52 + m * 2 ^ i < 2 ^ 63 := by
      have : binary64.infPattern < 2 ^ 63 := by decide
      omega
    have hun : binary64.units (k * 2 ^ 52 + m * 2 ^ i) = m * 2 ^ i * 2 ^ k :=
      units_canonical binary64 hhi (.inr hlo)
    have h2 : (2 : ℚ) ≠ 0 := by norm_num
    rw [(valueOf_unpack binary64 hf).1, signPattern_eq, show binary64.fracBits + binary64.expBits
      = 63 from rfl,
      Nat.mul_add_mod_self_right, Nat.mod_eq_of_lt hlt, hun, show binary64.minExp
        = -1074 by decide, valueOf_sign,
      signedInt_cast, show e = (i : Int) + k + (-1074) by omega, zpow_add₀ h2, zpow_add₀ h2,
        zpow_natCast, zpow_natCast]
    generalize (2 : ℚ) ^ (-1074 : Int) = unit
    push_cast; ring

/-- The significands and exponents of binary32. -/
theorem num32_range {b : F32} {s m e} (h : num32 b = .fin s m e) :
    m < 2 ^ 24 ∧ -149 ≤ e ∧ e ≤ 104 := by
  have hme : Format.minExp { fracBits := 23, expBits := 8 } = -149 := by decide
  unfold num32 Format.unpack binary32 at h
  simp only at h
  have := Nat.mod_lt b.toNat (Nat.two_pow_pos 23)
  have := Nat.mod_lt (b.toNat / 2 ^ 23) (Nat.two_pow_pos 8)
  split at h
  · split at h <;> cases h
  · split at h <;> cases h <;> refine ⟨by omega, by omega, by omega⟩

/-- Signed magnitudes compare as their units do. -/
theorem signedInt_units_le (f : Format) (s t : Bool) (p q : Nat) :
    signedInt s (f.units p) ≤ signedInt t (f.units q) ↔ signedInt s p ≤ signedInt t q := by
  have hz := units_zero f
  have hp : 0 < p → 0 < f.units p := fun h => by have := units_lt_units f h; omega
  have hq : 0 < q → 0 < f.units q := fun h => by have := units_lt_units f h; omega
  have hp0 : p = 0 → f.units p = 0 := fun h => h ▸ hz
  have hq0 : q = 0 → f.units q = 0 := fun h => h ▸ hz
  have hlt : p < q → f.units p < f.units q := units_lt_units f
  have hgt : q < p → f.units q < f.units p := units_lt_units f
  have heq : p = q → f.units p = f.units q := fun h => h ▸ rfl
  unfold signedInt
  cases s <;> cases t <;> simp only [Bool.false_eq_true, if_false, if_true] <;> constructor
    <;> intro h <;> omega

/-- Finite values compare as their order keys (00_scope.md R8). -/
theorem valueOf_le {a b : F64} {s m e t n d} (ha : num64 a = .fin s m e)
    (hb : num64 b = .fin t n d) :
    valueOf s m e ≤ valueOf t n d ↔ orderKey a ≤ orderKey b := by
  obtain ⟨h1, h2, _⟩ := valueOf_unpack binary64 ha
  obtain ⟨h3, h4, _⟩ := valueOf_unpack binary64 hb
  rw [h1, h3, mul_le_mul_iff_left₀ (unit_pos binary64), Int.cast_le, signedInt_units_le, orderKey,
    orderKey, h2, h4]
  rfl

end Sys2Proof.Machine
end

