-- ==== Sys2Proof/Tests/Slice0.lean ====
section
/-! SUPPORT. Tests of the model against the vectors of spec/95_test_vectors.md and the rules' own examples, each about one step or one operation; the smoke tests of WellFormed; and for every obligation with hypotheses a witness that meets them. -/

namespace Sys2Proof.Tests

-- One theorem after another, so that few threads wait for the kernel at a time.
set_option Elab.async false

open Sys2Proof Sys2Proof.Machine

/-! ### WellFormed: one ill-formed term for each check -/

theorem test_word_reserved_bit_refused : commandWordValid 0x00000042#32 = false := by decide
theorem test_word_reserved_op_refused : commandWordValid 0x00000004#32 = false := by decide
theorem test_word_rep_of_init_refused : commandWordValid 0x00000011#32 = false := by decide
theorem test_word_quant_f64_accepted : commandWordValid 0x00000033#32 = true := by decide

/-- Entry 0 of the fixture catalog. -/
def entry0 : FilterSpec :=
  { name := 2, targetRate := 0x40E5888000000000#64, tapCount := 2
    coefficients := [0x3FE0000000000000#64, 0xBFD0000000000000#64] }

theorem test_entry_accepted : entry0.wf 4 2 = true := by decide
theorem test_entry_name_refused : { entry0 with name := 4 }.wf 4 2 = false := by decide
theorem test_entry_rate_zero_refused : { entry0 with targetRate := 0 }.wf 4 2 = false := by decide
theorem test_entry_rate_infinite_refused :
    { entry0 with targetRate := 0x7FF0000000000000#64 }.wf 4 2 = false := by decide
theorem test_entry_coefficient_nan_refused :
    { entry0 with coefficients := [0, 0x7FF8000000000000#64] }.wf 4 2 = false := by decide
theorem test_entry_tap_count_refused : { entry0 with tapCount := 1 }.wf 4 2 = false := by decide
theorem test_entry_more_taps_than_cap_refused : entry0.wf 1 2 = false := by decide

theorem test_params_cap_refused : { Config.fixture with cap := 513 }.wf = false := by decide
theorem test_params_num_ns_refused : { Config.fixture with numNs := 254 }.wf = false := by decide
theorem test_params_ibuf_refused : { Config.fixture with ibufEntries := 0 }.wf = false := by decide
theorem test_params_obuf_refused : { Config.fixture with obufBytes := 12 }.wf = false := by decide
theorem test_params_catalog_refused : { Config.fixture with numNs := 1 }.wf = false := by decide
theorem test_build_refuses_bad_parameters :
    nextState (build { Config.fixture with cap := 0 }) = none := by decide

/-! ### Decoding: words from the fields of 30_encoding.md R120 and R124, RSV ++ REP ++ OP -/

theorem test_decode_nop : decode (0#26 ++ 0b00#2 ++ 0b0000#4) = .ok .nop := by decide
theorem test_decode_init : decode (0#26 ++ 0b00#2 ++ 0b0001#4) = .ok .init := by decide
theorem test_decode_fill_s16 : decode (0#26 ++ 0b00#2 ++ 0b0010#4) = .ok .fillS16 := by decide
theorem test_decode_fill_s32 : decode (0#26 ++ 0b01#2 ++ 0b0010#4) = .ok .fillS32 := by decide
theorem test_decode_fill_f32 : decode (0#26 ++ 0b10#2 ++ 0b0010#4) = .ok .fillF32 := by decide
theorem test_decode_fill_f64 : decode (0#26 ++ 0b11#2 ++ 0b0010#4) = .ok .fillF64 := by decide
theorem test_decode_quant_s16 : decode (0#26 ++ 0b00#2 ++ 0b0011#4) = .ok .quantS16 := by decide
theorem test_decode_quant_s32 : decode (0#26 ++ 0b01#2 ++ 0b0011#4) = .ok .quantS32 := by decide
theorem test_decode_quant_f32 : decode (0#26 ++ 0b10#2 ++ 0b0011#4) = .ok .quantF32 := by decide
theorem test_decode_quant_f64 : decode (0#26 ++ 0b11#2 ++ 0b0011#4) = .ok .quantF64 := by decide

/-- E-21, E-23 and E-28: each of the three illegal groups by its name. -/
theorem test_decode_illegal :
    decode 0x0000000F#32 = .error .reservedOp ∧ decode 0x00000011#32 = .error .repNotZero
      ∧ decode 0x80000002#32 = .error .reservedBits := by decide

theorem test_table_word : decodeTableWord 32 0x32 = some .fillF64 := by decide

/-! ### Arithmetic: the rules' own examples -/

/-- 00_scope.md R10: rne_int(2.5) = 2, rne_int(-0.5) = 0, rne_int(1.5) = 2. -/
theorem test_rne_int :
    rneInt 0x4004000000000000#64 = 2 ∧ rneInt 0xBFE0000000000000#64 = 0
      ∧ rneInt 0x3FF8000000000000#64 = 2 := by decide +kernel

/-- 43_quantize.md R230: Conv(S16, 32767.5) = 32767, Conv(S16, -32768.5) = -32768, Conv(S16, NaN) = 0. -/
theorem test_conv_s16 :
    conv .s16 0x40DFFFE000000000#64 = .int 32767 ∧ conv .s16 0xC0E0001000000000#64 = .int (-32768)
      ∧ conv .s16 0x7FF8000000000000#64 = .int 0 := by decide +kernel

/-- Q-7: 2^128 - 2^103 goes to +∞ as a binary32, one step below stays the largest finite one. -/
theorem test_rne_f32 :
    rneF32 0x47EFFFFFF0000000#64 = 0x7F800000#32 ∧ rneF32 0x47EFFFFFEFFFFFFF#64 = 0x7F7FFFFF#32 := by
  decide +kernel

/-- 40_catalog_and_init.md R158: 1 / 2^-1060 overflows to +∞ (I-13), and ∞ * 0 is the canonical NaN. -/
theorem test_float_corners :
    fdiv one64 0x0000000000004000#64 = 0x7FF0000000000000#64
      ∧ fmul 0x7FF0000000000000#64 0x8000000000000000#64 = 0x7FF8000000000000#64
      ∧ fsub 0x8000000000000000#64 0 = 0x8000000000000000#64 := by decide +kernel

/-! ### The generator (41_noise_generator.md R191, R197) -/

theorem test_first_draws :
    rect 0 = (0xBFD0E4432830E443#64, 0x3C6EF35F#32)
      ∧ tri 0 = (0xBFA5C26BA615C268#64, 0x47502932#32) := by decide +kernel

/-- G-8 and G-9: both ends of the closed range of Rect. -/
theorem test_rect_ends :
    rect 0x26F5B720#32 = (0x3FE0000000000000#64, 0xFFFFFFFF#32)
      ∧ rect 0x25D60FE5#32 = (0xBFE0000000000000#64, 0#32) := by decide +kernel

/-! ### Catalog lookup (L-1, L-3, L-4, L-7) -/

theorem test_lookup :
    (lookup Config.catalogTC 2 46305#32).map (·.tapCount) = some 2
      ∧ (lookup Config.catalogTC 2 46306#32).map (·.tapCount) = some 3
      ∧ (lookup Config.catalogTC 2 41894#32).map (·.tapCount) = none
      ∧ (lookup Config.catalogTC 2 45600#32).map (·.tapCount) = some 2 := by decide +kernel

/-! ### Commands -/

/-- N-1: STATUS after a NOP from reset. -/
theorem test_nop :
    (nextState (step (State.reset.withFetchWord 32 0x00000000))).map statusWord = some 0x2#32 := by
  decide +kernel

/-- The operands of I-2: NS_1, S16 to S16, 44100 Hz, STRENGTH 1.0. -/
def initState : State :=
  { State.reset with cfgMethod := 2, cfgFmt := 0x11, cfgRate := 44100, cfgStrengthHi := 0x3FF00000 }

/-- I-2. -/
theorem test_init_loads_filter :
    (nextState (exec .init initState)).map (fun t => (statusWord t, t.sMethod, t.sTaps, t.sScale, t.coef))
      = some (0x2#32, 2#8, 2#10, 0x3FF0000000000000#64,
          [0x3FE0000000000000#64, 0xBFD0000000000000#64, 0, 0]) := by decide +kernel

/-- I-5: the fallback. -/
theorem test_init_falls_back :
    (nextState (exec .init { initState with cfgMethod := 3, cfgRate := 48000 })).map
      (fun t => (statusWord t, t.sMethod, t.sTaps)) = some (0xA#32, 1#8, 0#10) := by decide +kernel

/-- The session of F-3 to F-6: TPDF_HP, SCALE 1.0, SEED 1, LEN 4. -/
def fillState : State :=
  { State.reset with sMethod := 1, sRatio := one64, sScale := one64, sInvScale := one64, sSeed := 1
                     len := 4 }

/-- The OBUF bytes and the SEED that an outcome leaves. -/
def obufAfter (o : Host.Outcome State Fault Refusal) : Option (List Byte × Word) :=
  (nextState o).map fun t => (t.mem.map (·.2), t.sSeed)

/-- F-3. -/
theorem test_fill_s16 : obufAfter (exec .fillS16 fillState) =
    some ([0, 0, 0, 0, 1, 0, 0xFF, 0xFF], 0x6C20F30D#32) := by decide +kernel

/-- F-4. -/
theorem test_fill_s32 : obufAfter (exec .fillS32 fillState) =
    some ([0, 0, 0, 0, 0, 0, 0, 0, 1, 0, 0, 0, 0xFF, 0xFF, 0xFF, 0xFF], 0x6C20F30D#32) := by
  decide +kernel

/-- F-5. -/
theorem test_fill_f32 : obufAfter (exec .fillF32 fillState) =
    some ([0x5C, 0xEA, 0xA8, 0x3C, 0x3A, 0x18, 0x89, 0xBE, 0xC8, 0x1B, 0x10, 0x3F, 0x83, 0x0B, 0x07,
      0xBF], 0x6C20F30D#32) := by decide +kernel

/-- F-1, its first value: RECT from SEED 0. -/
theorem test_fill_f64 :
    obufAfter (exec .fillF64 { fillState with sMethod := 0, sSeed := 0, len := 1 }) =
      some ([0x43, 0xE4, 0x30, 0x28, 0x43, 0xE4, 0xD0, 0xBF], 0xD1CCF6E9#32) := by decide +kernel

/-- A RECT session of strength 1.0 with RATIO `r` and the IBUF entries 0 and 1. -/
def quantState (r x0 x1 : F64) : State :=
  { State.reset with
    sMethod := 0, sRatio := r, sScale := r
    mem := memWrite (memWrite [] 0x10000 8 x0.toNat) 0x10008 8 x1.toNat }

/-- The value stored at OBUF byte 0 in `n` bytes, HIST[0], and STATUS.NAN. -/
def quantAfter (n : Nat) (o : Host.Outcome State Fault Refusal) : Option (Option Nat × F64 × Bool) :=
  (nextState o).map fun t => (memRead t.mem 0x20000 n, fileRead t.hist 0, t.nan)

/-- Q-8: NaN stores 0, records NaN and sets NAN. -/
theorem test_quant_s16 :
    quantAfter 2 (exec .quantS16 { quantState one64 0x7FF8000000000000#64 0 with len := 1 })
      = some (some 0, 0x7FF8000000000000#64, true) := by decide +kernel

/-- Q-3, its first sample: 0.5 stores 0x40000000. -/
theorem test_quant_s32 :
    quantAfter 4 (exec .quantS32 { quantState 0x3E00000000000000#64 0x3FE0000000000000#64 0 with len := 1 })
      = some (some 0x40000000, 0, false) := by decide +kernel

/-- Q-7, its first sample: 2^128 stores +∞ and records +∞. -/
theorem test_quant_f32 :
    quantAfter 4 (exec .quantF32 { quantState 0 0x47F0000000000000#64 0 with len := 1 })
      = some (some 0x7F800000, 0x7FF0000000000000#64, false) := by decide +kernel

/-- Q-6: 0.1 stores itself and records +0.0. -/
theorem test_quant_f64 :
    quantAfter 8 (exec .quantF64 { quantState 0 0x3FB999999999999A#64 0 with len := 1 })
      = some (some 0x3FB999999999999A, 0, false) := by decide +kernel

/-- E-32: a QUANT before any INIT is fatal. -/
theorem test_quant_fatal :
    (nextState (step (State.withFetchWord { State.reset with len := 1 } 32 3))).map
      (fun t => (statusWord t, t.errInfo)) = some (0x726#32, 3#32) := by decide +kernel

/-- 60_exceptions.md R277 (a): an entry that nothing has written. -/
theorem test_quant_unwritten_entry :
    exec .quantS16 { quantState one64 0 0 with inBase := 1, len := 2 }
      = .fault (.unwrittenIbuf 2) := by
  have h : (match exec .quantS16 { quantState one64 0 0 with inBase := 1, len := 2 } with
    | .fault (.unwrittenIbuf n) => n
    | _ => 0) = 2 := by decide +kernel
  revert h
  cases exec .quantS16 { quantState one64 0 0 with inBase := 1, len := 2 } with
  | next t => intro h; cases h
  | refused r => intro h; cases h
  | fault f => cases f; rintro rfl; rfl

/-! ### The bus -/

/-- A host write to a half of IBUF entry 0 is read back, and a misaligned read ends with ERROR. -/
theorem test_bus :
    (hostRead 0x10004 (hostWrite 0x10004 0x3FF00000 State.reset).2).1 = .read 0x3FF00000 .ok
      ∧ (hostRead 0x15 State.reset).1 = .read 0 .error
      ∧ (hostRead 0x20080 State.reset).1 = .read 0 .error := by decide +kernel

/-- The parameter registers of the fixture: CAP 4, NUM_NS 2, IBUF_ENTRIES 16, OBUF_BYTES 128. -/
theorem test_parameter_registers :
    (hostRead 0x004 State.reset).1 = .read 0x00020004 .ok
      ∧ (hostRead 0x008 State.reset).1 = .read 16 .ok
      ∧ (hostRead 0x00C State.reset).1 = .read 128 .ok := by decide +kernel

/-- 20_memory.md R90: the byte at the lowest address is bits 7:0 of the host's word, and the S16 sample at
offset 2 is bits 31:16. -/
theorem test_obuf_word_order :
    (hostRead 0x20000 { State.reset with
        mem := memWrite (memWrite [] 0x20000 2 0x1234) 0x20002 2 0xABCD }).1 =
      .read 0xABCD1234 .ok := by decide +kernel

/-! ### Witnesses: states and operands that meet the hypotheses of the obligations -/

theorem witness_DecodeAcceptsExactlyTheValidWords :
    (∃ w : Word, w = 0x00000033#32 ∧ w.extractLsb' 6 26 = 0 ∧ w.extractLsb' 0 4 = 3)
      ∧ (∃ w : Word, w = 0x00000001#32 ∧ w.extractLsb' 6 26 = 0 ∧ w.extractLsb' 0 4 = 1
          ∧ w.extractLsb' 4 2 = 0)
      ∧ (∃ w : Word, w = 0x00000010#32 ∧ ¬ (w.extractLsb' 6 26 = 0
          ∧ ((w.extractLsb' 0 4 = 0 ∨ w.extractLsb' 0 4 = 1) ∧ w.extractLsb' 4 2 = 0
            ∨ (w.extractLsb' 0 4 = 2 ∨ w.extractLsb' 0 4 = 3)))
          ∧ ∃ s : State, s.pend = w) :=
  ⟨⟨_, rfl, by decide, by decide⟩, ⟨_, rfl, by decide, by decide, by decide⟩,
    ⟨_, rfl, by decide, ⟨{ State.reset with pend := 0x00000010#32 }, rfl⟩⟩⟩

theorem witness_ResetMeetsTheInvariant :
    Config.fixture.wf = true
      ∧ Params.wf { cap := 512, numNs := 253, ibufEntries := 8192, obufBytes := 65536, catalog := [] }
        = true
      ∧ Params.wf { cap := 1, numNs := 1, ibufEntries := 1, obufBytes := 8, catalog := [] } = true := by
  decide

/-- A running session with a pending QUANT.S16 of one written entry. -/
def runningState : State :=
  { State.reset with
    sMethod := 2, sTaps := 2, sPos := 3, sRatio := 0x3FF0000000000000#64
    sScale := 0x3FF0000000000000#64, sInvScale := 0x3FF0000000000000#64
    coef := [0x3FE0000000000000#64, 0xBFD0000000000000#64, 0, 0]
    mem := memWrite [] 0x10000 8 0x4059133333333333, len := 1, pend := 3, busy := true }

theorem runningState_inv : runningState.Inv where
  params_wf := by decide
  coef_length := by decide
  hist_length := by decide
  pos_lt := by decide
  taps_le := by decide
  taps_shaping := by decide
  coef_zero := by
    intro k h1 h2
    have h3 : 2 ≤ k := h1
    have h4 : k < 4 := h2
    have h5 : k = 2 ∨ k = 3 := by omega
    rcases h5 with rfl | rfl <;> rfl
  ratio_known := ⟨1, 1, by decide, by decide, rfl⟩
  scale_product := ⟨0x3FF0000000000000#64, by decide +kernel, by decide +kernel⟩
  inv_scale := by decide +kernel
  method_known := by decide
  err_code := by decide
  fatal_idle := by decide
  mem_wf := by decide +kernel
  mem_mapped := by
    intro a h
    have hm : ∀ (l : Mem), (memByte l a).isSome = true → a ∈ l.map (·.1) := by
      intro l
      induction l with
      | nil => intro h; cases h
      | cons x l ih =>
        intro h
        by_cases hx : a = x.1
        · exact hx ▸ List.mem_cons_self ..
        · refine List.mem_cons_of_mem _ (ih ?_)
          simpa [memByte, hx] using h
    have hl : runningState.mem.map (·.1) =
        [0x10000, 0x10001, 0x10002, 0x10003, 0x10004, 0x10005, 0x10006, 0x10007] := by decide +kernel
    have h := hm _ h
    rw [hl] at h
    simp only [List.mem_cons, List.not_mem_nil, or_false] at h
    refine .inl ⟨?_, ?_⟩
    · show 0x10000 ≤ a; omega
    · show a < 0x10000 + 8 * 16; omega

theorem witness_EveryStepKeepsTheInvariant : ∃ s t : State, s.Inv ∧ step s = .next t := by
  refine ⟨runningState, ?_⟩
  have h : (nextState (step runningState)).isSome = true := by decide +kernel
  cases e : step runningState with
  | next t => exact ⟨t, runningState_inv, rfl⟩
  | fault f => rw [e] at h; cases h
  | refused r => rw [e] at h; cases h

theorem witness_PlatformTurnResetsTheBlock :
    ∃ (s : State) (rest : List Agent), s.turns = .platform :: rest :=
  ⟨{ runningState with turns := [.platform, .host] }, [.host], rfl⟩

theorem witness_StepRunsThePendingCommand :
    (∃ s : State, s.turns = [] ∧ whoMoves s = .block ∧ s.busy = true ∧ decode s.pend = .ok .quantS16)
      ∧ ∃ s : State, s.turns ≠ [] ∧ whoMoves s = .block ∧ s.busy = true
        ∧ decode s.pend = .ok .quantS16 :=
  ⟨⟨runningState, by decide⟩, ⟨{ runningState with turns := [.block] }, by decide⟩⟩

theorem witness_IllegalWordIsReported :
    (∃ s : State, 4 ≤ (s.pend.extractLsb' 0 4).toNat)
      ∧ (∃ s : State, (s.pend.extractLsb' 0 4).toNat ≤ 1 ∧ s.pend.extractLsb' 4 2 ≠ 0)
      ∧ ∃ s : State, s.pend.extractLsb' 6 26 ≠ 0 :=
  ⟨⟨{ State.reset with pend := 4 }, by decide⟩, ⟨{ State.reset with pend := 0x11 }, by decide⟩,
    ⟨{ State.reset with pend := 0x42 }, by decide⟩⟩

theorem witness_NopSetsDoneAndNothingElse : ∃ s : State, s.fatal = true :=
  ⟨{ State.reset with fatal := true }, rfl⟩

/-- I-20 to I-27: one state for each check, at the first value outside its range, the earlier checks
passed. -/
theorem witness_InitRejectsBadOperandsInOrder :
    (∃ s : State, s.cfgMethod.toNat = 2 + s.params.numNs ∧ 1 + s.params.numNs < s.cfgMethod.toNat)
      ∧ (∃ s : State, s.cfgMethod.toNat ≤ 1 + s.params.numNs ∧ 4 < srcCode s.cfgFmt)
      ∧ (∃ s : State, s.cfgMethod.toNat ≤ 1 + s.params.numNs ∧ 4 < dstCode s.cfgFmt)
      ∧ (∃ s : State, s.cfgMethod.toNat ≤ 1 + s.params.numNs ∧ srcCode s.cfgFmt ≤ 4
          ∧ dstCode s.cfgFmt ≤ 4 ∧ isNaN (strength s) = true)
      ∧ (∃ s : State, s.cfgMethod.toNat ≤ 1 + s.params.numNs ∧ srcCode s.cfgFmt ≤ 4
          ∧ dstCode s.cfgFmt ≤ 4 ∧ strength s = 0x7FF0000000000000#64)
      ∧ ∃ s : State, s.cfgMethod.toNat ≤ 1 + s.params.numNs ∧ srcCode s.cfgFmt ≤ 4
          ∧ dstCode s.cfgFmt ≤ 4 ∧ fle 0 (strength s) = false :=
  ⟨⟨{ initState with cfgMethod := 4 }, by decide⟩, ⟨{ initState with cfgFmt := 0x05 }, by decide⟩,
    ⟨{ initState with cfgFmt := 0x50 }, by decide⟩,
    ⟨{ initState with cfgStrengthHi := 0x7FF80000 }, by decide +kernel⟩,
    ⟨{ initState with cfgStrengthHi := 0x7FF00000 }, by decide +kernel⟩,
    ⟨{ initState with cfgStrengthHi := 0xBFF00000 }, by decide +kernel⟩⟩

theorem initState_ready : InitReady initState :=
  ⟨by decide, by decide, by decide +kernel⟩

/-- The reset operands, a strength of -0.0 and the last valid method and formats pass. -/
theorem witness_InitCompletesAndSetsTheSession :
    InitReady State.reset
      ∧ InitReady { initState with cfgMethod := 3, cfgFmt := 0x44, cfgStrengthHi := 0x80000000 } :=
  ⟨⟨by decide, by decide, by decide +kernel⟩, ⟨by decide, by decide, by decide +kernel⟩⟩

/-- The match test of 40_catalog_and_init.md R150, as the obligations write it. -/
def matchesAt (s : State) (d : FilterSpec) : Bool :=
  d.name == s.cfgMethod &&
    fle (fdiv (fabs (fsub (f64OfInt s.cfgRate.toNat) d.targetRate)) d.targetRate)
      0x3FA999999999999A#64

/-- L-3: the first match is entry 1, behind one entry of the same name. -/
theorem witness_InitLoadsTheFirstMatchingFilter :
    ∃ (s : State) (before after : List FilterSpec) (e : FilterSpec),
      InitReady s ∧ s.params.wf = true ∧ 2 ≤ s.cfgMethod.toNat
        ∧ s.params.catalog = before ++ e :: after ∧ before.all (fun d => !matchesAt s d) = true
        ∧ matchesAt s e = true :=
  ⟨{ initState with cfgRate := 46306 }, [entry0], Config.catalogTC.drop 2,
    { name := 2, targetRate := 0x40E7700000000000#64, tapCount := 3
      coefficients := [0x3FF0000000000000#64, 0x3FE0000000000000#64, 0x3FD0000000000000#64] },
    initState_ready, by decide, by decide, rfl, by decide +kernel, by decide +kernel⟩

/-- L-4. -/
theorem witness_InitFallsBackToTpdfHpWithWarning :
    ∃ s : State, InitReady s ∧ 2 ≤ s.cfgMethod.toNat
      ∧ s.params.catalog.all (fun d => !matchesAt s d) = true :=
  ⟨{ initState with cfgRate := 41894 }, initState_ready, by decide, by decide +kernel⟩

theorem witness_InitWithoutShapingLoadsNoFilter :
    ∃ s : State, InitReady s ∧ s.cfgMethod.toNat = 1 ∧ s.cfgMethod.toNat < 2 :=
  ⟨{ initState with cfgMethod := 1 }, ⟨by decide, by decide, by decide +kernel⟩, by decide, by decide⟩

theorem witness_InitFrame : ∃ s t : State, InitReady s ∧ exec .init s = .next t := by
  refine ⟨initState, ?_⟩
  have h : (nextState (exec .init initState)).isSome = true := by decide +kernel
  cases e : exec .init initState with
  | next t => exact ⟨t, initState_ready, rfl⟩
  | fault f => rw [e] at h; cases h
  | refused r => rw [e] at h; cases h

theorem witness_InitTwiceIsInitOnce : ∃ s t : State, InitReady s ∧ exec .init s = .next t :=
  witness_InitFrame

theorem witness_DrawFollowsTheMethod : ∃ m m' : BitVec 8, m = 0 ∧ m' ≠ 0 := ⟨0, 1, by decide⟩

/-- E-1, E-7 and E-36: one state for each check, the earlier checks passed. -/
theorem witness_FillReportsAlignThenRangeThenFatal :
    (∃ (rep : Rep) (s : State), s.outBase.toNat % width rep ≠ 0)
      ∧ (∃ (rep : Rep) (s : State), s.outBase.toNat % width rep = 0
          ∧ s.params.obufBytes < s.outBase.toNat + s.len.toNat * width rep)
      ∧ ∃ (rep : Rep) (s : State), s.outBase.toNat % width rep = 0
          ∧ s.outBase.toNat + s.len.toNat * width rep ≤ s.params.obufBytes
          ∧ 1 + s.params.numNs < s.sMethod.toNat :=
  ⟨⟨.f64, { fillState with outBase := 2 }, by decide⟩, ⟨.s16, { fillState with len := 65 }, by decide⟩,
    ⟨.s16, State.reset, by decide⟩⟩

/-- Every representation, LEN = 0 and a range that ends at the last byte (E-6). -/
theorem fillState_ready (rep : Rep) : FillReady rep fillState := by
  cases rep <;> exact ⟨by decide, by decide, by decide⟩

theorem witness_FillCompletesAfterTwoExtraDraws :
    (∀ rep, FillReady rep fillState) ∧ FillReady .s16 { fillState with len := 0 }
      ∧ FillReady .s16 { fillState with len := 64 } :=
  ⟨fillState_ready, ⟨by decide, by decide, by decide⟩, ⟨by decide, by decide, by decide⟩⟩

theorem witness_FillStoresTheScaledSlots :
    FillReady .f64 fillState ∧ 3 < fillState.len.toNat ∧ 7 < width .f64 :=
  ⟨fillState_ready .f64, by decide, by decide⟩

theorem witness_FillFrame : ∃ (rep : Rep) (s t : State) (a : Nat),
    FillReady rep s ∧ exec (fillInstr rep) s = .next t ∧ OutsideOutput rep s a :=
  ⟨.s16, fillState, fillRun .s16 fillState, 0x20008, fillState_ready .s16, rfl, .inr (by decide)⟩

/-- A NaN SCALE and an integer representation. -/
theorem witness_FillSetsNanForIntegerStoresOfNan : ∃ (rep : Rep) (s t : State),
    FillReady rep s ∧ exec (fillInstr rep) s = .next t ∧ (rep = .s16 ∨ rep = .s32)
      ∧ ∃ i < s.len.toNat, isNaN (fillOutput s i) = true :=
  ⟨.s32, { fillState with sScale := 0x7FF8000000000000#64 }, _,
    ⟨by decide, by decide, by decide⟩, rfl, .inr rfl, 0, by decide, by decide +kernel⟩

theorem witness_FillDependsOnlyOnItsOperands : ∃ (rep : Rep) (s s' : State) (a : Nat),
    FillReady rep s ∧ s'.params = s.params ∧ s'.sMethod = s.sMethod ∧ s'.sScale = s.sScale
      ∧ s'.sSeed = s.sSeed ∧ s'.len = s.len ∧ s'.outBase = s.outBase ∧ s' ≠ s
      ∧ ¬ OutsideOutput rep s a :=
  ⟨.s16, fillState, { fillState with hist := [one64, 0, 0, 0], irqEn := 1, sTaps := 3 }, 0x20000,
    fillState_ready .s16, rfl, rfl, rfl, rfl, rfl, rfl, by decide,
    by rintro (h | h) <;> exact absurd h (by decide)⟩

/-- E-1, E-4, E-5, E-7 and a QUANT before any INIT. -/
theorem witness_QuantReportsAlignThenRangeThenFatal :
    (∃ (rep : Rep) (s : State), s.outBase.toNat % width rep ≠ 0)
      ∧ (∃ (rep : Rep) (s : State), s.outBase.toNat % width rep = 0
          ∧ s.params.ibufEntries < s.inBase.toNat + s.len.toNat)
      ∧ (∃ (rep : Rep) (s : State), s.outBase.toNat % width rep = 0
          ∧ s.params.obufBytes < s.outBase.toNat + s.len.toNat * width rep)
      ∧ ∃ (rep : Rep) (s : State), s.outBase.toNat % width rep = 0
          ∧ s.inBase.toNat + s.len.toNat ≤ s.params.ibufEntries
          ∧ s.outBase.toNat + s.len.toNat * width rep ≤ s.params.obufBytes
          ∧ 1 + s.params.numNs < s.sMethod.toNat :=
  ⟨⟨.f64, { runningState with outBase := 2 }, by decide⟩,
    ⟨.s16, { runningState with inBase := 16 }, by decide⟩,
    ⟨.s16, { runningState with outBase := 128 }, by decide⟩, ⟨.s16, State.reset, by decide⟩⟩

theorem runningState_pass (rep : Rep) : QuantChecksPass rep runningState := by
  cases rep <;> exact ⟨by decide, by decide, by decide, by decide⟩

theorem runningState_written : EntryWritten runningState 0 := by
  unfold EntryWritten; decide +kernel

theorem runningState_ready (rep : Rep) : QuantReady rep runningState := by
  refine ⟨runningState_pass rep, fun i hi => ?_⟩
  have h : i < 1 := hi
  obtain rfl : i = 0 := by omega
  exact runningState_written

/-- The first entry is written and the second is not. -/
theorem witness_QuantFaultsAtTheFirstUnwrittenEntry : ∃ (rep : Rep) (s : State) (i : Nat),
    s.params.wf = true ∧ QuantChecksPass rep s ∧ i < s.len.toNat ∧ (∀ j < i, EntryWritten s j)
      ∧ ¬ EntryWritten s i := by
  refine ⟨.s16, { runningState with len := 2 }, 1, by decide,
    ⟨by decide, by decide, by decide, by decide⟩, by decide, fun j hj => ?_, ?_⟩
  · obtain rfl : j = 0 := by omega
    exact runningState_written
  · unfold EntryWritten; decide +kernel

theorem witness_QuantCompletesAndMovesPosAndSeed : ∀ rep : Rep,
    runningState.params.wf = true ∧ runningState.sPos.toNat < runningState.params.cap
      ∧ QuantReady rep runningState :=
  fun rep => ⟨by decide, by decide, runningState_ready rep⟩

theorem witness_QuantOfOneSampleFollowsTheCycle : ∀ rep : Rep,
    runningState.params.wf = true ∧ QuantChecksPass rep runningState ∧ runningState.len = 1
      ∧ ibufRead runningState.mem runningState.inBase.toNat = some 0x4059133333333333#64 :=
  fun rep => ⟨by decide, runningState_pass rep, by decide, by decide +kernel⟩

theorem witness_QuantOfAStreamSplitsInTwo : ∃ (rep : Rep) (s : State) (a b : Nat),
    s.params.wf = true ∧ QuantReady rep s ∧ s.len.toNat = a + b ∧ 0 < a ∧ 0 < b := by
  refine ⟨.s16, { runningState with mem := memWrite runningState.mem 0x10008 8 0, len := 2 }, 1, 1,
    by decide, ⟨⟨by decide, by decide, by decide, by decide⟩, fun i hi => ?_⟩, by decide, by decide,
    by decide⟩
  have h : i < 2 := hi
  have h2 : i = 0 ∨ i = 1 := by omega
  unfold EntryWritten
  rcases h2 with rfl | rfl <;> decide +kernel

theorem runningState_next : ∃ t : State, exec .quantS16 runningState = .next t := by
  have h : (nextState (exec .quantS16 runningState)).isSome = true := by decide +kernel
  cases e : exec .quantS16 runningState with
  | next t => exact ⟨t, rfl⟩
  | fault f => rw [e] at h; cases h
  | refused r => rw [e] at h; cases h

theorem witness_QuantFrame : ∃ (rep : Rep) (s t : State) (a : Nat),
    QuantChecksPass rep s ∧ exec (quantInstr rep) s = .next t ∧ OutsideOutput rep s a := by
  obtain ⟨t, h⟩ := runningState_next
  exact ⟨.s16, runningState, t, 0x20002, runningState_pass .s16, h, .inr (by decide)⟩

/-- E-9: LEN = 0 at the ends of both buffers, IBUF unwritten. -/
theorem witness_QuantOfNoSamplesSetsDoneOnly : ∃ (rep : Rep) (s : State),
    QuantChecksPass rep s ∧ s.len = 0 :=
  ⟨.s16, { fillState with len := 0, inBase := 16, outBase := 128 },
    ⟨by decide, by decide, by decide, by decide⟩, rfl⟩

theorem witness_QuantDependsOnlyOnItsOperands : ∃ (rep : Rep) (s s' : State) (a : Nat),
    s.params.wf = true ∧ QuantReady rep s ∧ s'.params = s.params ∧ s'.len = s.len
      ∧ s'.inBase = s.inBase ∧ s'.outBase = s.outBase ∧ s'.sMethod = s.sMethod
      ∧ s'.sTaps = s.sTaps ∧ s'.sPos = s.sPos ∧ s'.sSeed = s.sSeed ∧ s'.sRatio = s.sRatio
      ∧ s'.sScale = s.sScale ∧ s'.coef = s.coef ∧ s'.hist = s.hist
      ∧ (∀ i < s.len.toNat,
        ibufRead s'.mem (s.inBase.toNat + i) = ibufRead s.mem (s.inBase.toNat + i))
      ∧ s' ≠ s ∧ ¬ OutsideOutput rep s a :=
  ⟨.s16, runningState, { runningState with cfgRate := 1, done := true, irqEn := 3, errInfo := 5 },
    0x20000, by decide, runningState_ready .s16, rfl, rfl, rfl, rfl, rfl, rfl, rfl, rfl, rfl, rfl, rfl,
    rfl, fun _ _ => rfl, by decide +kernel, by rintro (h | h) <;> exact absurd h (by decide)⟩

/-- The clauses on a NaN, on ±∞ and on a finite value below, above and inside the range, and the first
rounded values outside it. -/
theorem witness_IntegerStoresRoundThenSaturate :
    isNaN 0x7FF8000000000000#64 = true
      ∧ num64 0xC0E0001000000000#64 = .fin true 4503668346847232 (-37)
      ∧ rneInt 0xC0E0002000000000#64 = -32769 ∧ rneInt 0x40DFFFE000000000#64 = 32768
      ∧ rneInt 0x40DFFFC000000000#64 = 32767 := by decide +kernel

theorem witness_FloatStoresNeverSetNan : ∃ (rep : Rep) (s t : State),
    (rep = .f32 ∨ rep = .f64) ∧ exec (fillInstr rep) s = .next t :=
  ⟨.f32, fillState, fillRun .f32 fillState, .inl rfl, rfl⟩

/-- 2.5 as `m * 2^e` with e < 0, a tie, and 2^53 with e >= 0. -/
theorem witness_RneIntIsNearestTiesToEven :
    num64 0x4004000000000000#64 = .fin false 5629499534213120 (-51)
      ∧ num64 0x4340000000000000#64 = .fin false 4503599627370496 1
      ∧ 2 * (rneInt 0x4004000000000000#64 * 2 ^ (51 : Nat) - signedInt false 5629499534213120).natAbs
        = 2 ^ (51 : Nat) := by decide +kernel

/-- The smallest subnormal, the largest finite value and -0.0, which is also a sum, a product and a
quotient that are exactly zero; and the last integer that is exact. -/
theorem witness_RoundingKeepsRepresentableValues :
    num64 0x0000000000000001#64 = .fin false 1 (-1074)
      ∧ num64 0x7FEFFFFFFFFFFFFF#64 = .fin false 9007199254740991 971
      ∧ num64 0x8000000000000000#64 = .fin true 0 (-1074)
      ∧ valueOf true 0 (-1074) = 0 ∧ (∀ e : Int, valueOf false 1 e ≠ 0)
      ∧ (9007199254740992 : Int).natAbs ≤ 2 ^ 53 :=
  ⟨by decide +kernel, by decide +kernel, by decide +kernel, by simp [valueOf, signedInt],
    fun e => by simp [valueOf, signedInt, zpow_ne_zero], by decide⟩

/-- A NaN result of each operation; an infinity, a zero and a finite value of either sign as operands. -/
theorem witness_ArithmeticNansAreCanonical :
    isNaN (fadd 0x7FF0000000000000#64 0xFFF0000000000000#64) = true
      ∧ isNaN (fsub 0x7FF0000000000000#64 0x7FF0000000000000#64) = true
      ∧ isNaN (fmul 0x7FF0000000000000#64 0) = true ∧ isNaN (fdiv 0 0) = true
      ∧ isNaN 0xFFF0000000000001#64 = true
      ∧ num64 0x7FF0000000000000#64 = .inf false ∧ num64 0xFFF0000000000000#64 = .inf true
      ∧ num64 0x8000000000000000#64 = .fin true 0 (-1074)
      ∧ num64 0x7FEFFFFFFFFFFFFF#64 = .fin false 9007199254740991 971
      ∧ isNaN 0x7FEFFFFFFFFFFFFF#64 = false
      ∧ num32 (rneF32 0x7FF8000000000000#64) = .nan := by decide +kernel

/-- A NaN, the first value that overflows, the last that does not, a negative zero; and as binary32 the
largest finite value, an infinity and a NaN. -/
theorem witness_F32StoreOverflowsToInfinity :
    isNaN 0xFFF8000000000000#64 = true ∧ isNaN 0x47EFFFFFF0000000#64 = false
      ∧ 0x47EFFFFFF0000000 ≤ (0xC7EFFFFFF0000000#64).toNat % 2 ^ 63
      ∧ (0x47EFFFFFEFFFFFFF#64).toNat % 2 ^ 63 < 0x47EFFFFFF0000000
      ∧ num64 0x47EFFFFFEFFFFFFF#64 = .fin false 9007198986305535 75
      ∧ feq 0x8000000000000000#64 0 = true
      ∧ num32 0x7F7FFFFF#32 = .fin false 16777215 104
      ∧ num32 0xFF800000#32 = .inf true ∧ num32 0x7FC00000#32 = .nan := by decide +kernel

/-- The first and the last reserved offset, and the parameters at their limits. -/
theorem witness_RegistersFollowTheirAccessTypes :
    (∃ a : Addr, a = 0x02C ∧ a.toNat % 4 = 0 ∧ a.toNat < 0x1000)
      ∧ (∃ a : Addr, a = 0xFFC ∧ a.toNat % 4 = 0 ∧ a.toNat < 0x1000 ∧ 0x080 ≤ a.toNat)
      ∧ State.reset.params.wf = true
      ∧ (State.resetOf
          { cap := 512, numNs := 253, ibufEntries := 8192, obufBytes := 65536, catalog := [] }).params.wf
        = true :=
  ⟨⟨_, rfl, by decide, by decide⟩, ⟨_, rfl, by decide, by decide, by decide⟩, by decide, by decide⟩

/-- A transaction that is held, one that is not, a held one while BUSY, a held one after, one that is
issued with BUSY = 0, a WAIT, a host with nothing to do; the host's turn, fixed and by default. -/
theorem witness_BusyHoldsTheHostsTransactions :
    (∃ (s : State) (t : Txn) (rest : List HostOp), s.busy = true ∧ s.held = none
        ∧ s.hostQueue = .txn t :: rest
        ∧ txnAddr t ∉ [0x000, 0x004, 0x008, 0x00C, 0x014, 0x018])
      ∧ (∃ (s : State) (t : Txn) (rest : List HostOp), s.busy = true ∧ s.held = none
        ∧ s.hostQueue = .txn t :: rest
        ∧ txnAddr t ∈ [0x000, 0x004, 0x008, 0x00C, 0x014, 0x018])
      ∧ (∃ (s : State) (t : Txn), s.busy = true ∧ s.held = some t)
      ∧ (∃ (s : State) (t : Txn), s.busy = false ∧ s.held = some t)
      ∧ (∃ (s : State) (t : Txn) (rest : List HostOp), s.busy = false ∧ s.held = none
        ∧ s.hostQueue = .txn t :: rest)
      ∧ (∃ (s : State) (rest : List HostOp), s.busy = true ∧ s.held = none
        ∧ s.hostQueue = .wait :: rest)
      ∧ (∃ s : State, s.held = none ∧ s.hostQueue = [] ∧ s.turns = [] ∧ whoMoves s = .host)
      ∧ ∃ (s : State) (gs : List Agent), s.turns = .host :: gs ∧ whoMoves s = .host :=
  ⟨⟨{ runningState with hostQueue := [.txn (.read 0x01C)] }, .read 0x01C, [],
      by decide, rfl, rfl, by decide⟩,
    ⟨{ runningState with hostQueue := [.txn (.write 0x018 2)] }, .write 0x018 2, [],
      by decide, rfl, rfl, by decide⟩,
    ⟨{ runningState with held := some (.read 0x020) }, .read 0x020, rfl, rfl⟩,
    ⟨{ State.reset with held := some (.read 0x020) }, .read 0x020, rfl, rfl⟩,
    ⟨{ State.reset with hostQueue := [.txn (.write 0x020 4)] }, .write 0x020 4, [], rfl, rfl, rfl⟩,
    ⟨{ runningState with hostQueue := [.wait] }, [], rfl, rfl, rfl⟩,
    ⟨State.reset, rfl, rfl, rfl, rfl⟩,
    ⟨{ runningState with turns := [.host] }, [], rfl, rfl⟩⟩

theorem witness_MisalignedTransactionsEndWithError :
    ∃ a : Addr, a = 0x3FFFF ∧ a.toNat % 4 ≠ 0 := ⟨_, rfl, by decide⟩

/-- The ends of the unmapped ranges, and the first entry or word past each of the fixture's sizes. -/
theorem witness_UnmappedTransactionsEndWithError :
    (0x03000 ≤ (0x0FFFC : Addr).toNat ∧ (0x0FFFC : Addr).toNat < 0x10000)
      ∧ 0x30000 ≤ (0x30000 : Addr).toNat
      ∧ (0x01000 ≤ (0x01020 : Addr).toNat ∧ (0x01020 : Addr).toNat < 0x02000
        ∧ State.reset.params.cap ≤ ((0x01020 : Addr).toNat - 0x01000) / 8)
      ∧ (0x02000 ≤ (0x02020 : Addr).toNat ∧ (0x02020 : Addr).toNat < 0x03000
        ∧ State.reset.params.cap ≤ ((0x02020 : Addr).toNat - 0x02000) / 8)
      ∧ (0x10000 ≤ (0x10080 : Addr).toNat ∧ (0x10080 : Addr).toNat < 0x20000
        ∧ State.reset.params.ibufEntries ≤ ((0x10080 : Addr).toNat - 0x10000) / 8)
      ∧ (0x20000 ≤ (0x20080 : Addr).toNat ∧ (0x20080 : Addr).toNat < 0x30000
        ∧ State.reset.params.obufBytes ≤ (0x20080 : Addr).toNat - 0x20000 + 3) := by decide

theorem witness_WindowsShowCoefAndHist :
    State.reset.params.wf = true ∧ 3 < State.reset.params.cap := by decide

theorem witness_IbufEntryIsItsTwoHalves :
    State.reset.params.wf = true ∧ 15 < State.reset.params.ibufEntries := by decide

/-- The first and the last word of IBUF and of OBUF in the fixture, and a state in which the four bytes
of one have been written. -/
theorem witness_BufferWordReadsBackAsWritten :
    ((0x10000 : Addr).toNat % 4 = 0 ∧ 0x10000 ≤ (0x10000 : Addr).toNat
        ∧ (0x10000 : Addr).toNat < 0x20000
        ∧ ((0x10000 : Addr).toNat - 0x10000) / 8 < State.reset.params.ibufEntries)
      ∧ ((0x1007C : Addr).toNat % 4 = 0 ∧ 0x10000 ≤ (0x1007C : Addr).toNat
        ∧ (0x1007C : Addr).toNat < 0x20000
        ∧ ((0x1007C : Addr).toNat - 0x10000) / 8 < State.reset.params.ibufEntries)
      ∧ ((0x20000 : Addr).toNat % 4 = 0 ∧ 0x20000 ≤ (0x20000 : Addr).toNat
        ∧ (0x20000 : Addr).toNat < 0x30000
        ∧ (0x20000 : Addr).toNat - 0x20000 + 3 < State.reset.params.obufBytes)
      ∧ ((0x2007C : Addr).toNat % 4 = 0 ∧ 0x20000 ≤ (0x2007C : Addr).toNat
        ∧ (0x2007C : Addr).toNat < 0x30000
        ∧ (0x2007C : Addr).toNat - 0x20000 + 3 < State.reset.params.obufBytes)
      ∧ memByte runningState.mem 0x10000 = some 0x33 ∧ memByte runningState.mem 0x10001 = some 0x33
      ∧ memByte runningState.mem 0x10002 = some 0x33 ∧ memByte runningState.mem 0x10003 = some 0x33 := by
  decide +kernel

theorem witness_TransactionsNeverWriteTheSession :
    ∃ (t : Txn) (s s' : State), (transact t s).2 = s' := ⟨.write 0x014 0x1E, runningState, _, rfl⟩

theorem witness_CommandsNeverWriteTheHostsRegisters :
    ∃ (i : Instr) (s t : State), exec i s = .next t :=
  ⟨.fillS16, fillState, fillRun .s16 fillState, rfl⟩

theorem witness_OnlyInitWritesTheSessionSetup :
    (∃ (i : Instr) (s t : State), i ≠ .init ∧ exec i s = .next t)
      ∧ ∃ (i : Instr) (s t : State), i ≠ .init ∧ exec i s = .next t ∧ ∀ rep, i ≠ quantInstr rep := by
  obtain ⟨t, h⟩ := runningState_next
  exact ⟨⟨.quantS16, runningState, t, by decide, h⟩,
    ⟨.fillS16, fillState, fillRun .s16 fillState, by decide, rfl, fun rep => by cases rep <;> decide⟩⟩

theorem witness_NoCommandWritesIbuf :
    ∃ (i : Instr) (s t : State) (a : Nat), exec i s = .next t ∧ a < 0x20000 :=
  ⟨.fillS16, fillState, fillRun .s16 fillState, 0x1FFFF, rfl, by decide⟩

/-- E-33: a fatal state with no command pending, on the host's turn and on the block's. -/
theorem witness_FatalIsLeftOnlyByReset :
    (∃ s t : State, s.fatal = true ∧ s.busy = false ∧ whoMoves s ≠ .platform ∧ step s = .next t)
      ∧ ∃ s t : State, s.fatal = true ∧ s.busy = false ∧ whoMoves s = .block ∧ step s = .next t :=
  ⟨⟨{ State.reset with fatal := true, hostQueue := [.txn (.write 0x010 0)] }, _, rfl, rfl, by decide, rfl⟩,
    ⟨{ State.reset with fatal := true, turns := [.block] }, _, rfl, rfl, by decide, rfl⟩⟩

theorem witness_FatalComesOnlyFromAnInvalidMethod : ∃ (i : Instr) (s t : State),
    s.fatal = false ∧ exec i s = .next t ∧ t.fatal = true :=
  ⟨.quantS16, State.reset, raiseFatal State.reset, rfl, rfl, rfl⟩

end Sys2Proof.Tests
end

section
/-! PROOFS. `rne_int` (00_scope.md R10): the rounding to nearest of the rounding laws, read in integers, and O39. -/

namespace Sys2Proof.Machine

/-- What a finite number rounds to (00_scope.md R10). -/
theorem rneInt_of_fin {v : F64} {s : Bool} {m : Nat} {e : Int} (h : num64 v = .fin s m e) :
    rneInt v = signedInt s (rneScale m e) := by
  rw [rneInt, h]

/-- The sign passes through a product. -/
theorem signedInt_mul (s : Bool) (m n : Nat) : signedInt s (m * n) = signedInt s m * n := by
  cases s <;> simp [signedInt]

/-- Two numbers of one sign are as far apart as their magnitudes. -/
theorem natAbs_signedInt_sub (s : Bool) (p q : Nat) :
    (signedInt s p - signedInt s q).natAbs = ((p : Int) - q).natAbs := by
  cases s
  · rfl
  · simp only [signedInt, if_true]; omega

/-- A sign keeps the parity. -/
theorem signedInt_emod_two {s : Bool} {q : Nat} (h : q % 2 = 0) : signedInt s q % 2 = 0 := by
  cases s <;> simp only [signedInt, Bool.false_eq_true, if_false, if_true] <;> omega

/-- To be nearest to a quotient by a power of two, with the denominator cleared. -/
theorem NearestEven.natAbs_le {m d n : Nat} (h : NearestEven ((m : ℚ) / 2 ^ d) n) :
    2 * (((n * 2 ^ d : Nat) : Int) - m).natAbs ≤ 2 ^ d
      ∧ (2 * (((n * 2 ^ d : Nat) : Int) - m).natAbs = 2 ^ d → n % 2 = 0) := by
  obtain ⟨hle, htie⟩ := h
  have hp : (0 : ℚ) < 2 ^ d := by positivity
  have hcast : ((2 * (((n * 2 ^ d : Nat) : Int) - m).natAbs : Nat) : ℚ)
      = 2 * |(m : ℚ) / 2 ^ d - n| * 2 ^ d := by
    rw [show (m : ℚ) / 2 ^ d - n = -(n * 2 ^ d - m) / 2 ^ d by field_simp; ring, abs_div, abs_neg,
      abs_of_pos hp, mul_assoc, div_mul_cancel₀ _ hp.ne']
    push_cast [Nat.cast_natAbs]
    rfl
  constructor
  · rw [← Nat.cast_le (α := ℚ), hcast, Nat.cast_pow, Nat.cast_ofNat]
    exact mul_le_of_le_one_left hp.le (by linarith)
  · rw [← Nat.cast_inj (R := ℚ), hcast, Nat.cast_pow, Nat.cast_ofNat, mul_eq_right₀ hp.ne']
    exact fun h => htie (by linarith)

/-- Settles O39: the magnitude is shifted to the nearest integer and takes the sign of the value. -/
theorem rneIntIsNearestTiesToEven : Obligations.RneIntIsNearestTiesToEven := by
  intro v s m e hv
  rw [rneInt_of_fin hv]
  constructor
  · intro he
    rw [rneScale, if_pos he, signedInt_mul, Nat.cast_pow, Nat.cast_ofNat]
  · intro he
    obtain ⟨hle, htie⟩ := (rneShift_nearest m (-e).toNat).natAbs_le
    have hdist : signedInt s (rneShift m (-e).toNat) * 2 ^ (-e).toNat
        = signedInt s (rneShift m (-e).toNat * 2 ^ (-e).toNat) := by
      rw [signedInt_mul, Nat.cast_pow, Nat.cast_ofNat]
    rw [rneScale, if_neg (not_le.2 he), hdist, natAbs_signedInt_sub]
    exact ⟨hle, fun h => signedInt_emod_two (htie h)⟩

end Sys2Proof.Machine
end

section
/-! PROOFS. Arithmetic on finite binary64 numbers (00_scope.md R8): the fields of a pattern, the round trip of `pack` and `unpack`, one law per operation, and O40. -/

namespace Sys2Proof.Machine

/-- The number of a binary64 by its fields, the exponent with its bias taken off. -/
theorem num64_eq_fields (v : F64) :
    num64 v =
      if (v.extractLsb' 52 11).toNat = 2047 then
        if (v.extractLsb' 0 52).toNat = 0 then .inf (v.getLsbD 63) else .nan
      else if (v.extractLsb' 52 11).toNat = 0 then
        .fin (v.getLsbD 63) (v.extractLsb' 0 52).toNat (-1074)
      else .fin (v.getLsbD 63) (2 ^ 52 + (v.extractLsb' 0 52).toNat)
        ((v.extractLsb' 52 11).toNat - 1075) := by
  have hsign : v.getLsbD 63 = (v.toNat / 2 ^ 63 % 2 == 1) := by
    rw [BitVec.getLsbD, Nat.testBit_eq_decide_div_mod_eq, beq_eq_decide]
  have hmin : binary64.minExp = -1074 := by decide
  rw [hsign, BitVec.extractLsb'_toNat, BitVec.extractLsb'_toNat, Nat.shiftRight_zero,
    Nat.shiftRight_eq_div_pow, num64, Format.unpack, hmin]
  simp only [binary64, Nat.reduceAdd, Nat.reducePow, Nat.reduceSub]
  refine ite_congr rfl (fun _ => rfl) fun _ => ite_congr rfl (fun _ => rfl) fun hex => ?_
  congr 1; omega

/-- A finite pattern holds a subnormal significand with the least exponent, or a full one; its
magnitude bits are the exponent's distance from the least one, added onto the significand. -/
theorem unpack_canonical (f : Format) {b : Nat} {s : Bool} {m : Nat} {e : Int}
    (h : f.unpack b = .fin s m e) :
    ∃ k : Nat, e = f.minExp + k ∧ m < 2 ^ (f.fracBits + 1) ∧ (k = 0 ∨ 2 ^ f.fracBits ≤ m)
      ∧ k * 2 ^ f.fracBits + m = b % 2 ^ (f.fracBits + f.expBits) := by
  obtain ⟨hfrac, hexp⟩ := sign_fields f b
  have hlt := Nat.mod_lt b (Nat.two_pow_pos f.fracBits)
  have hsum := Nat.div_add_mod (b % 2 ^ (f.fracBits + f.expBits)) (2 ^ f.fracBits)
  rw [hexp, hfrac] at hsum
  rw [← hsum, Nat.pow_succ]
  unfold Format.unpack at h
  simp only at h
  split at h
  · split at h <;> cases h
  · split at h
    · next h0 => cases h; exact ⟨0, by simp, by omega, .inl rfl, by rw [h0]; simp⟩
    · next h0 =>
      cases h
      obtain ⟨k, hk⟩ := Nat.exists_eq_succ_of_ne_zero h0
      refine ⟨k, by rw [hk]; simp, by omega, .inr (by omega), ?_⟩
      rw [hk, Nat.mul_succ, Nat.mul_comm k, Nat.add_assoc]

/-- Packing a canonical significand and exponent only puts the two together. -/
theorem pack_canonical (f : Format) (s : Bool) {m k : Nat} (hm : m < 2 ^ (f.fracBits + 1))
    (hk : k = 0 ∨ 2 ^ f.fracBits ≤ m) :
    f.pack s m (f.minExp + k) =
      f.signPattern s + min (k * 2 ^ f.fracBits + m) f.infPattern := by
  have hp := Nat.two_pow_pos f.fracBits
  unfold Format.pack
  split
  · next h0 => rw [h0, hk.resolve_right (by omega)]; simp
  · next h0 =>
    have hlog : m.log2 ≤ f.fracBits := Nat.lt_succ_iff.1 ((Nat.log2_lt h0).2 hm)
    have hunit : f.unitExp m (f.minExp + k) = f.minExp + k := by
      rcases hk with rfl | hfull
      · exact (max_eq_right (by omega)).trans (by simp)
      · have := (Nat.le_log2 h0).2 hfull
        exact (max_eq_left (by omega)).trans (by omega)
    simp only [hunit, sub_self, rneScale, le_refl, if_true, Int.toNat_zero, pow_zero, mul_one,
      add_sub_cancel_left, Int.toNat_natCast]

/-- Packing what a finite pattern stands for gives the pattern back. -/
theorem pack_unpack (f : Format) {b : Nat} {s : Bool} {m : Nat} {e : Int}
    (h : f.unpack b = .fin s m e) (hb : b < 2 ^ (f.fracBits + f.expBits + 1)) :
    f.pack s m e = b := by
  obtain ⟨k, rfl, hm, hk, hmag⟩ := unpack_canonical f h
  obtain ⟨_, hs, hlt⟩ := valueOf_unpack f h
  have hbit : b / 2 ^ (f.fracBits + f.expBits) < 2 :=
    Nat.div_lt_of_lt_mul (by rwa [← Nat.pow_succ])
  have hweight : (if s = true then 1 else 0) = b / 2 ^ (f.fracBits + f.expBits) := by
    rw [hs, Nat.mod_eq_of_lt hbit]
    rcases Nat.le_one_iff_eq_zero_or_eq_one.1 (Nat.lt_succ_iff.1 hbit) with h | h <;> rw [h] <;> rfl
  rw [pack_canonical f s hm hk, hmag, min_eq_left hlt.le, signPattern_eq, hweight, Nat.mul_comm]
  exact Nat.div_add_mod b _

/-- Every finite binary64, rounded again, is its own pattern (00_scope.md R8). -/
theorem round64_num64 {v : F64} {s : Bool} {m : Nat} {e : Int} (h : num64 v = .fin s m e) :
    round64 s m e = v :=
  BitVec.eq_of_toNat_eq ((round64_toNat s m e).trans (pack_unpack binary64 h v.isLt))

/-- The zero of a sign, written out. -/
theorem zero64_eq (s : Bool) :
    zero64 s = if s then 0x8000000000000000#64 else 0 := by
  cases s <;> rfl

/-- `==` of numbers compares their order keys. -/
theorem feq_iff_orderKey {a b : F64} (ha : isNaN a = false) (hb : isNaN b = false) :
    feq a b = true ↔ orderKey a = orderKey b := by
  simp [feq, ha, hb]

/-- `<=` of numbers compares their order keys. -/
theorem fle_iff_orderKey {a b : F64} (ha : isNaN a = false) (hb : isNaN b = false) :
    fle a b = true ↔ orderKey a ≤ orderKey b := by
  simp [fle, ha, hb]

section Finite

variable {a b : F64} {s t : Bool} {m n : Nat} {e d : Int}

/-- A finite number is no NaN. -/
theorem isNaN_of_fin (ha : num64 a = .fin s m e) : isNaN a = false := by
  rw [isNaN, ha]; rfl

/-- `fadd` of finite operands rounds their exact sum, an integer multiple of a power of two. -/
theorem fadd_of_fin (ha : num64 a = .fin s m e) (hb : num64 b = .fin t n d) :
    ∃ (z k : Int), valueOf s m e + valueOf t n d = z * (2 : ℚ) ^ k
      ∧ fadd a b = if z = 0 then zero64 (s && t) else round64 (decide (z < 0)) z.natAbs k := by
  refine ⟨_, min e d, ?_, by rw [fadd, ha, hb]⟩
  rw [valueOf_shift s m (min_le_left e d), valueOf_shift t n (min_le_right e d)]
  push_cast; ring

/-- `fadd` rounds the sum (00_scope.md R8). -/
theorem fadd_roundsTo (ha : num64 a = .fin s m e) (hb : num64 b = .fin t n d) :
    RoundsTo binary64 (valueOf s m e + valueOf t n d) (fadd a b).toNat := by
  obtain ⟨z, k, hsum, hadd⟩ := fadd_of_fin ha hb
  rw [hsum, hadd]
  split
  · next hz => rw [hz, Int.cast_zero, zero_mul]; exact zero64_roundsTo _
  · rw [← valueOf_ofInt]; exact round64_roundsTo _ _ _

/-- A sum that is exactly zero is `-0` only when both operands are negative. -/
theorem fadd_eq_zero64 (ha : num64 a = .fin s m e) (hb : num64 b = .fin t n d)
    (h : valueOf s m e + valueOf t n d = 0) : fadd a b = zero64 (s && t) := by
  obtain ⟨z, k, hsum, hadd⟩ := fadd_of_fin ha hb
  have hz : z = 0 := by
    rw [hsum, mul_eq_zero_iff_right (zpow_ne_zero k two_ne_zero)] at h
    exact_mod_cast h
  rw [hadd, if_pos hz]

/-- `fneg` changes the sign of a finite number. -/
theorem num64_fneg_of_fin (hb : num64 b = .fin t n d) : num64 (fneg b) = .fin (!t) n d := by
  rw [num64_fneg, hb]; rfl

/-- `fsub` rounds the difference (00_scope.md R8). -/
theorem fsub_roundsTo (ha : num64 a = .fin s m e) (hb : num64 b = .fin t n d) :
    RoundsTo binary64 (valueOf s m e - valueOf t n d) (fsub a b).toNat := by
  rw [sub_eq_add_neg, ← valueOf_not]
  exact fadd_roundsTo ha (num64_fneg_of_fin hb)

/-- A difference that is exactly zero is `-0` only for `-0 - (+0)`. -/
theorem fsub_eq_zero64 (ha : num64 a = .fin s m e) (hb : num64 b = .fin t n d)
    (h : valueOf s m e - valueOf t n d = 0) : fsub a b = zero64 (s && !t) :=
  fadd_eq_zero64 ha (num64_fneg_of_fin hb) (by rwa [valueOf_not, ← sub_eq_add_neg])

/-- `fmul` of finite operands is one rounding. -/
theorem fmul_of_fin (ha : num64 a = .fin s m e) (hb : num64 b = .fin t n d) :
    fmul a b = round64 (s ^^ t) (m * n) (e + d) := by
  rw [fmul, ha, hb]

/-- `fmul` rounds the product (00_scope.md R8). -/
theorem fmul_roundsTo (ha : num64 a = .fin s m e) (hb : num64 b = .fin t n d) :
    RoundsTo binary64 (valueOf s m e * valueOf t n d) (fmul a b).toNat := by
  rw [fmul_of_fin ha hb, ← valueOf_mul]
  exact round64_roundsTo _ _ _

/-- A product that is zero has the exclusive or of the signs. -/
theorem fmul_eq_zero64 (ha : num64 a = .fin s m e) (hb : num64 b = .fin t n d)
    (h : valueOf s m e * valueOf t n d = 0) : fmul a b = zero64 (s ^^ t) := by
  rw [← valueOf_mul, valueOf_eq_zero] at h
  rw [fmul_of_fin ha hb, h, round64_zero]

/-- `fdiv` of a finite operand by a nonzero one is one rounding of the sticky quotient. -/
theorem fdiv_of_fin (ha : num64 a = .fin s m e) (hb : num64 b = .fin t n d) (hn : n ≠ 0) :
    fdiv a b = round64 (s ^^ t) (stickyQuotient m n) (e - d - (divShift + 1 : Nat)) := by
  simp only [fdiv, ha, hb, if_neg hn]

/-- The quotient of two values, scaled as `fdiv` scales it. -/
theorem valueOf_div (s t : Bool) (m n : Nat) (e d : Int) :
    valueOf s m e / valueOf t n d = (if s ^^ t then -1 else 1)
      * (2 * (m * 2 ^ divShift / n)) * (2 : ℚ) ^ (e - d - (divShift + 1 : Nat)) := by
  have h2 : (2 : ℚ) ≠ 0 := two_ne_zero
  rw [valueOf_sign, valueOf_sign, zpow_sub₀ h2, zpow_sub₀ h2, zpow_natCast, pow_succ]
  have hd := zpow_ne_zero d h2
  have hsign : ((if s then -1 else 1) / (if t then -1 else 1) : ℚ) = if s ^^ t then -1 else 1 := by
    cases s <;> cases t <;> norm_num
  rw [mul_div_mul_comm, hsign, mul_assoc]
  congr 1
  field_simp

/-- A zero divided by a nonzero number has the exclusive or of the signs. -/
theorem fdiv_eq_zero64 (ha : num64 a = .fin s m e) (hb : num64 b = .fin t n d) (hn : n ≠ 0)
    (h : valueOf s m e = 0) : fdiv a b = zero64 (s ^^ t) := by
  have hsticky : stickyQuotient 0 n = 0 := by simp [stickyQuotient]
  rw [fdiv_of_fin ha hb hn, valueOf_eq_zero.1 h, hsticky, round64_zero]

/-- `fdiv` rounds the quotient (00_scope.md R8): the sticky bit keeps the side of the exact quotient
on which the rounding turns. -/
theorem fdiv_roundsTo (ha : num64 a = .fin s m e) (hb : num64 b = .fin t n d) (hn : n ≠ 0) :
    RoundsTo binary64 (valueOf s m e / valueOf t n d) (fdiv a b).toNat := by
  by_cases hm : m = 0
  · have h0 := valueOf_eq_zero (s := s) (e := e) |>.2 hm
    rw [fdiv_eq_zero64 ha hb hn h0, h0, zero_div]
    exact zero64_roundsTo _
  · obtain ⟨hbig, hnear⟩ := stickyQuotient_near hm hn (num64_significand hb)
    have hS : stickyQuotient m n ≠ 0 := by omega
    have hlog : 58 ≤ (stickyQuotient m n).log2 := (Nat.le_log2 hS).2 hbig
    have hunit (x : Int) : x + 2 ≤ binary64.unitExp (stickyQuotient m n) x :=
      le_trans (by rw [show binary64.fracBits = 52 from rfl]; omega) (le_max_left _ _)
    rw [fdiv_of_fin ha hb hn, round64_toNat, valueOf_div]
    exact pack_near binary64 (by decide) (by decide) _ hS
      (hnear.imp_right fun ⟨hodd, hlo, hhi⟩ => ⟨hodd, hlo, hhi, hunit _⟩)

/-- `<=` of finite operands compares their values (00_scope.md R8). -/
theorem fle_iff_valueOf (ha : num64 a = .fin s m e) (hb : num64 b = .fin t n d) :
    fle a b = true ↔ valueOf s m e ≤ valueOf t n d := by
  rw [fle_iff_orderKey (isNaN_of_fin ha) (isNaN_of_fin hb), valueOf_le ha hb]

/-- `==` of finite operands compares their values (00_scope.md R8). -/
theorem feq_iff_valueOf (ha : num64 a = .fin s m e) (hb : num64 b = .fin t n d) :
    feq a b = true ↔ valueOf s m e = valueOf t n d := by
  rw [feq_iff_orderKey (isNaN_of_fin ha) (isNaN_of_fin hb), le_antisymm_iff, le_antisymm_iff,
    valueOf_le ha hb, valueOf_le hb ha]

/-- `fabs` takes the sign bit off a pattern. -/
theorem fabs_toNat (a : F64) : (fabs a).toNat = a.toNat % 2 ^ 63 := by
  rw [fabs, BitVec.toNat_and, ← Nat.and_two_pow_sub_one_eq_mod]; rfl

/-- `fabs` clears the sign of a finite number and changes nothing else (00_scope.md R8). -/
theorem num64_fabs_of_fin (ha : num64 a = .fin s m e) : num64 (fabs a) = .fin false m e := by
  have hfrac : a.toNat % 2 ^ 63 % 2 ^ 52 = a.toNat % 2 ^ 52 := by omega
  have hexp : a.toNat % 2 ^ 63 / 2 ^ 52 % 2 ^ 11 = a.toNat / 2 ^ 52 % 2 ^ 11 := by omega
  have hsign : (a.toNat % 2 ^ 63 / 2 ^ 63 % 2 == 1) = false := by
    rw [Nat.div_eq_of_lt (Nat.mod_lt _ (Nat.two_pow_pos 63))]; rfl
  unfold num64 Format.unpack binary64 at ha ⊢
  simp only [fabs_toNat, hfrac, hexp, hsign, Nat.reduceAdd] at ha ⊢
  split at ha
  · split at ha <;> cases ha
  · next hfin =>
    rw [if_neg hfin]
    split at ha
    · next h0 => cases ha; rw [if_pos h0]
    · next h0 => cases ha; rw [if_neg h0]

end Finite

/-- `f64(i)` is the binary64 nearest to i (00_scope.md R8). -/
theorem f64OfInt_roundsTo (i : Int) : RoundsTo binary64 i (f64OfInt i).toNat := by
  have h := round64_roundsTo (decide (i < 0)) i.natAbs 0
  rwa [valueOf_ofInt, zpow_zero, mul_one] at h

/-- `f64(i)` is exact up to `2^53`, which needs 54 bits but is a power of two. -/
theorem f64OfInt_exact {i : Int} (h : i.natAbs ≤ 2 ^ 53) :
    ∃ s m e, num64 (f64OfInt i) = .fin s m e ∧ valueOf s m e = i := by
  rcases Nat.lt_or_eq_of_le h with hlt | heq
  · obtain ⟨m, e, hnum, hval⟩ := round64_exact (decide (i < 0)) (e := 0) hlt (by decide) (by decide)
    exact ⟨_, m, e, hnum, by rw [hval, valueOf_ofInt, zpow_zero, mul_one]⟩
  · rcases Int.natAbs_eq i with hi | hi <;> rw [heq] at hi <;> subst hi
    · exact ⟨false, 2 ^ 52, 1, by decide, by norm_num [valueOf, signedInt]⟩
    · exact ⟨true, 2 ^ 52, 1, by decide, by norm_num [valueOf, signedInt]⟩

/-- Settles O40: the fields, the round trip, and the law of each operation on finite operands. -/
theorem roundingKeepsRepresentableValues : Obligations.RoundingKeepsRepresentableValues := by
  refine ⟨num64_eq_fields, fun _ _ _ _ => round64_num64, ?_,
    fun i => ⟨f64OfInt_roundsTo i, f64OfInt_exact⟩⟩
  intro a b s t m n e d ha hb x y zero
  have hzero : zero = zero64 := funext fun neg => (zero64_eq neg).symm
  rw [hzero]
  refine ⟨fadd_roundsTo ha hb, fadd_eq_zero64 ha hb, fsub_roundsTo ha hb, fsub_eq_zero64 ha hb,
    fmul_roundsTo ha hb, fmul_eq_zero64 ha hb, fun hy => ?_, feq_iff_valueOf ha hb,
    fle_iff_valueOf ha hb, num64_fneg_of_fin ha, num64_fabs_of_fin ha⟩
  have hn : n ≠ 0 := fun h => hy (valueOf_eq_zero.2 h)
  exact ⟨fdiv_roundsTo ha hb hn, fdiv_eq_zero64 ha hb hn⟩

end Sys2Proof.Machine
end

section
/-! PROOFS. Arithmetic with a NaN or an infinity (00_scope.md R8, R9): which pattern an infinity has, what rounding never gives, where the infinities stand in the order, and O41. -/

namespace Sys2Proof.Machine

/-- The infinity of a sign, written out. -/
theorem inf64_eq (s : Bool) :
    inf64 s = if s then 0xFFF0000000000000#64 else 0x7FF0000000000000#64 := by
  cases s <;> rfl

/-- The fields of an infinity. -/
theorem unpack_inf (f : Format) {b : Nat} {s : Bool} (h : f.unpack b = .inf s) :
    b % 2 ^ f.fracBits = 0 ∧ b / 2 ^ f.fracBits % 2 ^ f.expBits = 2 ^ f.expBits - 1
      ∧ (b / 2 ^ (f.fracBits + f.expBits) % 2 == 1) = s := by
  unfold Format.unpack at h
  simp only at h
  split at h
  · next hex =>
    split at h
    · next hfrac => cases h; exact ⟨hfrac, hex, rfl⟩
    · cases h
  · split at h <;> cases h

/-- Only one pattern stands for the infinity of a sign. -/
theorem eq_inf64 {a : F64} {s : Bool} (h : num64 a = .inf s) : a = inf64 s := by
  obtain ⟨hfrac, hexp, hsign⟩ := unpack_inf binary64 h
  have hlt := a.isLt
  simp only [binary64, Nat.reduceAdd] at hfrac hexp hsign
  apply BitVec.eq_of_toNat_eq
  cases s
  · rw [show (inf64 false).toNat = 0x7FF0000000000000 from rfl]
    rw [beq_eq_false_iff_ne] at hsign; omega
  · rw [show (inf64 true).toNat = 0xFFF0000000000000 from rfl]
    rw [beq_iff_eq] at hsign; omega

/-- To be a NaN is to unpack to one. -/
theorem isNaN_iff {a : F64} : isNaN a = true ↔ num64 a = .nan := by
  rw [isNaN, beq_iff_eq]

/-- An infinity is no NaN. -/
theorem isNaN_of_inf {a : F64} {s : Bool} (h : num64 a = .inf s) : isNaN a = false := by
  rw [isNaN, h]; rfl

/-! ### Results that are NaN -/

/-- A value is the canonical NaN if it is a NaN at all (00_scope.md R9). -/
def CanonicalIfNaN (r : F64) : Prop := isNaN r = true → r = nan64

theorem canonicalIfNaN_nan64 : CanonicalIfNaN nan64 := fun _ => rfl

/-- What is no NaN meets the rule of the canonical one. -/
theorem canonicalIfNaN_of_not {r : F64} (h : isNaN r = false) : CanonicalIfNaN r :=
  fun h' => absurd h' (by rw [h]; decide)

theorem canonicalIfNaN_inf64 (s : Bool) : CanonicalIfNaN (inf64 s) :=
  canonicalIfNaN_of_not (isNaN_inf64 s)

theorem canonicalIfNaN_zero64 (s : Bool) : CanonicalIfNaN (zero64 s) :=
  canonicalIfNaN_of_not (isNaN_zero64 s)

theorem canonicalIfNaN_round64 (s : Bool) (m : Nat) (e : Int) : CanonicalIfNaN (round64 s m e) :=
  canonicalIfNaN_of_not (isNaN_round64 s m e)

/-- A choice between two such values is one. -/
theorem canonicalIfNaN_ite {c : Prop} [Decidable c] {r r' : F64} (h : CanonicalIfNaN r)
    (h' : CanonicalIfNaN r') : CanonicalIfNaN (if c then r else r') := by
  split
  · exact h
  · exact h'

/-- The NaN results of `fadd` are canonical. -/
theorem fadd_canonicalIfNaN (a b : F64) : CanonicalIfNaN (fadd a b) := by
  unfold fadd
  split
  · exact canonicalIfNaN_nan64
  · exact canonicalIfNaN_nan64
  · exact canonicalIfNaN_ite (canonicalIfNaN_inf64 _) canonicalIfNaN_nan64
  · exact canonicalIfNaN_inf64 _
  · exact canonicalIfNaN_inf64 _
  · exact canonicalIfNaN_ite (canonicalIfNaN_zero64 _) (canonicalIfNaN_round64 _ _ _)

/-- The NaN results of `fmul` are canonical. -/
theorem fmul_canonicalIfNaN (a b : F64) : CanonicalIfNaN (fmul a b) := by
  unfold fmul
  split
  · exact canonicalIfNaN_nan64
  · exact canonicalIfNaN_nan64
  · exact canonicalIfNaN_inf64 _
  · exact canonicalIfNaN_ite canonicalIfNaN_nan64 (canonicalIfNaN_inf64 _)
  · exact canonicalIfNaN_ite canonicalIfNaN_nan64 (canonicalIfNaN_inf64 _)
  · exact canonicalIfNaN_round64 _ _ _

/-- The NaN results of `fdiv` are canonical. -/
theorem fdiv_canonicalIfNaN (a b : F64) : CanonicalIfNaN (fdiv a b) := by
  unfold fdiv
  split
  · exact canonicalIfNaN_nan64
  · exact canonicalIfNaN_nan64
  · exact canonicalIfNaN_nan64
  · exact canonicalIfNaN_inf64 _
  · exact canonicalIfNaN_zero64 _
  · exact canonicalIfNaN_ite (canonicalIfNaN_ite canonicalIfNaN_nan64 (canonicalIfNaN_inf64 _))
      (canonicalIfNaN_round64 _ _ _)

section NaNOperand

variable {a b : F64}

/-- A NaN operand makes the sum a NaN. -/
theorem fadd_of_nan (h : num64 a = .nan ∨ num64 b = .nan) : fadd a b = nan64 := by
  unfold fadd
  rcases h with h | h <;> rw [h]
  cases num64 a <;> rfl

/-- A NaN operand makes the difference a NaN. -/
theorem fsub_of_nan (h : num64 a = .nan ∨ num64 b = .nan) : fsub a b = nan64 :=
  fadd_of_nan (h.imp_right fun hb => by rw [num64_fneg, hb]; rfl)

/-- A NaN operand makes the product a NaN. -/
theorem fmul_of_nan (h : num64 a = .nan ∨ num64 b = .nan) : fmul a b = nan64 := by
  unfold fmul
  rcases h with h | h <;> rw [h]
  cases num64 a <;> rfl

/-- A NaN operand makes the quotient a NaN. -/
theorem fdiv_of_nan (h : num64 a = .nan ∨ num64 b = .nan) : fdiv a b = nan64 := by
  unfold fdiv
  rcases h with h | h <;> rw [h]
  cases num64 a <;> rfl

/-- A NaN equals nothing. -/
theorem feq_of_nan (h : isNaN a = true ∨ isNaN b = true) : feq a b = false := by
  rcases h with h | h <;> simp [feq, h]

/-- A NaN is unordered. -/
theorem fle_of_nan (h : isNaN a = true ∨ isNaN b = true) : fle a b = false := by
  rcases h with h | h <;> simp [fle, h]

end NaNOperand

/-! ### Operands that are infinite -/

section Infinite

variable {a b : F64} {s t : Bool} {m n : Nat} {e d : Int}

/-- Addition keeps an infinite operand, but for two infinities of different signs. -/
theorem fadd_inf_inf (ha : num64 a = .inf s) (hb : num64 b = .inf t) :
    fadd a b = if s = t then a else nan64 := by
  rw [fadd, ha, hb, eq_inf64 ha]

theorem fadd_inf_fin (ha : num64 a = .inf s) (hb : num64 b = .fin t n d) : fadd a b = a := by
  rw [fadd, ha, hb, eq_inf64 ha]

theorem fadd_fin_inf (ha : num64 a = .fin s m e) (hb : num64 b = .inf t) : fadd a b = b := by
  rw [fadd, ha, hb, eq_inf64 hb]

/-- `fneg` changes the sign of an infinity. -/
theorem num64_fneg_of_inf (hb : num64 b = .inf t) : num64 (fneg b) = .inf (!t) := by
  rw [num64_fneg, hb]; rfl

/-- Subtraction keeps an infinite minuend, but for two infinities of one sign. -/
theorem fsub_inf_inf (ha : num64 a = .inf s) (hb : num64 b = .inf t) :
    fsub a b = if s = t then nan64 else a := by
  rw [fsub, fadd_inf_inf ha (num64_fneg_of_inf hb)]
  cases s <;> cases t <;> rfl

/-- Two infinities, in each operation. -/
theorem results_inf_inf (ha : num64 a = .inf s) (hb : num64 b = .inf t) :
    fadd a b = (if s = t then a else nan64) ∧ fsub a b = (if s = t then nan64 else a)
      ∧ fmul a b = inf64 (s ^^ t) ∧ fdiv a b = nan64 :=
  ⟨fadd_inf_inf ha hb, fsub_inf_inf ha hb, by rw [fmul, ha, hb], by rw [fdiv, ha, hb]⟩

/-- An infinity and a finite number, in each operation. -/
theorem results_inf_fin (ha : num64 a = .inf s) (hb : num64 b = .fin t n d) :
    fadd a b = a ∧ fsub a b = a ∧ fmul a b = (if n = 0 then nan64 else inf64 (s ^^ t))
      ∧ fdiv a b = inf64 (s ^^ t) :=
  ⟨fadd_inf_fin ha hb, fadd_inf_fin ha (num64_fneg_of_fin hb), by rw [fmul, ha, hb],
    by rw [fdiv, ha, hb]⟩

/-- A finite number and an infinity, in each operation. -/
theorem results_fin_inf (ha : num64 a = .fin s m e) (hb : num64 b = .inf t) :
    fadd a b = b ∧ fsub a b = fneg b ∧ fmul a b = (if m = 0 then nan64 else inf64 (s ^^ t))
      ∧ fdiv a b = zero64 (s ^^ t) :=
  ⟨fadd_fin_inf ha hb, fadd_fin_inf ha (num64_fneg_of_inf hb), by rw [fmul, ha, hb],
    by rw [fdiv, ha, hb]⟩

/-- Division of a finite number by zero. -/
theorem fdiv_fin_zero (ha : num64 a = .fin s m e) (hb : num64 b = .fin t 0 d) :
    fdiv a b = if m = 0 then nan64 else inf64 (s ^^ t) := by
  simp only [fdiv, ha, hb, if_true]

end Infinite

/-! ### The infinities in the order -/

/-- The order key of a pattern of either sign. -/
theorem orderKey_cases (b : F64) :
    (b.toNat < 2 ^ 63 ∧ orderKey b = b.toNat)
      ∨ (2 ^ 63 ≤ b.toNat ∧ orderKey b = 2 ^ 63 - (b.toNat : Int)) := by
  have hlt := b.isLt
  rcases Nat.lt_or_ge b.toNat (2 ^ 63) with h | h
  · refine .inl ⟨h, ?_⟩
    rw [orderKey, Nat.div_eq_of_lt h, Nat.mod_eq_of_lt h]; rfl
  · refine .inr ⟨h, ?_⟩
    rw [orderKey, show b.toNat / 2 ^ 63 = 1 by omega,
      show b.toNat % 2 ^ 63 = b.toNat - 2 ^ 63 by omega]
    simp only [signedInt, Nat.mod_succ, beq_self_eq_true, if_true]
    omega

/-- The magnitude of a number does not pass that of an infinity. -/
theorem magnitude_le_of_not_isNaN {b : F64} (h : isNaN b = false) :
    b.toNat % 2 ^ 63 ≤ 0x7FF0000000000000 := by
  by_contra hgt
  have hexp : b.toNat / 2 ^ 52 % 2 ^ 11 = 2 ^ 11 - 1 := by omega
  have hfrac : b.toNat % 2 ^ 52 ≠ 0 := by omega
  have hnan : num64 b = .nan := by
    rw [num64, Format.unpack]
    exact (if_pos hexp).trans (if_neg hfrac)
  rw [isNaN_iff.2 hnan] at h
  cases h

/-- The infinities are the ends of the order. -/
theorem orderKey_mem_inf64 {b : F64} (h : isNaN b = false) :
    orderKey (inf64 true) ≤ orderKey b ∧ orderKey b ≤ orderKey (inf64 false) := by
  have hle := magnitude_le_of_not_isNaN h
  have hlt := b.isLt
  rw [show orderKey (inf64 true) = -0x7FF0000000000000 by decide,
    show orderKey (inf64 false) = 0x7FF0000000000000 by decide]
  rcases orderKey_cases b with ⟨hb, hk⟩ | ⟨hb, hk⟩ <;> rw [hk] <;> omega

/-- Only an infinity has the order key of one. -/
theorem orderKey_eq_inf64 {b : F64} {s : Bool} : orderKey b = orderKey (inf64 s) ↔ b = inf64 s := by
  refine ⟨fun h => BitVec.eq_of_toNat_eq ?_, fun h => h ▸ rfl⟩
  have hs : orderKey (inf64 s) ≠ 0 := by cases s <;> decide
  rcases orderKey_cases b with ⟨hb, hk⟩ | ⟨hb, hk⟩ <;>
    rcases orderKey_cases (inf64 s) with ⟨hi, hki⟩ | ⟨hi, hki⟩ <;> omega

/-- An infinity equals itself alone, and lies at its end of the order (00_scope.md R8). -/
theorem compare_inf {a b : F64} {s : Bool} (ha : num64 a = .inf s) (hb : isNaN b = false) :
    (feq a b = true ↔ b = a) ∧ (feq b a = true ↔ b = a)
      ∧ (fle a b = true ↔ s = true ∨ b = a) ∧ (fle b a = true ↔ s = false ∨ b = a) := by
  have ha' := isNaN_of_inf ha
  obtain rfl := eq_inf64 ha
  obtain ⟨hlow, hhigh⟩ := orderKey_mem_inf64 hb
  rw [feq_iff_orderKey ha' hb, feq_iff_orderKey hb ha', fle_iff_orderKey ha' hb,
    fle_iff_orderKey hb ha', ← orderKey_eq_inf64]
  refine ⟨eq_comm, Iff.rfl, ?_⟩
  cases s
  · simp only [Bool.false_eq_true, false_or, true_or, iff_true]
    exact ⟨by omega, hhigh⟩
  · simp only [Bool.true_eq_false, false_or, true_or, iff_true]
    exact ⟨hlow, by omega⟩

/-! ### Binary32 -/

/-- A number rounded to binary32 is no NaN. -/
theorem num32_pack_ne_nan (s : Bool) (m : Nat) (e : Int) :
    num32 (BitVec.ofNat 32 (binary32.pack s m e)) ≠ .nan := by
  rw [num32, BitVec.toNat_ofNat, Nat.mod_eq_of_lt (pack32_lt s m e)]
  obtain ⟨hlo, hhi⟩ := pack_bounds binary32 s m e
  rcases Nat.lt_or_eq_of_le hhi with hlt | heq
  · obtain ⟨p, hp⟩ := Nat.exists_eq_add_of_le hlo
    obtain ⟨m', e', hfin⟩ := unpack_fin binary32 (p := p) s (by omega)
    rw [hp, hfin]; exact Num.noConfusion
  · rw [heq]; cases s <;> decide

/-- The NaN result of `rne_f32` is canonical (00_scope.md R9). -/
theorem rneF32_of_nan {v : F64} (h : num32 (rneF32 v) = .nan) : rneF32 v = nan32 := by
  cases hv : num64 v with
  | nan => rw [rneF32, hv]
  | inf s => rw [rneF32, hv] at h; cases s <;> exact absurd h (by decide)
  | fin s m e => rw [rneF32, hv] at h; exact absurd h (num32_pack_ne_nan s m e)

/-- Settles O41: the NaN results, each class of operands with an infinity, and the order. -/
theorem arithmeticNansAreCanonical : Obligations.ArithmeticNansAreCanonical := by
  refine ⟨fun a b => ?_, fun v => rneF32_of_nan⟩
  intro nan inf zero
  have hinf : inf = inf64 := funext fun s => (inf64_eq s).symm
  have hzero : zero = zero64 := funext fun s => (zero64_eq s).symm
  rw [hinf, hzero]
  refine ⟨fadd_canonicalIfNaN a b, fadd_canonicalIfNaN a (fneg b), fmul_canonicalIfNaN a b,
    fdiv_canonicalIfNaN a b, fun h => ?_, fun _ _ => results_inf_inf,
    fun _ _ _ _ => results_inf_fin, fun _ _ _ _ => results_fin_inf,
    fun _ _ _ _ _ => fdiv_fin_zero, fun _ => compare_inf⟩
  have hnum := h.imp isNaN_iff.1 isNaN_iff.1
  exact ⟨fadd_of_nan hnum, fsub_of_nan hnum, fmul_of_nan hnum, fdiv_of_nan hnum, feq_of_nan h,
    fle_of_nan h⟩

end Sys2Proof.Machine
end

section
/-! PROOFS. Who writes what (10_state.md R32): what one transaction can leave, said once, and the frames of transactions and commands: O16, O55, O56, O57. -/

namespace Sys2Proof.Machine

/-- `s` with IRQ_EN, the sample registers and the configuration registers of `u`, which are the
host's plain RW registers (10_state.md R31). -/
def withHostRegisters (u s : State) : State :=
  { s with
    irqEn := u.irqEn
    len := u.len
    inBase := u.inBase
    outBase := u.outBase
    cfgMethod := u.cfgMethod
    cfgFmt := u.cfgFmt
    cfgRate := u.cfgRate
    cfgSeed := u.cfgSeed
    cfgStrengthLo := u.cfgStrengthLo
    cfgStrengthHi := u.cfgStrengthHi }

/-- What a transaction can leave of a state (10_state.md R32, 20_memory.md R80, R91). -/
inductive TxnEffect (s : State) : State → Prop where
  /-- No architectural change: at most free bytes are drawn (20_memory.md R91). -/
  | draws (n : Nat) : TxnEffect s { s with freeCount := n }
  /-- A command is accepted, which does not happen while FATAL. -/
  | command (w : Word) (h : s.fatal = false) : TxnEffect s { s with pend := w, busy := true }
  /-- A write to STATUS. -/
  | flags (w : Word) : TxnEffect s (acknowledge w s)
  /-- A write to a plain RW register. -/
  | registers (u : State) : TxnEffect s (withHostRegisters u s)
  /-- A write to IBUF or OBUF. -/
  | bytes (a : Addr) (w : Word) (h : target s.params a = .buffer a.toNat) :
      TxnEffect s { s with mem := memWrite s.mem a.toNat 4 w.toNat }

/-- A CMD write is accepted, or dropped while FATAL (60_exceptions.md R270). -/
theorem acceptCommand_effect (w : Word) (s : State) : TxnEffect s (acceptCommand w s) := by
  unfold acceptCommand
  split
  · exact .draws s.freeCount
  · next hf => exact .command w (Bool.not_eq_true _ ▸ hf)

/-- A write to any register but CMD and STATUS changes plain RW registers only. -/
theorem writeReg_registers {r : Reg} (hc : r ≠ .cmd) (hs : r ≠ .status) (w : Word) (s : State) :
    writeReg r w s = withHostRegisters (writeReg r w s) s := by
  cases r
  case cmd => exact absurd rfl hc
  case status => exact absurd rfl hs
  all_goals rfl

theorem writeReg_effect (r : Reg) (w : Word) (s : State) : TxnEffect s (writeReg r w s) := by
  by_cases hc : r = .cmd
  · subst hc; exact acceptCommand_effect w s
  · by_cases hs : r = .status
    · subst hs; exact .flags w
    · rw [writeReg_registers hc hs]; exact .registers _

theorem hostRead_effect (a : Addr) (s : State) : TxnEffect s (hostRead a s).2 := by
  unfold hostRead
  split <;> exact .draws _

theorem hostWrite_effect (a : Addr) (w : Word) (s : State) : TxnEffect s (hostWrite a w s).2 := by
  unfold hostWrite
  cases ht : target s.params a with
  | reg r => exact writeReg_effect r w s
  | buffer b =>
    obtain ⟨rfl, -⟩ := target_buffer ht
    exact .bytes a w ht
  | _ => exact .draws s.freeCount

/-- Every transaction has one of these effects. -/
theorem transact_effect (t : Txn) (s : State) : TxnEffect s (transact t s).2 := by
  cases t with
  | read a => exact hostRead_effect a s
  | write a w => exact hostWrite_effect a w s

/-- Settles O55: each effect of a transaction leaves the session, and only an acknowledgement touches
the flags, which it clears. -/
theorem transactionsNeverWriteTheSession : Obligations.TransactionsNeverWriteTheSession := by
  intro t s s' h
  have e : TxnEffect s s' := h ▸ transact_effect t s
  cases e with
  | flags w =>
    have himp {a b : Bool} (hab : (a && b) = true) : a = true := (Bool.and_eq_true_iff.1 hab).1
    exact ⟨rfl, rfl, rfl, rfl, rfl, rfl, rfl, rfl, rfl, rfl, rfl, rfl, rfl, himp, himp, himp, himp⟩
  | _ =>
    exact ⟨rfl, rfl, rfl, rfl, rfl, rfl, rfl, rfl, rfl, rfl, rfl, rfl, rfl, id, id, id, id⟩

/-- Settles O56: every way a command answers a next state keeps the host's registers. -/
theorem commandsNeverWriteTheHostsRegisters : Obligations.CommandsNeverWriteTheHostsRegisters := by
  intro i s t h
  rcases exec_next h with ⟨_, _, _, rfl, _⟩ | ⟨rfl, _⟩ | ⟨_, rfl⟩ | ⟨_, _, rfl⟩ | ⟨_, _, _, rfl⟩ |
    ⟨_, _, _, _, _, rfl⟩
  all_goals
    exact ⟨rfl, rfl, rfl, rfl, rfl, rfl, rfl, rfl, rfl, rfl, rfl, rfl, rfl, rfl, rfl, rfl, rfl, rfl⟩

/-- Settles O57: a report, NOP and a FILL keep the setup, POS and HIST, and a QUANT moves only those
two of them. -/
theorem onlyInitWritesTheSessionSetup : Obligations.OnlyInitWritesTheSessionSetup := by
  intro i s t hi h
  rcases exec_next h with ⟨_, _, _, rfl, _⟩ | ⟨rfl, _⟩ | ⟨_, rfl⟩ | ⟨rfl, _⟩ | ⟨_, _, _, rfl⟩ |
    ⟨rep, _, rfl, _, _, rfl⟩
  case inr.inr.inr.inl => exact absurd rfl hi -- INIT
  case inr.inr.inr.inr.inr => -- QUANT
    exact ⟨rfl, rfl, rfl, rfl, rfl, rfl, rfl, rfl, fun hq => absurd rfl (hq rep)⟩
  all_goals exact ⟨rfl, rfl, rfl, rfl, rfl, rfl, rfl, rfl, fun _ => ⟨rfl, rfl⟩⟩

/-- Settles O16: a ready INIT answers with the new session and DONE, which are these fields. -/
theorem initFrame : Obligations.InitFrame := by
  intro s t hr h
  rw [execInit_ready hr] at h
  cases h
  exact ⟨rfl, fun _ => rfl⟩

end Sys2Proof.Machine
end

section
/-! PROOFS. The invariant of 10_state.md R54: it holds after reset (O5) and every step of the host, the block and the platform keeps it (O6). -/

namespace Sys2Proof.Machine

/-! ### Reset -/

theorem fileRead_replicate_zero (n k : Nat) : fileRead (List.replicate n 0) k = 0 := by
  rw [fileRead, List.getD_eq_getElem?_getD, List.getElem?_replicate]
  split <;> rfl

/-- The invariant holds after reset for well-formed parameters (70_reset_and_hazards.md R310). -/
theorem resetOf_inv {p : Params} (hw : p.wf = true) : (State.resetOf p).Inv where
  params_wf := hw
  coef_length := List.length_replicate
  hist_length := List.length_replicate
  pos_lt := (wf_nums hw).1
  taps_le := Nat.zero_le _
  taps_shaping := fun h => absurd rfl h
  coef_zero := fun k _ _ => fileRead_replicate_zero p.cap k
  ratio_known := ⟨0, 3, by decide, by decide, rfl⟩
  scale_product := ⟨0, by decide, by show (0 : F64) = fmul 0 0; decide⟩
  inv_scale := by show (0 : F64) = inverseScale 0; decide
  method_known := .inr rfl
  err_code := ⟨fun _ => rfl, fun _ => rfl⟩
  fatal_idle := fun _ => rfl
  mem_wf := rfl
  mem_mapped := fun a h => by cases h

/-- Settles O5: reset of any well-formed block, the fixture among them. -/
theorem resetMeetsTheInvariant : Obligations.ResetMeetsTheInvariant :=
  ⟨fun _ hw => resetOf_inv hw, resetOf_inv (by decide)⟩

/-- The platform's reset starts from the block's reset state. -/
theorem platformReset_inv {s : State} (h : s.Inv) : (platformReset s).Inv :=
  { resetOf_inv h.params_wf with }

/-! ### The host -/

/-- The host's side of the bus and the model's own counters are no part of the invariant. -/
theorem State.Inv.hostSide {s : State} (h : s.Inv) (held : Option Txn) (queue : List HostOp)
    (responses : List Response) (turns : List Agent) (n : Nat) :
    State.Inv { s with
      held := held, hostQueue := queue, responses := responses, turns := turns, freeCount := n } :=
  { h with }

/-- ERR and ERR_CODE are cleared together (10_state.md R33). -/
theorem acknowledge_inv {s : State} (h : s.Inv) (w : Word) : (acknowledge w s).Inv :=
  { h with
    err_code := by
      rw [acknowledge_err, acknowledge_errCode]
      cases w.getLsbD 2
      · simpa using h.err_code
      · simp }

/-- The four bytes of a buffer address belong to one buffer (20_memory.md R82). -/
theorem bufferAddr_of_target {p : Params} {a : Addr} (ht : target p a = .buffer a.toNat) {b : Nat}
    (h1 : a.toNat ≤ b) (h2 : b < a.toNat + 4) : bufferAddr p b := by
  obtain ⟨-, -, h⟩ := target_buffer ht
  unfold bufferAddr ibufOrigin obufOrigin
  omega

theorem memWrite_inv {s : State} (h : s.Inv) {a : Addr} (w : Word)
    (ht : target s.params a = .buffer a.toNat) :
    State.Inv { s with mem := memWrite s.mem a.toNat 4 w.toNat } :=
  { h with
    mem_wf := memWrite_wf h.mem_wf _ _ _
    mem_mapped := fun b hb => by
      by_cases hin : a.toNat ≤ b ∧ b < a.toNat + 4
      · exact bufferAddr_of_target ht hin.1 hin.2
      · rw [memByte_memWrite, if_neg hin] at hb
        exact h.mem_mapped b hb }

/-- Every transaction keeps the invariant. -/
theorem TxnEffect.inv {s t : State} (h : s.Inv) (e : TxnEffect s t) : t.Inv := by
  cases e with
  | draws n => exact { h with }
  | command w hf => exact { h with fatal_idle := fun hf' => by simp [hf] at hf' }
  | flags w => exact acknowledge_inv h w
  | registers u => exact { h with }
  | bytes a w ht => exact memWrite_inv h w ht

theorem finish_inv {s : State} (h : s.Inv) (t : Txn) : (finish t s).Inv :=
  (TxnEffect.inv h (transact_effect t s)).hostSide _ _ _ _ _

/-- Whatever the host's move is, it keeps the invariant. -/
theorem hostMove_inv {s : State} (h : s.Inv) : (hostMove s).Inv := by
  unfold hostMove
  split
  · split
    · exact h
    · exact finish_inv (h.hostSide _ _ _ _ _) _
  · exact h
  · refine finish_inv ?_ _
    split
    · exact h
    · exact h.hostSide _ _ _ _ _
  · split
    · exact h.hostSide _ _ _ _ _
    · exact finish_inv (h.hostSide _ _ _ _ _) _

/-! ### The block -/

/-- What the invariant asks of the filter that INIT chooses, under parameters `p`. -/
structure Selection.Fits (p : Params) (f : Selection) : Prop where
  taps_le : f.taps.toNat ≤ p.cap
  taps_shaping : f.taps.toNat ≠ 0 → methodShaping p f.method = true
  coef_length : f.coef.length = p.cap
  coef_zero : ∀ k, f.taps.toNat ≤ k → k < p.cap → fileRead f.coef k = 0
  method_valid : methodValid p f.method = true

/-- A method without a filter leaves TAPS 0 and COEF cleared (40_catalog_and_init.md R155). -/
theorem fits_of_noFilter {p : Params} {m : BitVec 8} (hm : methodValid p m = true) (warn : Bool) :
    Selection.Fits p { method := m, taps := 0, coef := zeroFile p.cap, warn := warn } where
  taps_le := Nat.zero_le _
  taps_shaping := fun h => absurd rfl h
  coef_length := zeroFile_length _
  coef_zero := fun k _ _ => fileRead_replicate_zero p.cap k
  method_valid := hm

/-- A catalog entry has at most CAP taps (00_scope.md R5). -/
theorem tapCount_le {p : Params} (hw : p.wf = true) {e : FilterSpec} (he : e ∈ p.catalog) :
    e.tapCount ≤ p.cap := by
  simp only [Params.wf, Bool.and_eq_true, List.all_eq_true] at hw
  obtain ⟨-, hcat⟩ := hw
  have hwf := hcat e he
  simp only [FilterSpec.wf, FilterSpec.tapsOk, Bool.and_eq_true, decide_eq_true_eq] at hwf
  exact hwf.2.2

/-- A catalog entry's filter has its taps loaded and the rest of COEF cleared. -/
theorem fits_of_entry {p : Params} (hw : p.wf = true) {e : FilterSpec} (he : e ∈ p.catalog)
    {m : BitVec 8} (hs : methodShaping p m = true) (hm : methodValid p m = true) :
    Selection.Fits p { method := m, taps := BitVec.ofNat 10 e.tapCount,
                       coef := loadCoefficients p.cap e, warn := false } := by
  have hle := tapCount_le hw he
  have hcap := (wf_nums hw).2.1
  have htaps : (BitVec.ofNat 10 e.tapCount).toNat = e.tapCount := by
    rw [BitVec.toNat_ofNat, Nat.mod_eq_of_lt (by omega)]
  refine ⟨htaps.trans_le hle, fun _ => hs, loadCoefficients_length _ _, fun k hk hlt => ?_, hm⟩
  rw [fileRead, List.getD_eq_getElem?_getD, loadCoefficients_get e hlt, htaps] at *
  rw [if_neg (by omega)]; rfl

theorem methodTpdfHp_valid (p : Params) : methodValid p methodTpdfHp = true := by
  simp [methodValid, methodTpdfHp]

/-- The filter of a valid method meets what the invariant asks. -/
theorem chooseFilter_fits {p : Params} (hw : p.wf = true) {m : BitVec 8}
    (hm : methodValid p m = true) (rate : Word) : (chooseFilter p m rate).Fits p := by
  rcases chooseFilter_cases p m rate with ⟨hs, e, he, -, h⟩ | ⟨-, -, h⟩ | ⟨-, h⟩ <;> rw [h]
  · exact fits_of_entry hw he hs hm
  · exact fits_of_noFilter (methodTpdfHp_valid p) true
  · exact fits_of_noFilter hm false

/-- A valid INIT sets up a session that meets the invariant. -/
theorem initSession_inv {s : State} (h : s.Inv) (hr : InitReady s) :
    (release (complete (initSession s))).Inv := by
  obtain ⟨hm, ⟨hsrc, hdst⟩, hstrength⟩ := hr
  have hvalid : methodValid s.params s.cfgMethod = true := by simpa [methodValid] using hm
  obtain ⟨htaps, hshaping, hlen, hzero, hmethod⟩ :=
    chooseFilter_fits h.params_wf hvalid s.cfgRate
  exact
    { h with
      coef_length := hlen
      hist_length := zeroFile_length _
      pos_lt := (wf_nums h.params_wf).1
      taps_le := htaps
      taps_shaping := hshaping
      coef_zero := hzero
      ratio_known := ⟨_, _, hsrc, hdst, rfl⟩
      scale_product := ⟨_, hstrength, rfl⟩
      inv_scale := rfl
      method_known := .inl hmethod
      fatal_idle := fun _ => rfl }

/-- The samples of a command lie in OBUF: a memory that differs only there lists buffer bytes only. -/
theorem mapped_of_outside {rep : Rep} {s : State} (h : s.Inv) (hfit : OutputFits rep s) {m : Mem}
    (hout : ∀ a, OutsideOutput rep s a → memByte m a = memByte s.mem a) (a : Nat)
    (ha : (memByte m a).isSome = true) : bufferAddr s.params a := by
  by_cases h' : OutsideOutput rep s a
  · rw [hout a h'] at ha
    exact h.mem_mapped a ha
  · unfold OutsideOutput sampleAddr at h'
    unfold OutputFits at hfit
    exact .inr (by omega)

theorem fillRun_inv {rep : Rep} {s : State} (h : s.Inv) (hr : FillReady rep s) :
    (release (fillRun rep s)).Inv := by
  obtain ⟨-, hfit, -⟩ := hr
  exact
    { h with
      fatal_idle := fun _ => rfl
      mem_wf := fillStores_wf _ _ _ _ _ h.mem_wf
      mem_mapped := mapped_of_outside h hfit fun a ha =>
        fillStores_outside _ _ _ _ (by rwa [Nat.zero_add]) }

/-- The ring of a stream: HIST has CAP entries and POS is one of them (10_state.md R47, R53). -/
def RingOk (p : Params) (c : Stream) : Prop := c.hist.length = p.cap ∧ c.pos.toNat < p.cap

theorem quantCycle_ringOk {rep : Rep} {s : State} (hw : s.params.wf = true) (i : Nat) (x : F64)
    (c : Stream) (h : RingOk s.params c) : RingOk s.params (quantCycle rep s i x c) :=
  ⟨(quantCycle_hist_length rep s i x c).trans h.1, by
    rw [quantCycle_pos_toNat hw]
    exact Nat.mod_lt _ (wf_nums hw).1⟩

theorem quantRun_inv {rep : Rep} {s : State} {c : Stream} (h : s.Inv)
    (hp : QuantChecksPass rep s) (hq : quantSamples rep s s.len.toNat 0 (streamOf s) = .ok c) :
    (release (complete (withStream s c))).Inv := by
  obtain ⟨-, -, hfit, -⟩ := hp
  obtain ⟨hlen, hpos⟩ : RingOk s.params c :=
    quantSamples_induct (quantCycle_ringOk h.params_wf) hq ⟨h.hist_length, h.pos_lt⟩
  exact
    { h with
      hist_length := hlen
      pos_lt := hpos
      fatal_idle := fun _ => rfl
      mem_wf := quantSamples_wf hq h.mem_wf
      mem_mapped := mapped_of_outside h hfit fun a ha =>
        quantSamples_outside hq (by rwa [Nat.zero_add]) }

theorem release_raiseErr_inv {s : State} (h : s.Inv) {code : ErrCode} (hc : code ≠ .none) :
    (release (raiseErr code s)).Inv :=
  { h with
    err_code := by simp [hc]
    fatal_idle := fun _ => rfl }

/-- A command followed by BUSY <- 0 keeps the invariant. -/
theorem release_exec_inv {i : Instr} {s t : State} (h : s.Inv) (e : exec i s = .next t) :
    (release t).Inv := by
  rcases exec_next e with ⟨_, hc, _, rfl, _⟩ | ⟨rfl, _⟩ | ⟨_, rfl⟩ | ⟨_, hr, rfl⟩ |
    ⟨_, _, hr, rfl⟩ | ⟨_, _, _, hp, hq, rfl⟩
  · exact release_raiseErr_inv h hc
  · exact { h with
      err_code := by simp
      fatal_idle := fun _ => rfl }
  · exact { h with fatal_idle := fun _ => rfl }
  · exact initSession_inv h hr
  · exact fillRun_inv h hr
  · exact quantRun_inv h hp hq

/-- The block's step keeps the invariant. -/
theorem blockStep_inv {s t : State} (h : s.Inv) (e : blockStep s = .next t) : t.Inv := by
  unfold blockStep execPending at e
  cases hd : decode s.pend with
  | error _ =>
    rw [hd] at e
    cases e
    exact release_raiseErr_inv h (by decide)
  | ok i =>
    rw [hd] at e
    cases hx : exec i s <;> simp only [hx] at e <;> cases e
    exact release_exec_inv h hx

/-- Settles O6: the turn is no part of the invariant, and each agent's move keeps it. -/
theorem everyStepKeepsTheInvariant : Obligations.EveryStepKeepsTheInvariant := by
  intro s t h e
  have h' : (takeTurn s).Inv := h.hostSide _ _ _ _ _
  rw [step, machineStep] at e
  cases hg : whoMoves s with
  | host => rw [hg] at e; cases e; exact hostMove_inv h'
  | platform => rw [hg] at e; cases e; exact platformReset_inv h'
  | block =>
    rw [hg, agentMove] at e
    split at e
    · exact blockStep_inv h' e
    · cases e; exact h'

end Sys2Proof.Machine
end

section
/-! PROOFS. The registers as the host reads and writes them (10_state.md R31 to R43, R56, R57): O43, O44, O46. -/

namespace Sys2Proof.Machine

/-! ### A transaction at a register -/

/-- A read at a register returns its value and changes nothing (20_memory.md R91). -/
theorem hostRead_reg {a : Addr} {r : Reg} {s : State} {v : Word} (h : target s.params a = .reg r)
    (hv : readReg r s = v) : hostRead a s = (.read v .ok, s) := by
  simp only [hostRead, h, hv]

/-- A write at a register leaves what the register's write leaves. -/
theorem hostWrite_reg {a : Addr} {r : Reg} {w : Word} {s t : State}
    (h : target s.params a = .reg r) (ht : writeReg r w s = t) :
    hostWrite a w s = (.write .ok, t) := by
  simp only [hostWrite, h, ht]

/-! ### STATUS -/

/-- The bits of STATUS: six flags, two reserved bits, then the number of the error (10_state.md R33). -/
theorem getLsbD_statusWord (s : State) (i : Nat) :
    (statusWord s).getLsbD i =
      match i with
      | 0 => s.busy
      | 1 => s.done
      | 2 => s.err
      | 3 => s.warn
      | 4 => s.nan
      | 5 => s.fatal
      | i + 6 => decide (2 ≤ i) && (errCodeBits s.errCode).getLsbD (i - 2) := by
  show BitVec.getLsbD (w := 20 + 4 + 2 + 1 + 1 + 1 + 1 + 1 + 1) (statusWord s) i = _
  unfold statusWord
  simp only [BitVec.getLsbD_append, BitVec.getLsbD_ofBool, BitVec.getLsbD_zero]
  rcases i with _ | _ | _ | _ | _ | _ | i
  iterate 6 rfl
  simp only
  grind

/-- Above its flags STATUS shows the number of the error and nothing else. -/
theorem statusWord_fields (s : State) :
    (statusWord s).extractLsb' 6 2 = 0 ∧ (statusWord s).extractLsb' 8 4 = errCodeBits s.errCode
      ∧ (statusWord s).extractLsb' 12 20 = 0 := by
  refine ⟨?_, ?_, ?_⟩
  all_goals
    refine BitVec.eq_of_getLsbD_eq fun i hi => ?_
    rw [BitVec.getLsbD_extractLsb', decide_eq_true hi, Bool.true_and, Nat.add_comm,
      getLsbD_statusWord]
  · simp [hi]
  · simp
  · simp

/-- An acknowledgement, with each flag's choice written out. -/
theorem acknowledge_eq (w : Word) (s : State) : acknowledge w s = { s with
    done := if w.getLsbD 1 then false else s.done
    err := if w.getLsbD 2 then false else s.err
    errCode := if w.getLsbD 2 then .none else s.errCode
    warn := if w.getLsbD 3 then false else s.warn
    nan := if w.getLsbD 4 then false else s.nan } := by
  have hclear (f b : Bool) : (f && !b) = if b then false else f := by cases b <;> simp
  unfold acknowledge
  rw [hclear, hclear, hclear, hclear]

/-- Settles O43: the bits of the word that STATUS shows, and the write as an acknowledgement. -/
theorem statusShowsTheFlagsAndClearsTheOnesWritten :
    Obligations.StatusShowsTheFlagsAndClearsTheOnesWritten := by
  refine ⟨by decide, fun s w => ⟨?_, hostRead_reg rfl rfl, hostWrite_reg rfl (acknowledge_eq w s)⟩⟩
  exact ⟨getLsbD_statusWord s 0, getLsbD_statusWord s 1, getLsbD_statusWord s 2,
    getLsbD_statusWord s 3, getLsbD_statusWord s 4, getLsbD_statusWord s 5, statusWord_fields s⟩

/-! ### IRQ_EN -/

/-- The bits of IRQ_EN: the enables stand one place up (10_state.md R34). -/
theorem getLsbD_irqEnWord (s : State) (i : Nat) :
    (irqEnWord s).getLsbD i = (decide (1 ≤ i) && s.irqEn.getLsbD (i - 1)) := by
  show BitVec.getLsbD (w := 26 + 5 + 1) (irqEnWord s) i = _
  unfold irqEnWord
  simp only [BitVec.getLsbD_append, BitVec.getLsbD_zero]
  grind

/-- The mask of bits [5:1]. -/
theorem getLsbD_enablesMask (i : Nat) : (0x0000003E#32).getLsbD i = decide (1 ≤ i ∧ i < 6) := by
  rcases Nat.lt_or_ge i 6 with h | h
  · interval_cases i <;> rfl
  · rw [decide_eq_false (by omega)]
    exact Nat.testBit_lt_two_pow
      (Nat.lt_of_lt_of_le (by decide) (Nat.pow_le_pow_right (by decide) h))

/-- After a write IRQ_EN shows the word's bits [5:1]. -/
theorem irqEnWord_write (w : Word) (s : State) :
    irqEnWord { s with irqEn := irqEnOf w } = w &&& 0x0000003E#32 := by
  refine BitVec.eq_of_getLsbD_eq fun i _ => ?_
  rw [getLsbD_irqEnWord, irqEnOf, BitVec.getLsbD_extractLsb', BitVec.getLsbD_and,
    getLsbD_enablesMask]
  grind

/-- IRQ_EN shows its enables alone. -/
theorem irqEnWord_masked (s : State) : irqEnWord s &&& 0x0000003E#32 = irqEnWord s := by
  refine BitVec.eq_of_getLsbD_eq fun i _ => ?_
  have hwidth : 6 ≤ i → s.irqEn.getLsbD (i - 1) = false :=
    fun h => BitVec.getLsbD_of_ge _ _ (by omega)
  rw [BitVec.getLsbD_and, getLsbD_irqEnWord, getLsbD_enablesMask]
  grind

theorem irqEnWord_reserved (s : State) : irqEnWord s &&& ~~~0x0000003E#32 = 0 := by
  rw [← irqEnWord_masked, BitVec.and_assoc, BitVec.and_not_self]
  exact BitVec.and_zero

/-- Settles O44: the write keeps the enables, and the word shows those bits alone. -/
theorem irqEnKeepsItsFiveEnables : Obligations.IrqEnKeepsItsFiveEnables := by
  have hreset : 0#26 ++ 0#5 ++ 0#1 = 0#32 := by decide
  exact ⟨fun s w => ⟨_, hostWrite_reg rfl rfl, hostRead_reg rfl (irqEnWord_write w s), rfl⟩,
    fun s => ⟨_, hostRead_reg rfl rfl, irqEnWord_reserved s⟩, fun _ => hostRead_reg rfl hreset⟩

/-! ### The other registers -/

/-- Two bit vectors side by side, as a number. -/
theorem toNat_append_eq_add {m n : Nat} (x : BitVec m) (y : BitVec n) :
    (x ++ y).toNat = x.toNat * 2 ^ n + y.toNat := by
  rw [BitVec.toNat_append, ← Nat.shiftLeft_add_eq_or_of_lt y.isLt, Nat.shiftLeft_eq]

/-- Well-formed parameters fit the fields of PARAM0 to PARAM2 (10_state.md R31). -/
theorem paramWords_toNat {p : Params} (hw : p.wf = true) :
    (param0Word p).toNat = p.cap + 2 ^ 16 * p.numNs ∧ (param1Word p).toNat = p.ibufEntries
      ∧ (param2Word p).toNat = p.obufBytes := by
  simp only [Params.wf, Bool.and_eq_true, decide_eq_true_eq] at hw
  refine ⟨?_, ?_, ?_⟩
  · show BitVec.toNat (w := 8 + 8 + 6 + 10) (param0Word p) = _
    simp only [param0Word, toNat_append_eq_add, BitVec.toNat_ofNat]
    omega
  · show BitVec.toNat (w := 18 + 14) (param1Word p) = _
    simp only [param1Word, toNat_append_eq_add, BitVec.toNat_ofNat]
    omega
  · show BitVec.toNat (w := 15 + 17) (param2Word p) = _
    simp only [param2Word, toNat_append_eq_add, BitVec.toNat_ofNat]
    omega

/-- The map lists no register at the reserved offsets (10_state.md R31, R56). -/
theorem regOfOffset_reserved {a : Addr}
    (h : a = 0x02C ∨ a = 0x048 ∨ a = 0x04C ∨ a = 0x064 ∨ 0x080 ≤ a.toNat) :
    regOfOffset a.toNat = .reserved := by
  rcases h with rfl | rfl | rfl | rfl | h
  iterate 4 rfl
  unfold regOfOffset
  split
  case h_29 => rfl
  all_goals omega

/-- Settles O46: each address selects its register, whose read and write are the model's rows. -/
theorem registersFollowTheirAccessTypes : Obligations.RegistersFollowTheirAccessTypes := by
  intro s w
  have hext8 (x : BitVec 8) : 0#24 ++ x = x.setWidth 32 :=
    (BitVec.setWidth_eq_append (by decide)).symm
  have hext10 (x : BitVec 10) : 0#22 ++ x = x.setWidth 32 :=
    (BitVec.setWidth_eq_append (by decide)).symm
  refine ⟨?_, ?_, fun hw => ?_, fun a ha => ?_, fun a h0 h1 ha => ?_⟩
  · exact ⟨hostWrite_reg rfl rfl, hostWrite_reg rfl rfl, hostWrite_reg rfl rfl,
      hostWrite_reg rfl rfl, hostWrite_reg rfl rfl, hostWrite_reg rfl rfl, hostWrite_reg rfl rfl,
      hostWrite_reg rfl rfl, hostWrite_reg rfl rfl⟩
  · exact ⟨hostRead_reg rfl rfl, hostRead_reg rfl rfl, hostRead_reg rfl rfl, hostRead_reg rfl rfl,
      hostRead_reg rfl rfl, hostRead_reg rfl rfl, hostRead_reg rfl (hext8 _),
      hostRead_reg rfl (hext8 _), hostRead_reg rfl rfl, hostRead_reg rfl rfl, hostRead_reg rfl rfl,
      hostRead_reg rfl rfl, hostRead_reg rfl (hext8 _), hostRead_reg rfl (hext8 _),
      hostRead_reg rfl (hext10 _), hostRead_reg rfl (hext10 _), hostRead_reg rfl rfl,
      hostRead_reg rfl rfl, hostRead_reg rfl rfl, hostRead_reg rfl rfl, hostRead_reg rfl rfl,
      hostRead_reg rfl rfl, hostRead_reg rfl rfl⟩
  · obtain ⟨h0, h1, h2⟩ := paramWords_toNat hw
    exact ⟨_, _, _, hostRead_reg rfl rfl, h0, hostRead_reg rfl rfl, h1, hostRead_reg rfl rfl, h2⟩
  · fin_cases ha <;> exact hostWrite_reg rfl rfl
  · have ht : target s.params a = .reg .reserved := by
      rw [target_reg h0 h1, regOfOffset_reserved ha]
    exact ⟨hostRead_reg ht rfl, hostWrite_reg ht rfl⟩

end Sys2Proof.Machine
end

section
/-! PROOFS. INV_SCALE (40_catalog_and_init.md R154): the inverse of a finite scale never rounds to zero, and O19. -/

namespace Sys2Proof.Machine

/-- A finite binary64 is below `2^1024`. -/
theorem abs_valueOf_lt {a : F64} {s : Bool} {m : Nat} {e : Int} (h : num64 a = .fin s m e) :
    |valueOf s m e| < (2 : ℚ) ^ (1024 : Int) := by
  obtain ⟨hv, -, hlt⟩ := valueOf_unpack binary64 h
  have hunits := (lt_infPattern_iff binary64 (by decide) _).1 hlt
  have hsign (u : Nat) : |((signedInt s u : Int) : ℚ)| = u := by
    rw [signedInt_cast]; cases s <;> simp
  have hpow : (2 : ℚ) ^ (1024 : Int) =
      2 ^ (binary64.fracBits + (2 ^ binary64.expBits - 2)) * 2 ^ binary64.minExp := by
    rw [← zpow_natCast, ← zpow_add₀ two_ne_zero]; rfl
  rw [hv, abs_mul, hsign, abs_of_pos (unit_pos binary64), hpow]
  exact mul_lt_mul_of_pos_right (by exact_mod_cast hunits) (unit_pos binary64)

/-- A value that rounds to `+0` is below the least positive number: that number and its negative are
no nearer. -/
theorem abs_lt_of_roundsTo_zero {x : ℚ} (h : RoundsTo binary64 x 0) :
    |x| < (2 : ℚ) ^ (-1074 : Int) := by
  obtain ⟨hover, hnear⟩ := h
  rcases le_or_gt (overflowBound binary64) |x| with hb | hb
  · have hinf : 0 < binary64.infPattern := by decide
    have := hover hb
    omega
  · obtain ⟨neg, m, e, hzero, -, hbest⟩ := hnear hb
    rw [show binary64.unpack 0 = .fin false 0 (-1074) by decide] at hzero
    cases hzero
    obtain ⟨hpos, -⟩ := hbest 1 false 1 (-1074) (by decide)
    obtain ⟨hneg, -⟩ := hbest (2 ^ 63 + 1) true 1 (-1074) (by decide)
    have hunit : (0 : ℚ) < 2 ^ (-1074 : Int) := zpow_pos two_pos _
    rw [valueOf_eq_zero.2 rfl, sub_zero, valueOf_sign] at hpos hneg
    simp only [Bool.false_eq_true, if_false, if_true, Nat.cast_one, one_mul, neg_mul,
      sub_neg_eq_add] at hpos hneg
    by_contra hge
    rcases le_abs.1 (not_lt.1 hge) with hx | hx
    · rw [abs_of_pos (by linarith), abs_of_nonneg (by linarith)] at hpos
      linarith
    · rw [abs_of_neg (by linarith), abs_of_nonpos (by linarith)] at hneg
      linarith

theorem num64_one64 : num64 one64 = .fin false (2 ^ 52) (-52) := by decide

/-- The inverse of a nonzero finite number does not round to `+0`: it is above `2^-1024`. -/
theorem fdiv_one_ne_zero {a : F64} {s : Bool} {m : Nat} {e : Int} (h : num64 a = .fin s m e)
    (hm : m ≠ 0) : fdiv one64 a ≠ 0 := by
  intro h0
  have hr := fdiv_roundsTo num64_one64 h hm
  have hone : valueOf false (2 ^ 52) (-52) = 1 := by norm_num [valueOf, signedInt]
  rw [h0, hone] at hr
  have hsmall := abs_lt_of_roundsTo_zero hr
  have hpos : 0 < |valueOf s m e| := abs_pos.2 (mt valueOf_eq_zero.1 hm)
  rw [abs_div, abs_one, div_lt_iff₀ hpos] at hsmall
  have hbig : (2 : ℚ) ^ (-1074 : Int) * |valueOf s m e| ≤ 2 ^ (-1074 : Int) * 2 ^ (1024 : Int) :=
    mul_le_mul_of_nonneg_left (abs_valueOf_lt h).le (zpow_nonneg two_pos.le _)
  rw [← zpow_add₀ two_ne_zero] at hbig
  have hle : (2 : ℚ) ^ ((-1074 : Int) + 1024) ≤ 1 :=
    zpow_le_one_of_nonpos₀ one_le_two (by decide)
  linarith

/-- A finite number that does not equal zero has a nonzero significand. -/
theorem significand_ne_zero {a : F64} {s : Bool} {m : Nat} {e : Int} (h : num64 a = .fin s m e)
    (hne : feq a 0 = false) : m ≠ 0 := by
  rintro rfl
  have hzero : num64 0 = .fin false 0 (-1074) := by decide
  rw [(feq_iff_valueOf h hzero).2 (by rw [valueOf_eq_zero.2 rfl, valueOf_eq_zero.2 rfl])] at hne
  cases hne

/-- `1.0 / a` is `+0` for `a = +∞` alone, `a` not zero. -/
theorem fdiv_one_eq_zero_iff {a : F64} (hne : feq a 0 = false) :
    fdiv one64 a = 0 ↔ a = inf64 false := by
  constructor
  · intro h
    cases ha : num64 a with
    | nan =>
      rw [fdiv_of_nan (.inr ha)] at h
      exact absurd h (by decide)
    | inf s =>
      obtain ⟨-, -, -, hdiv⟩ := results_fin_inf num64_one64 ha
      rw [hdiv] at h
      cases s
      · exact eq_inf64 ha
      · exact absurd h (by decide)
    | fin s m e => exact absurd h (fdiv_one_ne_zero ha (significand_ne_zero ha hne))
  · rintro rfl
    decide

/-- Settles O19: a zero is excepted by the rule, and every other quotient but that by `+∞` is not
`+0`. -/
theorem inverseScaleIsZeroExactlyAtZeroAndInfinity :
    Obligations.InverseScaleIsZeroExactlyAtZeroAndInfinity := by
  intro scale
  unfold inverseScale
  cases hf : feq scale 0 with
  | true => exact ⟨fun _ => .inl rfl, fun _ => if_pos rfl⟩
  | false =>
    rw [if_neg Bool.false_ne_true, fdiv_one_eq_zero_iff hf, inf64_eq]
    exact ⟨.inr, fun h => h.resolve_left Bool.false_ne_true⟩

end Sys2Proof.Machine
end


section
/-! PROOFS. The host bus beyond the registers and the buffers in memory (20_memory.md R80 to R93): what each kind of target answers, words and bytes of memory, and O49 to O54, O58. -/

namespace Sys2Proof.Machine

/-! ### Addresses that select nothing -/

/-- Exactly the misaligned, the unmapped and the out-of-range addresses select nothing
(20_memory.md R81, R82). -/
theorem target_eq_error_iff {p : Params} {a : Addr} :
    target p a = .error ↔ a.toNat % 4 ≠ 0
      ∨ 0x03000 ≤ a.toNat ∧ a.toNat < 0x10000 ∨ 0x30000 ≤ a.toNat
      ∨ (0x01000 ≤ a.toNat ∧ a.toNat < 0x02000 ∧ p.cap ≤ (a.toNat - 0x01000) / 8)
      ∨ (0x02000 ≤ a.toNat ∧ a.toNat < 0x03000 ∧ p.cap ≤ (a.toNat - 0x02000) / 8)
      ∨ (0x10000 ≤ a.toNat ∧ a.toNat < 0x20000 ∧ p.ibufEntries ≤ (a.toNat - 0x10000) / 8)
      ∨ (0x20000 ≤ a.toNat ∧ a.toNat < 0x30000 ∧ p.obufBytes ≤ a.toNat - 0x20000 + 3) := by
  unfold target
  simp only
  split_ifs
  all_goals simp only [true_iff, false_iff]
  all_goals omega

/-- Where an address selects nothing, a transaction ends with ERROR and no effect
(20_memory.md R80). -/
theorem transact_error {a : Addr} {s : State} (h : target s.params a = .error) (w : Word) :
    hostRead a s = (.read 0 .error, s) ∧ hostWrite a w s = (.write .error, s) := by
  simp only [hostRead, hostWrite, h, and_self]

/-- Settles O49: a misaligned address selects nothing. -/
theorem misalignedTransactionsEndWithError : Obligations.MisalignedTransactionsEndWithError :=
  fun _ _ w h => transact_error (target_eq_error_iff.2 (.inl h)) w

/-- Settles O50: an unmapped or out-of-range address selects nothing. -/
theorem unmappedTransactionsEndWithError : Obligations.UnmappedTransactionsEndWithError :=
  fun _ _ w h => transact_error (target_eq_error_iff.2 (.inr h)) w

/-! ### The COEF and HIST windows -/

/-- A constant below `2^18` is the address it names. -/
theorem toNat_addr {n : Nat} (h : n < 2 ^ 18) : (BitVec.ofNat 18 n : Addr).toNat = n := by
  rw [BitVec.toNat_ofNat, Nat.mod_eq_of_lt h]

/-- The addresses of the halves of `COEF[k]` and `HIST[k]` (20_memory.md R82). -/
theorem target_window {p : Params} {k : Nat} (hw : p.wf = true) (hk : k < p.cap) :
    target p (BitVec.ofNat 18 (0x01000 + 8 * k)) = .coef k false
      ∧ target p (BitVec.ofNat 18 (0x01000 + 8 * k + 4)) = .coef k true
      ∧ target p (BitVec.ofNat 18 (0x02000 + 8 * k)) = .hist k false
      ∧ target p (BitVec.ofNat 18 (0x02000 + 8 * k + 4)) = .hist k true := by
  obtain ⟨-, hcap, -, -⟩ := wf_nums hw
  refine ⟨?_, ?_, ?_, ?_⟩
  all_goals
    simp (disch := omega) only [target, toNat_addr, if_pos, if_neg]
    congr 1
    · omega
    · grind

/-- The COEF window shows a half of the entry and ignores a write (20_memory.md R83). -/
theorem transact_coef {a : Addr} {s : State} {k : Nat} {high : Bool}
    (h : target s.params a = .coef k high) (w : Word) :
    hostRead a s = (.read (half high (fileRead s.coef k)) .ok, s)
      ∧ hostWrite a w s = (.write .ok, s) := by
  simp only [hostRead, hostWrite, h, and_self]

/-- The HIST window shows a half of the entry and ignores a write (20_memory.md R83). -/
theorem transact_hist {a : Addr} {s : State} {k : Nat} {high : Bool}
    (h : target s.params a = .hist k high) (w : Word) :
    hostRead a s = (.read (half high (fileRead s.hist k)) .ok, s)
      ∧ hostWrite a w s = (.write .ok, s) := by
  simp only [hostRead, hostWrite, h, and_self]

/-- Settles O51: each of the four addresses selects its half of its entry. -/
theorem windowsShowCoefAndHist : Obligations.WindowsShowCoefAndHist := by
  intro s k w hw hk
  obtain ⟨hcLo, hcHi, hhLo, hhHi⟩ := target_window hw hk
  obtain ⟨rcLo, wcLo⟩ := transact_coef hcLo w
  obtain ⟨rcHi, wcHi⟩ := transact_coef hcHi w
  obtain ⟨rhLo, whLo⟩ := transact_hist hhLo w
  obtain ⟨rhHi, whHi⟩ := transact_hist hhHi w
  exact ⟨rcLo, rcHi, rhLo, rhHi, wcLo, wcHi, whLo, whHi⟩

/-! ### Words of IBUF and OBUF -/

/-- A write to a buffer address stores four bytes. -/
theorem hostWrite_buffer {a : Addr} {s : State} (h : target s.params a = .buffer a.toNat)
    (w : Word) :
    hostWrite a w s = (.write .ok, { s with mem := memWrite s.mem a.toNat 4 w.toNat }) := by
  simp only [hostWrite, h]

/-- A read of a buffer address returns its word and draws free bytes at most. -/
theorem hostRead_buffer {a : Addr} {s : State} (h : target s.params a = .buffer a.toNat) :
    hostRead a s = (.read (readWord s.mem a.toNat s.freeCount).1 .ok,
      { s with freeCount := (readWord s.mem a.toNat s.freeCount).2 }) := by
  simp only [hostRead, h]

theorem readByte_written {m : Mem} {a : Nat} {b : Byte} (h : memByte m a = some b) (n : Nat) :
    readByte m a n = (b, n) := by
  simp only [readByte, h]

/-- A word of four written bytes is those bytes, the lowest address last, and draws no free byte
(20_memory.md R86). -/
theorem readWord_written {m : Mem} {a : Nat} {b0 b1 b2 b3 : Byte} (h0 : memByte m a = some b0)
    (h1 : memByte m (a + 1) = some b1) (h2 : memByte m (a + 2) = some b2)
    (h3 : memByte m (a + 3) = some b3) (n : Nat) :
    readWord m a n = (b3 ++ b2 ++ b1 ++ b0, n) := by
  simp only [readWord, readByte_written h0, readByte_written h1, readByte_written h2,
    readByte_written h3]

/-- Where the four bytes of a buffer word are written, a read is of them and changes nothing. -/
theorem hostRead_written {a : Addr} {s : State} (h : target s.params a = .buffer a.toNat)
    {b0 b1 b2 b3 : Byte} (h0 : memByte s.mem a.toNat = some b0)
    (h1 : memByte s.mem (a.toNat + 1) = some b1) (h2 : memByte s.mem (a.toNat + 2) = some b2)
    (h3 : memByte s.mem (a.toNat + 3) = some b3) :
    hostRead a s = (.read (b3 ++ b2 ++ b1 ++ b0) .ok, s) := by
  rw [hostRead_buffer h, readWord_written h0 h1 h2 h3]

/-- The bytes of a written word, the low one at the low address (20_memory.md R90). -/
theorem memByte_memWrite_word (m : Mem) (a : Nat) (w : Word) {j : Nat} (hj : j < 4) :
    memByte (memWrite m a 4 w.toNat) (a + j) = some (w.extractLsb' (8 * j) 8) := by
  rw [memByte_memWrite_inside (Nat.le_add_right ..) (by omega), Nat.add_sub_cancel_left,
    BitVec.extractLsb', Nat.shiftRight_eq_div_pow, Nat.pow_mul]

/-- A word is its four bytes side by side. -/
theorem append_bytes (w : Word) :
    w.extractLsb' 24 8 ++ w.extractLsb' 16 8 ++ w.extractLsb' 8 8 ++ w.extractLsb' 0 8 = w := by
  rw [BitVec.extractLsb'_append_extractLsb'_eq_extractLsb' (by decide),
    BitVec.extractLsb'_append_extractLsb'_eq_extractLsb' (by decide),
    BitVec.extractLsb'_append_extractLsb'_eq_extractLsb' (by decide)]
  exact BitVec.extractLsb'_eq_self

/-- A read of a buffer word whose bytes are those of `w` returns `w` and changes nothing. -/
theorem hostRead_word {a : Addr} {s : State} (h : target s.params a = .buffer a.toNat) {w : Word}
    (hbytes : ∀ j < 4, memByte s.mem (a.toNat + j) = some (w.extractLsb' (8 * j) 8)) :
    hostRead a s = (.read w .ok, s) := by
  rw [hostRead_written h (hbytes 0 (by decide)) (hbytes 1 (by decide)) (hbytes 2 (by decide))
    (hbytes 3 (by decide)), append_bytes]

/-- Settles O53: the address selects its four bytes, which a write sets and a read returns. -/
theorem bufferWordReadsBackAsWritten : Obligations.BufferWordReadsBackAsWritten := by
  intro s a w h0 hrange
  have ht := target_of_range (p := s.params) h0 hrange
  have hbytes (j : Nat) (hj : j < 4) := memByte_memWrite_word s.mem a.toNat w hj
  have hread := hostRead_word (s := { s with mem := memWrite s.mem a.toNat 4 w.toNat }) ht hbytes
  exact ⟨⟨_, hostWrite_buffer ht w, hread, rfl, hbytes, fun _ hc => memByte_memWrite_outside hc⟩,
    ⟨_, _, hostRead_buffer ht⟩, fun _ _ _ _ => hostRead_written ht⟩

/-- Settles O54: only a buffer read touches the state at all, by the free bytes it draws. -/
theorem hostReadsHaveNoSideEffect : Obligations.HostReadsHaveNoSideEffect := by
  intro s a
  unfold hostRead
  cases target s.params a <;> rfl

/-! ### Entries of IBUF -/

/-- `MemWrite` of `j + n` bytes is `MemWrite` of the low j and then of the n above them. -/
theorem memWrite_add (m : Mem) (a j n v : Nat) :
    memWrite m a (j + n) v = memWrite (memWrite m a j v) (a + j) n (v / 256 ^ j) := by
  induction j generalizing m a v with
  | zero => simp [memWrite]
  | succ j ih =>
    rw [Nat.succ_add, memWrite, memWrite, ih, Nat.div_div_eq_div_mul, Nat.pow_succ',
      Nat.add_assoc, Nat.add_comm 1]

/-- `MemWrite` takes no more of the value than its bytes. -/
theorem memWrite_mod (m : Mem) (a n v : Nat) : memWrite m a n (v % 256 ^ n) = memWrite m a n v := by
  induction n generalizing m a v with
  | zero => rfl
  | succ n ih =>
    have hbyte : BitVec.ofNat 8 (v % 256 ^ (n + 1)) = BitVec.ofNat 8 v :=
      BitVec.eq_of_toNat_eq (by
        rw [BitVec.toNat_ofNat, BitVec.toNat_ofNat, Nat.pow_succ']
        exact Nat.mod_mul_right_mod ..)
    rw [memWrite, memWrite, hbyte, Nat.pow_succ', Nat.mod_mul_right_div_self, ih]

/-- The two words of a binary64, the high one at the higher address, are its eight bytes
(20_memory.md R84, R90). -/
theorem memWrite_halves (m : Mem) (a : Nat) (lo hi : Word) :
    memWrite (memWrite m a 4 lo.toNat) (a + 4) 4 hi.toNat = memWrite m a 8 (hi ++ lo).toNat := by
  have hjoin := toNat_append_eq_add hi lo
  have hlo : (hi ++ lo).toNat % 256 ^ 4 = lo.toNat := by omega
  have hhi : (hi ++ lo).toNat / 256 ^ 4 = hi.toNat := by omega
  rw [memWrite_add m a 4 4, hhi, ← memWrite_mod m a 4 (hi ++ lo).toNat, hlo]

/-- An entry reads as the binary64 written to its eight bytes. -/
theorem ibufRead_memWrite (m : Mem) (i : Nat) (v : F64) :
    ibufRead (memWrite m (ibufOrigin + 8 * i) 8 v.toNat) i = some v := by
  have hlt : v.toNat < 256 ^ 8 := v.isLt
  rw [ibufRead, memRead_memWrite, Nat.mod_eq_of_lt hlt, Option.map_some, BitVec.ofNat_toNat,
    BitVec.setWidth_eq]

/-- A write to either word of an entry of IBUF stores its four bytes (20_memory.md R82). -/
theorem hostWrite_ibuf {s : State} {i n : Nat} (hw : s.params.wf = true)
    (hi : i < s.params.ibufEntries) (hn : n = 0x10000 + 8 * i ∨ n = 0x10000 + 8 * i + 4) (w : Word) :
    (hostWrite (BitVec.ofNat 18 n) w s).2 = { s with mem := memWrite s.mem n 4 w.toNat } := by
  obtain ⟨-, -, hmax, -⟩ := wf_nums hw
  have ha := toNat_addr (n := n) (by omega)
  rw [hostWrite_buffer (target_of_range (by omega) (.inl (by omega))), ha]

/-- Settles O52: the two writes are one of the eight bytes of the entry. -/
theorem ibufEntryIsItsTwoHalves : Obligations.IbufEntryIsItsTwoHalves := by
  intro s i lo hi hw hi' s1 s2
  have h1 : s1 = { s with mem := memWrite s.mem (0x10000 + 8 * i) 4 lo.toNat } :=
    hostWrite_ibuf hw hi' (.inl rfl) lo
  have h2 : s2 = { s1 with mem := memWrite s1.mem (0x10000 + 8 * i + 4) 4 hi.toNat } :=
    hostWrite_ibuf (by rwa [h1]) (by rwa [h1]) (.inr rfl) hi
  rw [h2, h1, memWrite_halves]
  exact ibufRead_memWrite _ _ _

/-! ### Commands and IBUF -/

theorem lt_sampleAddr (rep : Rep) (s : State) (i : Nat) {a : Nat} (h : a < obufOrigin) :
    a < sampleAddr rep s i :=
  Nat.lt_of_lt_of_le h (obufOrigin_le_sampleAddr rep s i)

/-- Settles O58: only a FILL and a QUANT write memory, and their samples stand in OBUF. -/
theorem noCommandWritesIbuf : Obligations.NoCommandWritesIbuf := by
  intro i s t h a ha
  rcases exec_next h with ⟨_, _, _, rfl, _⟩ | ⟨rfl, _⟩ | ⟨_, rfl⟩ | ⟨_, _, rfl⟩ | ⟨rep, _, _, rfl⟩ |
    ⟨rep, _, _, _, hq, rfl⟩
  case inr.inr.inr.inr.inl => -- FILL
    exact fillStores_outside rep s _ _ (.inl (lt_sampleAddr rep s 0 ha))
  case inr.inr.inr.inr.inr => -- QUANT
    exact quantSamples_outside hq (.inl (lt_sampleAddr rep s 0 ha))
  all_goals rfl

end Sys2Proof.Machine
end

section
/-! PROOFS. Command words (30_encoding.md R120 to R125): a word is its fields, a word that decodes is its instruction's encoding, the words that decode are the valid ones, and the others are reported: O1, O2, O3, O9. -/

namespace Sys2Proof.Machine

/-! ### Decoding and encoding -/

/-- The round trip of every row, which also says that the row's word is valid. -/
theorem roundTrip : (i : Instr) → Laws.RoundTrip.Statement i
  | .nop => Laws.RoundTrip.nop
  | .init => Laws.RoundTrip.init
  | .fillS16 => Laws.RoundTrip.fillS16
  | .fillS32 => Laws.RoundTrip.fillS32
  | .fillF32 => Laws.RoundTrip.fillF32
  | .fillF64 => Laws.RoundTrip.fillF64
  | .quantS16 => Laws.RoundTrip.quantS16
  | .quantS32 => Laws.RoundTrip.quantS32
  | .quantF32 => Laws.RoundTrip.quantF32
  | .quantF64 => Laws.RoundTrip.quantF64

@[simp] theorem decode_encode (i : Instr) : decode (encode i) = .ok i := (roundTrip i).2

theorem commandWordValid_encode (i : Instr) : commandWordValid (encode i) = true := (roundTrip i).1

/-- A word is its three fields side by side (30_encoding.md R120). -/
theorem fields_append (w : Word) : rsvField w ++ repField w ++ opField w = w := by
  rw [rsvField, repField, opField, BitVec.extractLsb'_append_extractLsb'_eq_extractLsb' (by rfl),
    BitVec.extractLsb'_append_extractLsb'_eq_extractLsb' (by rfl)]
  exact BitVec.extractLsb'_eq_self

/-- A word with no reserved bit set is the command word of its OP and its REP. -/
theorem commandWord_fields {w : Word} (h : rsvField w = 0) :
    commandWord (opField w) (repField w) = w :=
  calc commandWord (opField w) (repField w)
    _ = rsvField w ++ repField w ++ opField w := by rw [h]; rfl
    _ = w := fields_append w

/-- A word that decodes has no reserved bit set, and of the 64 choices of OP and REP only one decodes
to a given instruction. -/
theorem eq_encode_of_decode {w : Word} {i : Instr} (h : decode w = .ok i) : w = encode i := by
  have hrsv : rsvField w = 0 := by
    by_contra hne
    rw [decode, if_neg hne] at h
    cases h
  rw [← commandWord_fields hrsv] at h ⊢
  generalize opField w = op, repField w = rep at h ⊢
  revert op rep
  cases i <;> decide

/-- Settles O2: the encoding decodes to its instruction, and whatever decodes is an encoding. -/
theorem decodeAndEncodeAgree : Obligations.DecodeAndEncodeAgree := fun _ i =>
  ⟨eq_encode_of_decode, fun h => h ▸ decode_encode i⟩

/-- Settles O1: each word of the table is its row's encoding. -/
theorem decodeReadsTheTenTableWords : Obligations.DecodeReadsTheTenTableWords :=
  ⟨decode_encode .nop, decode_encode .init, decode_encode .fillS16, decode_encode .fillS32,
    decode_encode .fillF32, decode_encode .fillF64, decode_encode .quantS16,
    decode_encode .quantS32, decode_encode .quantF32, decode_encode .quantF64⟩

/-! ### Valid and illegal words -/

/-- NOP and INIT are the two lowest values of OP. -/
theorem op_le_one_iff (op : BitVec 4) : op.toNat ≤ 1 ↔ op = 0 ∨ op = 1 := by bv_omega

/-- FILL and QUANT are the values of OP between those of NOP and INIT and the reserved ones. -/
theorem op_eq_two_or_three_iff (op : BitVec 4) :
    op = 2 ∨ op = 3 ↔ ¬ op.toNat ≤ 1 ∧ ¬ 4 ≤ op.toNat := by bv_omega

/-- The valid words by their fields (30_encoding.md R123). -/
theorem commandWordValid_iff (w : Word) :
    commandWordValid w = true ↔ rsvField w = 0 ∧
      ((opField w = 0 ∨ opField w = 1) ∧ repField w = 0 ∨ (opField w = 2 ∨ opField w = 3)) := by
  rw [← op_le_one_iff]
  simp only [commandWordValid, opField, repField, rsvField, Bool.and_eq_true, Bool.or_eq_true,
    beq_iff_eq, decide_eq_true_eq]

/-- The illegal words in the three groups of 30_encoding.md R125. -/
theorem commandWordValid_eq_false_iff (w : Word) :
    commandWordValid w = false ↔ 4 ≤ (opField w).toNat ∨
      (opField w).toNat ≤ 1 ∧ repField w ≠ 0 ∨ rsvField w ≠ 0 := by
  rw [← Bool.not_eq_true, commandWordValid_iff, ← op_le_one_iff, op_eq_two_or_three_iff]
  have hdisjoint : 4 ≤ (opField w).toNat → ¬ (opField w).toNat ≤ 1 := by omega
  tauto

/-- A valid word is the encoding of a row of the opcode table (30_encoding.md R124). -/
theorem exists_encode_eq {w : Word} (h : commandWordValid w = true) : ∃ i, encode i = w := by
  obtain ⟨hrsv, hfields⟩ := (commandWordValid_iff w).mp h
  have hrep : ∀ r : BitVec 2, r = 0 ∨ r = 1 ∨ r = 2 ∨ r = 3 := by decide
  rw [← commandWord_fields hrsv]
  rcases hfields with ⟨hop | hop, hrep0⟩ | hop | hop
  · exact ⟨.nop, by rw [hop, hrep0]; rfl⟩
  · exact ⟨.init, by rw [hop, hrep0]; rfl⟩
  · rw [hop]
    rcases hrep (repField w) with hr | hr | hr | hr <;> rw [hr]
    exacts [⟨.fillS16, rfl⟩, ⟨.fillS32, rfl⟩, ⟨.fillF32, rfl⟩, ⟨.fillF64, rfl⟩]
  · rw [hop]
    rcases hrep (repField w) with hr | hr | hr | hr <;> rw [hr]
    exacts [⟨.quantS16, rfl⟩, ⟨.quantS32, rfl⟩, ⟨.quantF32, rfl⟩, ⟨.quantF64, rfl⟩]

theorem encode_inj {i j : Instr} : encode i = encode j ↔ i = j :=
  ⟨fun h => by simpa using congrArg decode h, congrArg encode⟩

/-- An invalid word does not decode: what decodes is an encoding, and those are valid. -/
theorem exists_decode_error {w : Word} (h : commandWordValid w = false) :
    ∃ e, decode w = .error e := by
  cases hd : decode w with
  | error e => exact ⟨e, rfl⟩
  | ok i => rw [eq_encode_of_decode hd, commandWordValid_encode] at h; cases h

/-- A pending word that is not valid raises Err(ILLEGAL) (60_exceptions.md R270). -/
theorem execPending_of_invalid {s : State} (h : commandWordValid s.pend = false) :
    execPending s = .next (raiseErr .illegal s) := by
  obtain ⟨e, he⟩ := exists_decode_error h
  simp only [execPending, he]

/-- Settles O3: the valid words are the encodings, and any other word is reported. -/
theorem decodeAcceptsExactlyTheValidWords : Obligations.DecodeAcceptsExactlyTheValidWords := by
  refine fun w => ⟨fun h => ?_, fun h s hw => ?_⟩
  · obtain ⟨i, rfl⟩ := exists_encode_eq ((commandWordValid_iff w).mpr h)
    exact ⟨i, decode_encode i, fun j => encode_inj⟩
  · subst hw
    exact execPending_of_invalid (Bool.eq_false_iff.mpr (mt (commandWordValid_iff s.pend).mp h))

/-- Settles O9: a word of the three groups is not valid, and BUSY <- 0 follows the report. -/
theorem illegalWordIsReported : Obligations.IllegalWordIsReported := by
  intro s h
  rw [blockStep, execPending_of_invalid ((commandWordValid_eq_false_iff s.pend).mpr h)]
  rfl

end Sys2Proof.Machine
end

section
/-! PROOFS. INIT and NOP (40_catalog_and_init.md R150 to R160): the reports of INIT's three checks, the filter it chooses, the session it sets up, the cells of its ratio table, and NOP's one effect: O10 to O15, O17, O18. -/

namespace Sys2Proof.Machine

/-! ### The ratio table -/

/-- Settles O18: the 25 cells, in the three cases of 40_catalog_and_init.md R152. -/
theorem ratioTableHoldsThePowersOfTwo : Obligations.RatioTableHoldsThePowersOfTwo := by
  refine ⟨?_, ?_, ?_⟩ -- integer pairs, a float source only, a float destination
  · decide
  · decide
  · decide

/-! ### The checks of INIT -/

/-- The strengths that INIT rejects (40_catalog_and_init.md R151). -/
theorem strengthValid_eq_false_iff (v : F64) :
    strengthValid v = false ↔ isNaN v = true ∨ v = inf64 false ∨ fle 0 v = false := by
  simp only [strengthValid, Bool.and_eq_false_iff, Bool.not_eq_false', bne_eq_false_iff_eq, or_assoc]

theorem execInit_badMethod {s : State} (h : 1 + s.params.numNs < s.cfgMethod.toNat) :
    exec .init s = .next (raiseErr .badMethod s) := by
  have hinvalid : methodValid s.params s.cfgMethod = false := decide_eq_false (by omega)
  simp [exec, execInit, hinvalid]

theorem execInit_badFormat {s : State} (hm : s.cfgMethod.toNat ≤ 1 + s.params.numNs)
    (hf : ¬ (srcCode s.cfgFmt ≤ 4 ∧ dstCode s.cfgFmt ≤ 4)) :
    exec .init s = .next (raiseErr .badFormat s) := by
  have hvalid : methodValid s.params s.cfgMethod = true := decide_eq_true hm
  simp only [exec, execInit, hvalid, ← Bool.decide_and, decide_eq_false hf]
  rfl

theorem execInit_badStrength {s : State} (hm : s.cfgMethod.toNat ≤ 1 + s.params.numNs)
    (hf : srcCode s.cfgFmt ≤ 4 ∧ dstCode s.cfgFmt ≤ 4) (hv : strengthValid (strength s) = false) :
    exec .init s = .next (raiseErr .badStrength s) := by
  have hvalid : methodValid s.params s.cfgMethod = true := decide_eq_true hm
  simp [exec, execInit, hvalid, hf, hv]

/-- Settles O11: one report for each check, under the checks before it. -/
theorem initRejectsBadOperandsInOrder : Obligations.InitRejectsBadOperandsInOrder := fun s =>
  ⟨execInit_badMethod, fun hm hf => execInit_badFormat hm (by omega), fun hm hs hd hv =>
    execInit_badStrength hm ⟨hs, hd⟩ ((strengthValid_eq_false_iff _).2 hv)⟩

/-! ### The session of a valid INIT -/

/-- Settles O12: the session's fields as R153 to R157 compute them, and HIST is a cleared file. -/
theorem initCompletesAndSetsTheSession : Obligations.InitCompletesAndSetsTheSession := fun _ hr =>
  ⟨_, execInit_ready hr, rfl, rfl, rfl, rfl, rfl, rfl, rfl, rfl, rfl, zeroFile_length _,
    fun _ hk => zeroFile_get hk⟩

/-- A second INIT sets up the same session: the session is a function of the configuration, which INIT
leaves. -/
theorem initSession_complete_initSession (s : State) :
    initSession (complete (initSession s)) = complete (initSession s) := rfl

/-- Settles O17: INIT leaves its own operands, so that it is ready again and sets up the same session. -/
theorem initTwiceIsInitOnce : Obligations.InitTwiceIsInitOnce := by
  intro s t hr h
  rw [execInit_ready hr] at h
  cases h
  have hready : InitReady (complete (initSession s)) := hr
  rw [execInit_ready hready, initSession_complete_initSession]
  rfl

/-! ### The filter of a valid INIT -/

/-- A valid INIT puts the chosen filter into the session (40_catalog_and_init.md R156, R157). -/
theorem execInit_filter {s : State} {f : Selection} (hr : InitReady s)
    (hf : chooseFilter s.params s.cfgMethod s.cfgRate = f) :
    exec .init s = .next (complete (seedSession (setFilter f (setScale (clearSession s))))) := by
  rw [execInit_ready hr, initSession, hf]

/-- The method of a valid INIT is a shaping one from 2 on (10_state.md R38). -/
theorem InitReady.methodShaping_iff {s : State} (hr : InitReady s) :
    methodShaping s.params s.cfgMethod = true ↔ 2 ≤ s.cfgMethod.toNat := by
  have hm : s.cfgMethod.toNat ≤ 1 + s.params.numNs := hr.1
  simp [methodShaping, hm]

/-- The entries that do not match, in the spec's words (40_catalog_and_init.md R150). -/
theorem filterMatches_eq_false_iff (m : BitVec 8) (r : Word) (e : FilterSpec) :
    filterMatches m r e = false ↔ ¬ (e.name = m ∧
      fle (fdiv (fabs (fsub (f64OfInt r.toNat) e.targetRate)) e.targetRate) rateTolerance = true) := by
  rw [← filterMatches_iff, Bool.not_eq_true]

/-- A catalog entry has as many coefficients as taps (00_scope.md R5). -/
theorem tapCount_eq_length {p : Params} (hw : p.wf = true) {e : FilterSpec} (he : e ∈ p.catalog) :
    e.tapCount = e.coefficients.length := by
  simp only [Params.wf, Bool.and_eq_true, List.all_eq_true] at hw
  obtain ⟨-, hcat⟩ := hw
  have hwf := hcat e he
  simp only [FilterSpec.wf, FilterSpec.tapsOk, Bool.and_eq_true, beq_iff_eq] at hwf
  exact hwf.2.1

/-- TAPS is wide enough for the taps of a catalog entry (00_scope.md R4, R5). -/
theorem toNat_tapCount {p : Params} (hw : p.wf = true) {e : FilterSpec} (he : e ∈ p.catalog) :
    (BitVec.ofNat 10 e.tapCount).toNat = e.tapCount := by
  have hle := tapCount_le hw he
  have hcap := (wf_nums hw).2.1
  rw [BitVec.toNat_ofNat, Nat.mod_eq_of_lt (by omega)]

/-- Below the taps of a catalog entry COEF holds its coefficients (40_catalog_and_init.md R156). -/
theorem loadCoefficients_below {p : Params} (hw : p.wf = true) {e : FilterSpec} (he : e ∈ p.catalog)
    {k : Nat} (hk : k < e.tapCount) : (loadCoefficients p.cap e)[k]? = e.coefficients[k]? := by
  have hlen : k < e.coefficients.length := tapCount_eq_length hw he ▸ hk
  rw [loadCoefficients_get e (hk.trans_le (tapCount_le hw he)), if_pos hk]
  simp [fileRead, hlen]

/-- From the taps of a filter on COEF stays cleared (40_catalog_and_init.md R155). -/
theorem loadCoefficients_above {cap k : Nat} {e : FilterSpec} (hk : e.tapCount ≤ k)
    (hcap : k < cap) : (loadCoefficients cap e)[k]? = some 0 := by
  rw [loadCoefficients_get e hcap, if_neg (by omega)]

/-- Settles O13: the lookup finds the first entry that matches, and its filter goes into the session. -/
theorem initLoadsTheFirstMatchingFilter : Obligations.InitLoadsTheFirstMatchingFilter := by
  intro s before after e hr hw h2 hcat hbefore hname hrate
  have he : e ∈ s.params.catalog := by simp [hcat]
  have hfound : lookup s.params.catalog s.cfgMethod s.cfgRate = some e :=
    hcat ▸ lookup_first ((filterMatches_iff _ _ e).2 ⟨hname, hrate⟩)
      fun d hd => (filterMatches_eq_false_iff _ _ d).2 (hbefore d hd)
  have hchoice : chooseFilter s.params s.cfgMethod s.cfgRate =
      { method := s.cfgMethod, taps := BitVec.ofNat 10 e.tapCount,
        coef := loadCoefficients s.params.cap e, warn := false } := by
    simp [chooseFilter, hr.methodShaping_iff.2 h2, hfound]
  exact ⟨_, execInit_filter hr hchoice, rfl, toNat_tapCount hw he, rfl,
    loadCoefficients_length _ _, fun k hk => loadCoefficients_below hw he hk,
    fun k hk hlt => loadCoefficients_above hk hlt⟩

/-- Settles O14: the lookup finds nothing, and the session gets TPDF_HP with no filter. -/
theorem initFallsBackToTpdfHpWithWarning : Obligations.InitFallsBackToTpdfHpWithWarning := by
  intro s hr h2 hnone
  have hmissing : lookup s.params.catalog s.cfgMethod s.cfgRate = none :=
    lookup_none fun d hd => (filterMatches_eq_false_iff _ _ d).2 (hnone d hd)
  have hchoice : chooseFilter s.params s.cfgMethod s.cfgRate =
      { method := methodTpdfHp, taps := 0, coef := zeroFile s.params.cap, warn := true } := by
    simp [chooseFilter, hr.methodShaping_iff.2 h2, hmissing]
  exact ⟨_, execInit_filter hr hchoice, rfl, rfl, rfl, zeroFile_length _, fun k => zeroFile_get⟩

/-- Settles O15: RECT and TPDF_HP are not shaping methods, so no filter is looked up. -/
theorem initWithoutShapingLoadsNoFilter : Obligations.InitWithoutShapingLoadsNoFilter := by
  intro s hr h2
  have hplain : ¬ methodShaping s.params s.cfgMethod = true :=
    mt hr.methodShaping_iff.1 (by omega)
  have hchoice : chooseFilter s.params s.cfgMethod s.cfgRate =
      { method := s.cfgMethod, taps := 0, coef := zeroFile s.params.cap, warn := false } := by
    simp [chooseFilter, hplain]
  exact ⟨_, execInit_filter hr hchoice, rfl, rfl, rfl, zeroFile_length _, fun k => zeroFile_get⟩

/-! ### NOP -/

/-- While FATAL a write to CMD changes nothing (60_exceptions.md R270). -/
theorem acceptCommand_of_fatal {s : State} (h : s.fatal = true) (w : Word) :
    acceptCommand w s = s := if_pos h

/-- The block's step of a pending NOP sets DONE and clears BUSY. -/
theorem blockStep_of_nop {s : State} (h : s.pend = encode .nop) :
    blockStep s = .next (release (complete s)) := by
  simp only [blockStep, execPending, h, decode_encode]
  rfl

/-- With DONE as the only flag and no error, STATUS reads 2 (10_state.md R33). -/
theorem statusWord_of_done {s : State} (hd : s.done = true)
    (hflags : s.busy = false ∧ s.err = false ∧ s.warn = false ∧ s.nan = false ∧ s.fatal = false)
    (hcode : s.errCode = .none) : statusWord s = 0x00000002#32 := by
  obtain ⟨hb, he, hw, hn, hf⟩ := hflags
  simp only [statusWord, hd, hb, he, hw, hn, hf, hcode]
  decide

/-- Settles O10: NOP is its row's word, its write to CMD at reset is accepted, and the block's step
leaves DONE as the only flag. -/
theorem nopSetsDoneAndNothingElse : Obligations.NopSetsDoneAndNothingElse := by
  refine ⟨fun _ => rfl, decode_encode .nop,
    fun _ hf => hostWrite_reg rfl (acceptCommand_of_fatal hf _), fun p => ?_⟩
  have hcmd : hostWrite 0x010 0x00000000#32 (State.resetOf p) =
      (.write .ok, { State.resetOf p with pend := encode .nop, busy := true }) :=
    hostWrite_reg rfl rfl
  rw [hcmd]
  exact ⟨_, blockStep_of_nop rfl,
    hostRead_reg rfl (statusWord_of_done rfl ⟨rfl, rfl, rfl, rfl, rfl⟩ rfl)⟩

end Sys2Proof.Machine
end

section
/-! PROOFS. The noise generator (41_noise_generator.md R190 to R195): a rounded value stays between the finite numbers that its exact value lies between, so NextU returns a value in [0, 1], the successor of SEED is a bijection, and Draw by its method: O20, O21, O22. -/

namespace Sys2Proof.Machine

/-! ### Rounding keeps finite bounds -/

section Bounds

variable {x : ℚ} {r c : F64} {s : Bool} {m : Nat} {e : Int}

/-- A value below the overflow bound rounds to a finite number that no finite number beats. -/
theorem exists_nearest_of_roundsTo (h : RoundsTo binary64 x r.toNat)
    (hx : |x| < overflowBound binary64) (hc : num64 c = .fin s m e) :
    ∃ t n d, num64 r = .fin t n d ∧ |x - valueOf t n d| ≤ |x - valueOf s m e| := by
  obtain ⟨t, n, d, hr, -, hbest⟩ := h.2 hx
  exact ⟨t, n, d, hr, (hbest c.toNat s m e hc).1⟩

/-- A finite number that is at most the exact value is at most the rounded one. -/
theorem fle_roundsTo (h : RoundsTo binary64 x r.toNat) (hx : |x| < overflowBound binary64)
    (hc : num64 c = .fin s m e) (hle : valueOf s m e ≤ x) : fle c r = true := by
  obtain ⟨t, n, d, hr, hnear⟩ := exists_nearest_of_roundsTo h hx hc
  rw [fle_iff_valueOf hc hr]
  rw [abs_of_nonneg (sub_nonneg.2 hle)] at hnear
  linarith [le_abs_self (x - valueOf t n d)]

/-- A finite number that is at least the exact value is at least the rounded one. -/
theorem roundsTo_fle (h : RoundsTo binary64 x r.toNat) (hx : |x| < overflowBound binary64)
    (hc : num64 c = .fin s m e) (hle : x ≤ valueOf s m e) : fle r c = true := by
  obtain ⟨t, n, d, hr, hnear⟩ := exists_nearest_of_roundsTo h hx hc
  rw [fle_iff_valueOf hr hc]
  rw [abs_of_nonpos (sub_nonpos.2 hle)] at hnear
  linarith [neg_abs_le (x - valueOf t n d)]

end Bounds

theorem one_lt_overflowBound64 : 1 < overflowBound binary64 := by
  have hbound : overflowBound binary64 = (2 : ℚ) ^ (970 + 54) - 2 ^ 970 := rfl
  have hunit : (1 : ℚ) ≤ 2 ^ 970 := one_le_pow₀ one_le_two
  rw [hbound, pow_add]
  generalize (2 : ℚ) ^ 970 = unit at hunit ⊢
  linarith

/-- A value in [0, 1] rounds to a binary64 in [0, 1]. -/
theorem roundsTo_mem_unit {x : ℚ} {r : F64} (h : RoundsTo binary64 x r.toNat) (h0 : 0 ≤ x)
    (h1 : x ≤ 1) : fle 0 r = true ∧ fle r one64 = true := by
  have hx : |x| < overflowBound binary64 := by
    rw [abs_of_nonneg h0]
    exact h1.trans_lt one_lt_overflowBound64
  have hzero : num64 0 = .fin false 0 (-1074) := by decide
  have hone : valueOf false (2 ^ 52) (-52) = 1 := by norm_num [valueOf, signedInt]
  exact ⟨fle_roundsTo h hx hzero (valueOf_eq_zero.2 rfl ▸ h0),
    roundsTo_fle h hx num64_one64 (hone ▸ h1)⟩

/-! ### NextU -/

theorem num64_umax : num64 umax = .fin false (2 ^ 53 - 2 ^ 21) (-21) := by decide

/-- UMAX is the greatest SEED. -/
theorem valueOf_umax : valueOf false (2 ^ 53 - 2 ^ 21) (-21) = 2 ^ 32 - 1 := by
  norm_num [valueOf, signedInt]

/-- A draw rounds the quotient of SEED by the greatest SEED: SEED itself is exact in binary64. -/
theorem unitOfSeed_roundsTo (seed : Word) :
    RoundsTo binary64 (seed.toNat / (2 ^ 32 - 1)) (unitOfSeed seed).toNat := by
  have hsmall : (seed.toNat : Int).natAbs ≤ 2 ^ 53 := by
    have := seed.isLt
    omega
  obtain ⟨s, m, e, hnum, hval⟩ := f64OfInt_exact hsmall
  have hdiv := fdiv_roundsTo hnum num64_umax (by decide)
  rwa [hval, valueOf_umax, Int.cast_natCast] at hdiv

/-- A draw lies in [0, 1], since SEED is at most the greatest one. -/
theorem unitOfSeed_mem_unit (seed : Word) :
    fle 0 (unitOfSeed seed) = true ∧ fle (unitOfSeed seed) one64 = true := by
  have hmax : (seed.toNat : ℚ) ≤ 2 ^ 32 - 1 := by
    have : seed.toNat + 1 ≤ 2 ^ 32 := seed.isLt
    have : (seed.toNat : ℚ) + 1 ≤ 2 ^ 32 := by exact_mod_cast this
    linarith
  have hpos : (0 : ℚ) ≤ 2 ^ 32 - 1 := by norm_num
  exact roundsTo_mem_unit (unitOfSeed_roundsTo seed) (div_nonneg (Nat.cast_nonneg _) hpos)
    (div_le_one_of_le₀ hmax hpos)

/-- The successor of SEED in the order of the spec's formula (41_noise_generator.md R190). -/
theorem seedSucc_eq (s : Word) : seedSucc s = s * 1664525#32 + 1013904223#32 := by
  rw [seedSucc, add_comm, mul_comm]

/-- Settles O21: the new SEED is the successor, and its quotient by the greatest SEED is in [0, 1]. -/
theorem nextUReturnsAValueInTheUnitInterval : Obligations.NextUReturnsAValueInTheUnitInterval :=
  fun s => ⟨seedSucc_eq s, rfl, unitOfSeed_mem_unit (seedSucc s)⟩

/-! ### The successor of SEED and its predecessor -/

/-- The multiplier of `pred` is the inverse of that of `succ` modulo `2^32`. -/
theorem predMultiplier_mul_succMultiplier : 0xFEE058C5#32 * 1664525#32 = 1 := by decide

theorem seedPred_seedSucc (s : Word) : seedPred (seedSucc s) = s := by
  rw [seedPred, seedSucc, add_sub_cancel_left, ← mul_assoc, predMultiplier_mul_succMultiplier,
    one_mul]

theorem seedSucc_seedPred (s : Word) : seedSucc (seedPred s) = s := by
  rw [seedPred, seedSucc, ← mul_assoc, mul_comm 1664525#32, predMultiplier_mul_succMultiplier,
    one_mul, add_sub_cancel]

/-- Settles O20: the additive constants cancel, and the multipliers are inverse to each other. -/
theorem seedSuccessorHasItsInverse : Obligations.SeedSuccessorHasItsInverse :=
  fun s => ⟨seedPred_seedSucc s, seedSucc_seedPred s⟩

/-! ### Draw -/

theorem draw_methodRect (seed : Word) : draw methodRect seed = rect seed := if_pos rfl

theorem draw_of_ne_methodRect {m : BitVec 8} (h : m ≠ methodRect) (seed : Word) :
    draw m seed = tri seed := if_neg h

/-- `Rect()` centres one NextU (41_noise_generator.md R191). -/
theorem rect_eq (seed : Word) : rect seed = (fsub (nextU seed).1 onehalf, seedSucc seed) := rfl

/-- `Tri()` takes the second of two NextU from the first (41_noise_generator.md R192). -/
theorem tri_eq (seed : Word) :
    tri seed = (fsub (nextU seed).1 (nextU (seedSucc seed)).1, seedSucc (seedSucc seed)) := rfl

/-- Settles O22: method 0 is RECT and draws by `Rect()`, every other method by `Tri()`. -/
theorem drawFollowsTheMethod : Obligations.DrawFollowsTheMethod := by
  refine fun m s => ⟨fun h => ?_, fun h => ?_⟩
  · rw [h]
    exact (draw_methodRect s).trans (rect_eq s)
  · exact (draw_of_ne_methodRect h s).trans (tri_eq s)

end Sys2Proof.Machine
end

section
/-! PROOFS. The FILL commands (42_fill.md R210 to R218): the report of each check, the fields and the bytes that a FILL which passes them leaves, and O23 to O28. -/

namespace Sys2Proof.Machine

section Fill
variable {rep : Rep} {s : State}

/-! ### The checks of FILL -/

theorem execFill_misaligned (h : s.outBase.toNat % width rep ≠ 0) :
    exec (fillInstr rep) s = .next (raiseErr .align s) := by
  rw [exec_fill, fill, if_pos h]

theorem execFill_outOfRange (ha : s.outBase.toNat % width rep = 0) (hf : ¬ OutputFits rep s) :
    exec (fillInstr rep) s = .next (raiseErr .range s) := by
  rw [exec_fill, fill, if_neg (not_not.2 ha), if_pos (not_le.1 hf)]

theorem execFill_badMethod (ha : s.outBase.toNat % width rep = 0) (hf : OutputFits rep s)
    (hm : 1 + s.params.numNs < s.sMethod.toNat) :
    exec (fillInstr rep) s = .next (raiseFatal s) := by
  have hinvalid : methodValid s.params s.sMethod = false := decide_eq_false (not_le.2 hm)
  rw [exec_fill, fill, if_neg (not_not.2 ha), if_neg (not_lt.2 hf), hinvalid]
  rfl

/-! ### What a FILL that passes its checks leaves -/

theorem execFill_ready (h : FillReady rep s) : exec (fillInstr rep) s = .next (fillRun rep s) :=
  (exec_fill rep s).trans (fill_ready h)

theorem execFill_ready_iff (h : FillReady rep s) {t : State} :
    exec (fillInstr rep) s = .next t ↔ t = fillRun rep s := by
  rw [execFill_ready h, Host.Outcome.next.injEq, eq_comm]

/-- The command's record: SEED, NAN, memory and DONE are its only fields (42_fill.md R210). -/
theorem fillRun_frame (rep : Rep) (s : State) :
    fillRun rep s = { s with
      sSeed := (fillRun rep s).sSeed, nan := (fillRun rep s).nan, mem := (fillRun rep s).mem
      done := true } := rfl

theorem fillRun_sSeed (rep : Rep) (s : State) :
    (fillRun rep s).sSeed = seedAfter (drawAdvances s.sMethod * (s.len.toNat + 2)) s.sSeed :=
  drawMany_seed _ _ _

theorem fillRun_nan_iff :
    (fillRun rep s).nan = true ↔
      s.nan = true ∨ ∃ i < s.len.toNat, convSetsNan rep (fillOutput s i) = true := by
  refine (fillStores_nan rep s _ _ 0 _).trans (or_congr_right (exists_congr fun i => ?_))
  refine and_congr_right fun hi => ?_
  rw [Nat.zero_add, slotOutput_eq (by omega)]

theorem memByte_fillRun_inside {i j : Nat} (hi : i < s.len.toNat) (hj : j < width rep) :
    memByte (fillRun rep s).mem (sampleAddr rep s i + j) =
      some (sampleByte rep (fillOutput s i) j) := by
  have hbyte := fillStores_inside rep s (drawMany s.sMethod (s.len.toNat + 2) s.sSeed).1 (i := 0)
    { nan := s.nan, mem := s.mem } hi hj
  rwa [Nat.zero_add, slotOutput_eq (by omega)] at hbyte

theorem memByte_fillRun_outside {a : Nat} (h : OutsideOutput rep s a) :
    memByte (fillRun rep s).mem a = memByte s.mem a :=
  fillStores_outside _ _ _ _ (by rwa [Nat.zero_add])

end Fill

/-! ### The obligations -/

/-- Settles O23: one report for each check, under the checks before it. -/
theorem fillReportsAlignThenRangeThenFatal : Obligations.FillReportsAlignThenRangeThenFatal :=
  fun _ _ => ⟨execFill_misaligned, fun ha hf => execFill_outOfRange ha (not_le.2 hf),
    execFill_badMethod⟩

/-- Settles O24: the scratch sequence has LEN+2 draws, each of which advances SEED by its method's
NextU calls. -/
theorem fillCompletesAfterTwoExtraDraws : Obligations.FillCompletesAfterTwoExtraDraws :=
  fun rep s h => ⟨_, execFill_ready h, rfl, fillRun_sSeed rep s⟩

/-- Settles O25: the slot of draws by number is `v i`, and its product with SCALE is what is stored. -/
theorem fillStoresTheScaledSlots : Obligations.FillStoresTheScaledSlots :=
  fun _ _ h => ⟨_, execFill_ready h, fun _ hi _ hj => memByte_fillRun_inside hi hj⟩

/-- Settles O26: the record of the run names what it sets, and its stores stay in the output range. -/
theorem fillFrame : Obligations.FillFrame := by
  intro rep s t h ht
  obtain rfl := (execFill_ready_iff h).1 ht
  exact ⟨fillRun_frame rep s, fun _ => memByte_fillRun_outside⟩

/-- Settles O27: NAN gathers what `Conv` sets, store by store, and only an integer store of a NaN
sets it. -/
theorem fillSetsNanForIntegerStoresOfNan : Obligations.FillSetsNanForIntegerStoresOfNan := by
  intro rep s t h ht
  obtain rfl := (execFill_ready_iff h).1 ht
  simp only [fillRun_nan_iff, convSetsNan_iff, and_left_comm, exists_and_left]

/-- Settles O28: the checks, the new SEED, the place of each sample and its value are functions of the
operands. -/
theorem fillDependsOnlyOnItsOperands : Obligations.FillDependsOnlyOnItsOperands := by
  intro rep s s' h hparams hmethod hscale hseed hlen hbase
  have h' : FillReady rep s' := by
    simpa only [FillReady, OutputFits, hparams, hmethod, hlen, hbase] using h
  refine ⟨_, _, execFill_ready h, execFill_ready h', ?_, fun a ha => ?_⟩
  · rw [fillRun_sSeed, fillRun_sSeed, hmethod, hlen, hseed]
  · obtain ⟨i, hi, j, hj, rfl⟩ := output_cover ha
    have haddr : sampleAddr rep s' i = sampleAddr rep s i := by simp only [sampleAddr, hbase]
    have hvalue : fillOutput s' i = fillOutput s i := by
      simp only [fillOutput, hmethod, hseed, hscale]
    rw [memByte_fillRun_inside hi hj, ← haddr, memByte_fillRun_inside (by rwa [hlen]) hj, hvalue]

end Sys2Proof.Machine
end

section
/-! PROOFS. The store rules (43_quantize.md R230, R231; 00_scope.md R10, R11): the integer stores round and then saturate, the fields of a binary32, where the F32 store overflows, and O37, O42. -/

namespace Sys2Proof.Machine

/-- The pattern of an infinity stands for it. -/
theorem num64_inf64 (s : Bool) : num64 (inf64 s) = .inf s := by cases s <;> decide

/-! ### Integer stores -/

theorem convInt_of_nan {v : F64} (lo hi : Int) (h : isNaN v = true) : convInt lo hi v = 0 := by
  rw [convInt, isNaN_iff.1 h]

theorem convInt_inf64 (lo hi : Int) (neg : Bool) :
    convInt lo hi (inf64 neg) = if neg then lo else hi := by
  rw [convInt, num64_inf64]

/-- A finite value is rounded first and limited to the range then (43_quantize.md R230). -/
theorem convInt_of_fin {v : F64} {s : Bool} {m : Nat} {e : Int} (lo hi : Int)
    (h : num64 v = .fin s m e) : convInt lo hi v = clamp lo hi (rneInt v) := by
  rw [convInt, h]

/-- What an integer store gives lies in a range that has 0. -/
theorem convInt_mem {lo hi : Int} (hlo : lo ≤ 0) (hhi : 0 ≤ hi) (v : F64) :
    lo ≤ convInt lo hi v ∧ convInt lo hi v ≤ hi := by
  cases hv : num64 v with
  | nan => rw [convInt_of_nan lo hi (isNaN_iff.2 hv)]; exact ⟨hlo, hhi⟩
  | inf neg => rw [eq_inf64 hv, convInt_inf64]; split <;> omega
  | fin s m e => rw [convInt_of_fin lo hi hv, clamp]; omega

/-- Settles O37: S16 and S32 are `convInt` with their range, and its cases are those of R230. -/
theorem integerStoresRoundThenSaturate : Obligations.IntegerStoresRoundThenSaturate := by
  intro rep lo hi n h v
  obtain ⟨hconv, hnan, hbits, hlo, hhi⟩ : conv rep v = .int (convInt lo hi v)
      ∧ convSetsNan rep v = isNaN v ∧ 8 * width rep = n ∧ lo ≤ 0 ∧ 0 ≤ hi := by
    rcases h with ⟨rfl, rfl, rfl, rfl⟩ | ⟨rfl, rfl, rfl, rfl⟩ <;>
      exact ⟨rfl, rfl, rfl, by decide, by decide⟩
  obtain ⟨hmin, hmax⟩ := convInt_mem hlo hhi v
  refine ⟨convInt lo hi v, hconv, hmin, hmax, hnan, convInt_of_nan lo hi, ?_, ?_,
    fun s m e hv => ?_, ?_, rfl⟩
  · rintro rfl; exact convInt_inf64 lo hi false
  · rintro rfl; exact convInt_inf64 lo hi true
  · rw [convInt_of_fin lo hi hv, clamp]; omega
  · rw [bits, hbits, BitVec.toNat_ofInt]; norm_cast

/-! ### binary32 -/

/-- The number of a pattern by its fields. -/
theorem unpack_eq_fields (f : Format) {w : Nat} (b : BitVec w) :
    f.unpack b.toNat =
      if (b.extractLsb' f.fracBits f.expBits).toNat = 2 ^ f.expBits - 1 then
        if (b.extractLsb' 0 f.fracBits).toNat = 0 then .inf (b.getLsbD (f.fracBits + f.expBits))
        else .nan
      else if (b.extractLsb' f.fracBits f.expBits).toNat = 0 then
        .fin (b.getLsbD (f.fracBits + f.expBits)) (b.extractLsb' 0 f.fracBits).toNat f.minExp
      else .fin (b.getLsbD (f.fracBits + f.expBits))
        (2 ^ f.fracBits + (b.extractLsb' 0 f.fracBits).toNat)
        (f.minExp + ((b.extractLsb' f.fracBits f.expBits).toNat - 1 : Nat)) := by
  rw [BitVec.getLsbD, Nat.testBit_eq_decide_div_mod_eq, ← beq_eq_decide, BitVec.extractLsb'_toNat,
    BitVec.extractLsb'_toNat, Nat.shiftRight_zero, Nat.shiftRight_eq_div_pow]
  rfl

/-- The number of a binary32 by its fields, the exponent with its bias taken off. -/
theorem num32_eq_fields (q : F32) :
    num32 q =
      if (q.extractLsb' 23 8).toNat = 255 then
        if (q.extractLsb' 0 23).toNat = 0 then .inf (q.getLsbD 31) else .nan
      else if (q.extractLsb' 23 8).toNat = 0 then
        .fin (q.getLsbD 31) (q.extractLsb' 0 23).toNat (-149)
      else .fin (q.getLsbD 31) (2 ^ 23 + (q.extractLsb' 0 23).toNat)
        ((q.extractLsb' 23 8).toNat - 150) := by
  refine (unpack_eq_fields binary32 q).trans ?_
  refine ite_congr rfl (fun _ => rfl) fun _ => ite_congr rfl (fun _ => rfl) fun hex => ?_
  have hex : (q.extractLsb' 23 8).toNat ≠ 0 := hex
  have hmin : binary32.minExp = -149 := by decide
  have hexp : -149 + (((q.extractLsb' 23 8).toNat - 1 : Nat) : Int) =
      (q.extractLsb' 23 8).toNat - 150 := by omega
  rw [hmin, ← hexp]
  rfl

/-- A finite binary32 is a binary64 number (00_scope.md R11). -/
theorem num64_f64OfF32_of_fin {q : F32} {s : Bool} {m : Nat} {e : Int}
    (h : num32 q = .fin s m e) :
    ∃ m' e', num64 (f64OfF32 q) = .fin s m' e' ∧ valueOf s m' e' = valueOf s m e := by
  obtain ⟨hm, hlo, hhi⟩ := num32_range h
  rw [f64OfF32, h]
  exact round64_exact s (by omega) (by omega) (by omega)

theorem num64_f64OfF32_of_inf {q : F32} {s : Bool} (h : num32 q = .inf s) :
    num64 (f64OfF32 q) = .inf s := by
  rw [f64OfF32, h, num64_inf64]

theorem f64OfF32_of_nan {q : F32} (h : num32 q = .nan) : f64OfF32 q = nan64 := by
  rw [f64OfF32, h]

/-! ### Where the F32 store overflows -/

section Overflow
variable {v : F64} {s : Bool} {m : Nat} {e : Int}

theorem rneF32_of_isNaN (h : isNaN v = true) : rneF32 v = nan32 := by
  rw [rneF32, isNaN_iff.1 h]

theorem rneF32_inf64 (s : Bool) :
    rneF32 (inf64 s) = if s then 0xFF800000#32 else 0x7F800000#32 := by
  rw [rneF32, num64_inf64]
  cases s <;> rfl

/-- A finite value is packed into binary32. -/
theorem rneF32_toNat_of_fin (h : num64 v = .fin s m e) :
    (rneF32 v).toNat = binary32.pack s m e := by
  rw [rneF32, h, BitVec.toNat_ofNat, Nat.mod_eq_of_lt (pack32_lt s m e)]

theorem rneF32_roundsTo (h : num64 v = .fin s m e) :
    RoundsTo binary32 (valueOf s m e) (rneF32 v).toNat := by
  rw [rneF32_toNat_of_fin h]
  exact pack_roundsTo binary32 (by decide) (by decide) s m e

/-- The overflow bound of binary32 in units of binary64: its pattern there. -/
theorem overflowBound32_eq :
    overflowBound binary32 = binary64.units 0x47EFFFFFF0000000 * (2 : ℚ) ^ binary64.minExp := by
  have hunits : binary64.units (1149 * 2 ^ 52 + (2 ^ 53 - 2 ^ 28)) = (2 ^ 53 - 2 ^ 28) * 2 ^ 1149 :=
    units_canonical binary64 (by decide) (.inr (by decide))
  have hmin : binary64.minExp = -1074 := by decide
  have hbound : overflowBound binary32 = (2 : ℚ) ^ 128 - 2 ^ 103 := rfl
  have hunit : (2 : ℚ) ^ 1149 * 2 ^ (-1074 : Int) = 2 ^ 75 := by
    rw [← zpow_natCast, ← zpow_add₀ two_ne_zero, ← zpow_natCast]; rfl
  rw [show 0x47EFFFFFF0000000 = 1149 * 2 ^ 52 + (2 ^ 53 - 2 ^ 28) from rfl, hunits, hmin, hbound,
    Nat.cast_mul, Nat.cast_pow, Nat.cast_ofNat, mul_assoc, hunit]
  norm_num

/-- A finite binary64 reaches the overflow bound of binary32 exactly when its magnitude bits reach
those of the bound. -/
theorem overflowBound32_le_iff (h : num64 v = .fin s m e) :
    overflowBound binary32 ≤ |valueOf s m e| ↔ 0x47EFFFFFF0000000 ≤ v.toNat % 2 ^ 63 := by
  obtain ⟨hval, -, -⟩ := valueOf_unpack binary64 h
  have hmono : StrictMono binary64.units := fun _ _ => units_lt_units binary64
  have habs (p : Nat) : |((signedInt s p : Int) : ℚ)| = p := by
    cases s <;> simp [signedInt]
  rw [hval, abs_mul, habs, abs_of_pos (unit_pos binary64), overflowBound32_eq,
    mul_le_mul_iff_left₀ (unit_pos binary64), Nat.cast_le, hmono.le_iff_le]
  rfl

/-- Magnitude bits below those of an infinity stand for a number, of the sign of the top bit. -/
theorem num64_fin_of_magnitude_lt (h : v.toNat % 2 ^ 63 < 0x7FF0000000000000) :
    ∃ m e, num64 v = .fin (decide (2 ^ 63 ≤ v.toNat)) m e := by
  have hsplit : v.toNat = binary64.signPattern (decide (2 ^ 63 ≤ v.toNat)) + v.toNat % 2 ^ 63 := by
    have hlt := v.isLt
    rw [signPattern_eq, show binary64.fracBits + binary64.expBits = 63 from rfl]
    simp only [decide_eq_true_eq]
    split <;> omega
  obtain ⟨m, e, hfin⟩ := unpack_fin binary64 (decide (2 ^ 63 ≤ v.toNat)) h
  rw [← hsplit] at hfin
  exact ⟨m, e, hfin⟩

/-- The sign of a finite number is the top bit of its pattern. -/
theorem sign_of_fin (h : num64 v = .fin s m e) : s = decide (2 ^ 63 ≤ v.toNat) := by
  obtain ⟨-, -, hlt⟩ := valueOf_unpack binary64 h
  obtain ⟨m', e', h'⟩ := num64_fin_of_magnitude_lt hlt
  exact (Num.fin.inj (h.symm.trans h')).1

/-- A value that is not zero is below zero exactly when its sign is set. -/
theorem decide_valueOf_neg (h : valueOf s m e ≠ 0) : decide (valueOf s m e < 0) = s := by
  have hm : (0 : ℚ) < m := by
    exact_mod_cast Nat.pos_of_ne_zero fun hm => h (valueOf_eq_zero.2 hm)
  have hpos : (0 : ℚ) < m * 2 ^ e := mul_pos hm (zpow_pos two_pos e)
  rw [valueOf_sign]
  cases s
  · simpa using hpos.le
  · simpa using hpos

/-- From the overflow bound on a finite value becomes the infinity of its sign
(43_quantize.md R231). -/
theorem rneF32_of_overflow (h : num64 v = .fin s m e)
    (hbound : overflowBound binary32 ≤ |valueOf s m e|) : rneF32 v = rneF32 (inf64 s) := by
  have hne : valueOf s m e ≠ 0 :=
    abs_pos.1 ((overflowBound_pos binary32 (by decide)).trans_le hbound)
  apply BitVec.eq_of_toNat_eq
  rw [(rneF32_roundsTo h).1 hbound, decide_valueOf_neg hne, rneF32_inf64]
  cases s <;> rfl

/-- Magnitudes from the overflow bound on store as the infinity of their sign. -/
theorem rneF32_of_magnitude_ge (hnan : isNaN v = false)
    (h : 0x47EFFFFFF0000000 ≤ v.toNat % 2 ^ 63) :
    rneF32 v = if v.toNat < 2 ^ 63 then 0x7F800000#32 else 0xFF800000#32 := by
  cases hv : num64 v with
  | nan => rw [isNaN_iff.2 hv] at hnan; cases hnan
  | inf s => rw [eq_inf64 hv, rneF32_inf64]; cases s <;> rfl
  | fin s m e =>
    rw [rneF32_of_overflow hv ((overflowBound32_le_iff hv).2 h), rneF32_inf64, sign_of_fin hv]
    simp only [decide_eq_true_eq, ← not_lt, ite_not]

/-- Magnitudes below the overflow bound store as finite numbers. -/
theorem rneF32_of_magnitude_lt (h : v.toNat % 2 ^ 63 < 0x47EFFFFFF0000000) :
    (rneF32 v).toNat % 2 ^ 31 < 0x7F800000 := by
  obtain ⟨m, e, hv⟩ := num64_fin_of_magnitude_lt (h.trans (by decide))
  have hbound := not_le.1 ((overflowBound32_le_iff hv).not.2 (not_le.2 h))
  obtain ⟨t, n, d, hr, -⟩ := (rneF32_roundsTo hv).2 hbound
  obtain ⟨-, -, hlt⟩ := valueOf_unpack binary32 hr
  exact hlt

/-- What equals zero is one of the two zeros. -/
theorem eq_zero64_of_feq (h : feq v 0 = true) : v = zero64 false ∨ v = zero64 true := by
  have hkey : orderKey v = 0 := by
    rw [feq, Bool.and_eq_true, beq_iff_eq] at h
    exact h.2
  rcases orderKey_cases v with ⟨-, hv⟩ | ⟨hle, hv⟩
  · exact .inl (BitVec.eq_of_toNat_eq (show v.toNat = 0 by omega))
  · exact .inr (BitVec.eq_of_toNat_eq (show v.toNat = 2 ^ 63 by omega))

/-- Zeros keep their sign. -/
theorem rneF32_of_feq_zero (h : feq v 0 = true) :
    rneF32 v = if v.toNat < 2 ^ 63 then 0#32 else 0x80000000#32 := by
  rcases eq_zero64_of_feq h with rfl | rfl <;> decide

end Overflow

/-- Settles O42: each class of binary64 that the F32 store takes, and each class of binary32 that
comes back. -/
theorem f32StoreOverflowsToInfinity : Obligations.F32StoreOverflowsToInfinity :=
  ⟨fun _ => ⟨rfl, rfl, rfl, rfl, rneF32_of_isNaN, rneF32_of_magnitude_ge, rneF32_of_magnitude_lt,
      fun _ _ _ => rneF32_roundsTo, rneF32_of_feq_zero⟩,
    fun q => ⟨rfl, rfl, num32_eq_fields q, fun _ _ _ => num64_f64OfF32_of_fin,
      fun _ => num64_f64OfF32_of_inf, f64OfF32_of_nan⟩⟩

end Sys2Proof.Machine
end

section
/-! PROOFS. The QUANT commands (43_quantize.md R231 to R237): the report of each check, the samples one by one, what they read and write, and O29, O31, O32, O34, O35, O36, O38. -/

namespace Sys2Proof.Machine

section Quant
variable {rep : Rep} {s t : State} {n i : Nat} {c d : Stream}

/-! ### The checks of QUANT -/

theorem execQuant_misaligned (h : s.outBase.toNat % width rep ≠ 0) :
    exec (quantInstr rep) s = .next (raiseErr .align s) := by
  rw [exec_quant, quant, if_pos h]

theorem execQuant_outOfRange (ha : s.outBase.toNat % width rep = 0)
    (hf : ¬ InputFits s ∨ ¬ OutputFits rep s) :
    exec (quantInstr rep) s = .next (raiseErr .range s) := by
  rw [exec_quant, quant, if_neg (not_not.2 ha), if_pos (hf.imp not_le.1 not_le.1)]

theorem execQuant_badMethod (ha : s.outBase.toNat % width rep = 0) (hin : InputFits s)
    (hout : OutputFits rep s) (hm : 1 + s.params.numNs < s.sMethod.toNat) :
    exec (quantInstr rep) s = .next (raiseFatal s) := by
  have hinvalid : methodValid s.params s.sMethod = false := decide_eq_false (not_le.2 hm)
  rw [exec_quant, quant, if_neg (not_not.2 ha),
    if_neg (not_or.2 ⟨not_lt.2 hin, not_lt.2 hout⟩), hinvalid]
  rfl

/-- A QUANT that passes its checks answers the stream of its samples, put back, and DONE
(43_quantize.md R236). -/
theorem execQuant_next_iff (h : QuantChecksPass rep s) :
    exec (quantInstr rep) s = .next t ↔
      ∃ c, quantSamples rep s s.len.toNat 0 (streamOf s) = .ok c
        ∧ t = complete (withStream s c) := by
  rw [exec_quant, quant_pass h, quantRun]
  cases quantSamples rep s s.len.toNat 0 (streamOf s) <;> simp [eq_comm]

/-- A QUANT whose samples run through completes. -/
theorem execQuant_of_samples (h : QuantChecksPass rep s)
    (hq : quantSamples rep s s.len.toNat 0 (streamOf s) = .ok c) :
    exec (quantInstr rep) s = .next (complete (withStream s c)) :=
  (execQuant_next_iff h).2 ⟨c, hq, rfl⟩

/-! ### The samples, one by one -/

/-- The first of some samples reads a written entry, and the others follow its cycle. -/
theorem quantSamples_succ_iff :
    quantSamples rep s (n + 1) i c = .ok d ↔
      ∃ x, ibufRead c.out.mem (s.inBase.toNat + i) = some x
        ∧ quantSamples rep s n (i + 1) (quantCycle rep s i x c) = .ok d := by
  rw [quantSamples]
  rcases quantSample_cases rep s i c with ⟨x, hx, e⟩ | ⟨hx, e⟩ <;> simp [e, hx]

/-- With every entry written since reset the samples run through (43_quantize.md R236). -/
theorem quantSamples_of_ready (hw : s.params.wf = true) (h : QuantReady rep s) :
    ∃ c, quantSamples rep s s.len.toNat 0 (streamOf s) = .ok c := by
  obtain ⟨⟨-, hin, -⟩, hwritten⟩ := h
  exact quantSamples_ok hw (by rwa [Nat.zero_add]) (fun _ _ => rfl)
    (fun k _ hk => hwritten k (by rwa [Nat.zero_add] at hk))

/-- Each sample makes one draw (43_quantize.md R237 (a)). -/
theorem quantSamples_seed (h : quantSamples rep s n i c = .ok d) :
    d.seed = seedAfter (drawAdvances s.sMethod * n) c.seed := by
  induction n generalizing i c with
  | zero => cases h; rfl
  | succ n ih =>
    obtain ⟨x, -, h⟩ := quantSamples_succ_iff.1 h
    rw [ih h, quantCycle_seed, draw_seed, ← seedAfter_add, Nat.mul_succ, Nat.add_comm]

/-- Each sample moves POS on by one around the ring (43_quantize.md R237 (a)). -/
theorem quantSamples_pos (hw : s.params.wf = true) (hc : c.pos.toNat < s.params.cap)
    (h : quantSamples rep s n i c = .ok d) :
    d.pos.toNat = (c.pos.toNat + n) % s.params.cap := by
  induction n generalizing i c with
  | zero => cases h; exact (Nat.mod_eq_of_lt hc).symm
  | succ n ih =>
    obtain ⟨x, -, h⟩ := quantSamples_succ_iff.1 h
    have hpos := quantCycle_pos_toNat (rep := rep) hw i x c
    rw [ih (hpos ▸ Nat.mod_lt _ (wf_nums hw).1) h, hpos, Nat.mod_add_mod, Nat.add_assoc,
      Nat.add_comm 1]

/-- The samples keep the length of HIST. -/
theorem quantSamples_hist_length (h : quantSamples rep s n i c = .ok d) :
    d.hist.length = c.hist.length :=
  quantSamples_induct (P := fun e => e.hist.length = c.hist.length)
    (fun _ _ _ he => (quantCycle_hist_length ..).trans he) h rfl

/-! ### The value that a sample stores -/

/-- The target is the input itself for TAPS = 0 and has the shaping sum added otherwise
(43_quantize.md R232). -/
theorem shapedTarget_eq (s : State) (c : Stream) (x : F64) :
    shapedTarget s c x = if s.sTaps = 0 then x else fadd x (shapingSum s c) := by
  rw [shapedTarget, ← ite_not]
  exact if_congr (by rw [Nat.not_lt, Nat.le_zero, ← BitVec.toNat_inj]; rfl) rfl rfl

/-- v: the shaped and dithered input in target units (43_quantize.md R233, R234). -/
def cycleValue (s : State) (x : F64) (c : Stream) : F64 :=
  fmul (fadd (shapedTarget s c x) (fmul (draw s.sMethod c.seed).1 s.sScale))
    (unitFactor s.sRatio)

theorem quantCycle_out (rep : Rep) (s : State) (i : Nat) (x : F64) (c : Stream) :
    (quantCycle rep s i x c).out = storeSample rep (sampleAddr rep s i) (cycleValue s x c) c.out :=
  rfl

theorem quantCycle_hist (rep : Rep) (s : State) (i : Nat) (x : F64) (c : Stream) :
    (quantCycle rep s i x c).hist = fileWrite c.hist c.pos.toNat
      (fsub (backToSource s.sRatio (conv rep (cycleValue s x c))) (shapedTarget s c x)) := rfl

/-- The bytes of a sample after its cycle (43_quantize.md R235). -/
theorem quantCycle_inside {j : Nat} (x : F64) (c : Stream) (hj : j < width rep) :
    memByte (quantCycle rep s i x c).out.mem (sampleAddr rep s i + j) =
      some (sampleByte rep (cycleValue s x c) j) :=
  storeSample_inside _ _ _ hj

theorem sampleAddr_zero (rep : Rep) (s : State) :
    sampleAddr rep s 0 = obufOrigin + s.outBase.toNat := by
  rw [sampleAddr, Nat.zero_mul, Nat.add_zero]

/-- A cycle looks at nothing of NAN and memory but its input: it only stores into them. -/
theorem quantCycle_withOut (rep : Rep) (s : State) (i : Nat) (x : F64) (c : Stream) (o : Output) :
    quantCycle rep s i x { c with out := o } =
      { quantCycle rep s i x c with
        out := storeSample rep (sampleAddr rep s i) (cycleValue s x c) o } := rfl

/-- A float store is no integer store of a NaN. -/
theorem convSetsNan_of_float (h : rep = .f32 ∨ rep = .f64) (v : F64) :
    convSetsNan rep v = false := by
  rcases h with rfl | rfl <;> rfl

/-- Samples of a float representation leave NAN. -/
theorem quantSamples_nan_of_float (hr : rep = .f32 ∨ rep = .f64)
    (h : quantSamples rep s n i c = .ok d) : d.out.nan = c.out.nan := by
  refine quantSamples_induct (P := fun e => e.out.nan = c.out.nan) (fun i x e he => ?_) h rfl
  rw [quantCycle_out, storeSample_nan, convSetsNan_of_float hr, Bool.or_false, he]

/-- A FILL of a float representation leaves NAN, whether it reports or runs. -/
theorem execFill_nan_of_float (hr : rep = .f32 ∨ rep = .f64)
    (h : exec (fillInstr rep) s = .next t) : t.nan = s.nan := by
  rw [exec_fill] at h
  rcases fill_cases rep s with ⟨-, e⟩ | ⟨-, -, e⟩ | ⟨-, -, -, e⟩ | ⟨-, e⟩ <;> rw [e] at h <;>
    cases h
  · rfl
  · rfl
  · rfl
  · rw [Bool.eq_iff_iff, fillRun_nan_iff]
    simp [convSetsNan_of_float hr]

/-- A QUANT of a float representation leaves NAN, whether it reports or runs. -/
theorem execQuant_nan_of_float (hr : rep = .f32 ∨ rep = .f64)
    (h : exec (quantInstr rep) s = .next t) : t.nan = s.nan := by
  rcases quant_cases rep s with ⟨-, e⟩ | ⟨-, -, e⟩ | ⟨-, -, -, -, e⟩ | ⟨hpass, -⟩
  case inr.inr.inr =>
    obtain ⟨c, hq, rfl⟩ := (execQuant_next_iff hpass).1 h
    exact quantSamples_nan_of_float hr hq
  all_goals
    rw [exec_quant, e] at h
    cases h
    rfl

/-! ### What the samples depend on -/

/-- Stores in OBUF leave the entries of IBUF. -/
theorem ibufRead_storeSample {k : Nat} (hk : k < 8192) (v : F64) (o : Output) :
    ibufRead (storeSample rep (sampleAddr rep s i) v o).mem k = ibufRead o.mem k :=
  ibufRead_congr hk le_rfl fun _ ha => storeSample_outside v o (.inl (lt_sampleAddr rep s i ha))

/-- Samples from another memory that shows the same entries run through with the same HIST, POS and
SEED, and write the same bytes. -/
theorem quantSamples_withOut {o : Output} (hn : s.inBase.toNat + (i + n) ≤ 8192)
    (hin : ∀ k, i ≤ k → k < i + n →
      ibufRead o.mem (s.inBase.toNat + k) = ibufRead c.out.mem (s.inBase.toNat + k))
    (h : quantSamples rep s n i c = .ok d) :
    ∃ o', quantSamples rep s n i { c with out := o } = .ok { d with out := o' }
      ∧ ∀ a, sampleAddr rep s i ≤ a → a < sampleAddr rep s (i + n) →
        memByte o'.mem a = memByte d.out.mem a := by
  induction n generalizing i c o with
  | zero => cases h; exact ⟨o, rfl, fun a hle hlt => absurd hlt (not_lt.2 hle)⟩
  | succ n ih =>
    obtain ⟨x, hx, hrest⟩ := quantSamples_succ_iff.1 h
    have hlast : i + (n + 1) = i + 1 + n := by omega
    obtain ⟨o', hrest', hbytes⟩ := ih (i := i + 1) (by omega)
      (o := storeSample rep (sampleAddr rep s i) (cycleValue s x c) o)
      (fun k hk hkn => by
        rw [quantCycle_out, ibufRead_storeSample (by omega), ibufRead_storeSample (by omega),
          hin k (by omega) (by omega)])
      hrest
    rw [← quantCycle_withOut] at hrest'
    refine ⟨o', quantSamples_succ_iff.2 ⟨x, (hin i le_rfl (by omega)).trans hx, hrest'⟩,
      fun a hle hlt => ?_⟩
    rcases Nat.lt_or_ge a (sampleAddr rep s (i + 1)) with hfirst | hlater
    · have hwidth := sampleAddr_add rep s i 1
      obtain ⟨j, rfl⟩ := Nat.exists_eq_add_of_le hle
      have hj : j < width rep := by omega
      rw [quantSamples_outside hrest (.inl hfirst), quantSamples_outside hrest' (.inl hfirst),
        quantCycle_inside _ _ hj, quantCycle_inside _ _ hj]
      rfl
    · exact hbytes a hlater (hlast ▸ hlt)

/-- What the samples read of the state beside their stream (43_quantize.md R232 to R235). -/
structure SameOperands (s s' : State) : Prop where
  params : s'.params = s.params
  inBase : s'.inBase = s.inBase
  outBase : s'.outBase = s.outBase
  sMethod : s'.sMethod = s.sMethod
  sTaps : s'.sTaps = s.sTaps
  sRatio : s'.sRatio = s.sRatio
  sScale : s'.sScale = s.sScale
  coef : s'.coef = s.coef

theorem quantCycle_congr {s' : State} (h : SameOperands s s') :
    quantCycle rep s' = quantCycle rep s := by
  funext i x c
  simp only [quantCycle, shapedTarget, shapingSum, shapingTerm, sampleAddr, h.params, h.outBase,
    h.sMethod, h.sTaps, h.sRatio, h.sScale, h.coef]

theorem quantSamples_congr {s' : State} (h : SameOperands s s') (n i : Nat) (c : Stream) :
    quantSamples rep s' n i c = quantSamples rep s n i c := by
  induction n generalizing i c with
  | zero => rfl
  | succ n ih => simp only [quantSamples, quantSample, quantCycle_congr h, h.inBase, ih]

end Quant

/-! ### The obligations -/

/-- Settles O29: one report for each check, under the checks before it. -/
theorem quantReportsAlignThenRangeThenFatal : Obligations.QuantReportsAlignThenRangeThenFatal :=
  fun _ _ => ⟨execQuant_misaligned,
    fun ha hf => execQuant_outOfRange ha (hf.imp not_le.2 not_le.2), execQuant_badMethod⟩

/-- Settles O31: with every entry written the samples run through, and each of them moves POS and
SEED. -/
theorem quantCompletesAndMovesPosAndSeed : Obligations.QuantCompletesAndMovesPosAndSeed := by
  intro rep s hw hpos hready
  obtain ⟨c, hq⟩ := quantSamples_of_ready hw hready
  exact ⟨_, execQuant_of_samples hready.1 hq, rfl, quantSamples_pos hw hpos hq,
    quantSamples_seed hq⟩

/-- Settles O32: the only sample is the cycle of sample 0 from the stream of the state, and its
fields are those of the rules. -/
theorem quantOfOneSampleFollowsTheCycle : Obligations.QuantOfOneSampleFollowsTheCycle := by
  intro rep s x hw hpass hlen hx acc t u g v q back
  have ht : shapedTarget s (streamOf s) x = t := shapedTarget_eq s (streamOf s) x
  have hv : cycleValue s x (streamOf s) = v := by rw [cycleValue, ht]; rfl
  have hq : quantSamples rep s s.len.toNat 0 (streamOf s) =
      .ok (quantCycle rep s 0 x (streamOf s)) := by
    rw [hlen]
    exact quantSamples_succ_iff.2 ⟨x, hx, rfl⟩
  refine ⟨_, execQuant_of_samples hpass hq, ?_, quantCycle_pos_toNat (rep := rep) hw 0 x _, rfl,
    fun j hj => ?_, ?_⟩
  · refine (quantCycle_hist rep s 0 x (streamOf s)).trans ?_
    rw [hv, ht]
    rfl
  · have hbyte := quantCycle_inside (s := s) (i := 0) x (streamOf s) hj
    rw [sampleAddr_zero, hv] at hbyte
    exact hbyte
  · rw [← hv, ← convSetsNan_iff, ← Bool.or_eq_true]
    rfl

/-- Settles O34: the record of the answer names what it sets, and the samples keep the length of
HIST and store in the output range. -/
theorem quantFrame : Obligations.QuantFrame := by
  intro rep s t hpass ht
  obtain ⟨c, hq, rfl⟩ := (execQuant_next_iff hpass).1 ht
  exact ⟨rfl, quantSamples_hist_length hq,
    fun a ha => quantSamples_outside hq (by rwa [Nat.zero_add])⟩

/-- Settles O35: no samples leave the stream as it was taken from the state. -/
theorem quantOfNoSamplesSetsDoneOnly : Obligations.QuantOfNoSamplesSetsDoneOnly := by
  intro rep s hpass hlen
  have hq : quantSamples rep s s.len.toNat 0 (streamOf s) = .ok (streamOf s) := by rw [hlen]; rfl
  exact execQuant_of_samples hpass hq

/-- Settles O36: the second state runs the first one's samples, from a stream that differs in NAN and
memory only and shows the same entries. -/
theorem quantDependsOnlyOnItsOperands : Obligations.QuantDependsOnlyOnItsOperands := by
  intro rep s s' hw hready hparams hlen hinBase houtBase hmethod htaps hpos hseed hratio
    hscale hcoef hhist hentries
  have ⟨hpass, _⟩ := hready
  have ⟨_, hin, _⟩ := hpass
  have hbuf : s.inBase.toNat + (0 + s.len.toNat) ≤ 8192 := by
    rw [Nat.zero_add]; exact hin.trans (wf_nums hw).2.2.1
  have hsame : SameOperands s s' :=
    ⟨hparams, hinBase, houtBase, hmethod, htaps, hratio, hscale, hcoef⟩
  have hpass' : QuantChecksPass rep s' := by
    simpa only [QuantChecksPass, InputFits, OutputFits, hparams, hlen, hinBase, houtBase, hmethod]
      using hpass
  have hstream : streamOf s' = { streamOf s with out := { nan := s'.nan, mem := s'.mem } } := by
    simp only [streamOf, hhist, hpos, hseed]
  obtain ⟨c, hq⟩ := quantSamples_of_ready hw hready
  obtain ⟨o, hq', hbytes⟩ := quantSamples_withOut (o := { nan := s'.nan, mem := s'.mem }) hbuf
    (fun k _ hk => hentries k (by rwa [Nat.zero_add] at hk)) hq
  rw [← hstream, ← quantSamples_congr hsame, ← hlen] at hq'
  refine ⟨_, _, execQuant_of_samples hpass hq, execQuant_of_samples hpass' hq', rfl, rfl, rfl,
    fun a ha => ?_⟩
  rw [OutsideOutput, not_or, not_lt, not_le] at ha
  exact hbytes a ha.1 (by rw [Nat.zero_add]; exact ha.2)

/-- Settles O38: a report leaves NAN, and so does every store of a float representation. -/
theorem floatStoresNeverSetNan : Obligations.FloatStoresNeverSetNan :=
  fun _ _ _ hr h => h.elim (execFill_nan_of_float hr) (execQuant_nan_of_float hr)

end Sys2Proof.Machine
end

section
/-! PROOFS. Commands and what they report (60_exceptions.md R270 to R280): the block's step, the model fault of a QUANT, how FATAL is set and what a step leaves while it is set, and the interrupt output: O8, O30, O45, O47, O59, O60. -/

namespace Sys2Proof.Machine

/-! ### A command becomes pending and runs -/

/-- Settles O47: CMD is a register, and its write is the acceptance of a command. -/
theorem cmdWriteIsAcceptedOrDropped : Obligations.CmdWriteIsAcceptedOrDropped :=
  fun _ _ => hostWrite_reg rfl rfl

/-- Settles O8: on the block's turn with BUSY = 1 the step is the block's, which runs what the pending
word decodes to. -/
theorem stepRunsThePendingCommand : Obligations.StepRunsThePendingCommand := by
  intro s i hturn hbusy hdecode
  have hstep : step s = blockStep (takeTurn s) := by
    rw [step, machineStep, hturn]
    exact if_pos hbusy
  have hexec : execPending (takeTurn s) = exec i (takeTurn s) := by
    rw [execPending, takeTurn_pend, hdecode]
  rw [hstep, blockStep, hexec]
  rfl

/-! ### The model fault of a QUANT -/

/-- The first of some samples stops with the model fault when its entry is unwritten. -/
theorem quantSamples_of_unwritten {rep : Rep} {s : State} {i : Nat} {c : Stream} (n : Nat)
    (h : ibufRead c.out.mem (s.inBase.toNat + i) = none) :
    quantSamples rep s (n + 1) i c = .error (.unwrittenIbuf (s.inBase.toNat + i)) := by
  rw [quantSamples, quantSample, h]

/-- Samples store in OBUF only, so they leave the entries of IBUF (20_memory.md R91). -/
theorem ibufRead_quantSamples {rep : Rep} {s : State} {n i k : Nat} {c d : Stream} (hk : k < 8192)
    (h : quantSamples rep s n i c = .ok d) : ibufRead d.out.mem k = ibufRead c.out.mem k :=
  ibufRead_congr hk le_rfl fun _ ha =>
    quantSamples_outside h (.inl (lt_sampleAddr rep s i ha))

/-- A fault of the samples is the fault of a QUANT that passes its checks. -/
theorem execQuant_of_fault {rep : Rep} {s : State} {f : Fault} (h : QuantChecksPass rep s)
    (hq : quantSamples rep s s.len.toNat 0 (streamOf s) = .error f) :
    exec (quantInstr rep) s = .fault f := by
  rw [exec_quant, quant_pass h, quantRun, hq]

/-- Settles O30: the samples before entry i run through and leave IBUF, so sample i reads the
unwritten entry and stops. -/
theorem quantFaultsAtTheFirstUnwrittenEntry :
    Obligations.QuantFaultsAtTheFirstUnwrittenEntry := by
  intro rep s i hw hpass hi hbefore hunwritten
  have ⟨_, hin, _⟩ := hpass
  unfold InputFits at hin
  have hibuf := (wf_nums hw).2.2.1
  obtain ⟨c, hc⟩ := quantSamples_ok (rep := rep) (i := 0) (n := i) (c := streamOf s) hw (by omega)
    (fun _ _ => rfl) (fun j _ hj => hbefore j (by omega))
  have hentry : ibufRead c.out.mem (s.inBase.toNat + i) = none :=
    (ibufRead_quantSamples (by omega) hc).trans (Option.not_isSome_iff_eq_none.1 hunwritten)
  refine execQuant_of_fault hpass ?_
  obtain ⟨n, hn⟩ : ∃ n, s.len.toNat = i + (n + 1) := ⟨s.len.toNat - i - 1, by omega⟩
  rw [hn, quantSamples_add, hc]
  simp only [Nat.zero_add]
  exact quantSamples_of_unwritten n hentry

/-! ### How FATAL is set -/

/-- Settles O60: of all the ways a command answers, the fatal report alone sets FATAL. -/
theorem fatalComesOnlyFromAnInvalidMethod : Obligations.FatalComesOnlyFromAnInvalidMethod := by
  intro i s t hs h ht
  rcases exec_next h with ⟨_, _, _, rfl, _⟩ | ⟨rfl, hm, hi⟩ | ⟨_, rfl⟩ | ⟨_, _, rfl⟩ |
    ⟨_, _, _, rfl⟩ | ⟨_, _, _, _, _, rfl⟩
  case inr.inl => -- the fatal report
    refine ⟨hi, not_le.1 (of_decide_eq_false hm), rfl, fun hinv => ?_⟩
    exact hinv.method_known.resolve_left (by simp [hm])
  all_goals exact absurd (hs.symm.trans ht) (by decide)

/-! ### What a step leaves while FATAL is set -/

/-- `s` with another held transaction and another queue of the host (log 2). -/
def withHostSide (held : Option Txn) (queue : List HostOp) (s : State) : State :=
  { s with held := held, hostQueue := queue }

/-- What the host's move does: beside what is held and what is queued, at most one transaction takes
effect (70_reset_and_hazards.md R320). -/
theorem hostMove_cases (s : State) :
    ∃ held queue, hostMove s = withHostSide held queue s ∨
      ∃ txn, hostMove s = finish txn (withHostSide held queue s) := by
  unfold hostMove
  split
  · split
    · exact ⟨s.held, s.hostQueue, .inl rfl⟩
    · exact ⟨none, s.hostQueue, .inr ⟨_, rfl⟩⟩
  · exact ⟨s.held, s.hostQueue, .inl rfl⟩
  · split
    · exact ⟨s.held, s.hostQueue, .inr ⟨_, rfl⟩⟩
    · exact ⟨s.held, _, .inr ⟨_, rfl⟩⟩
  · split
    · exact ⟨_, _, .inl rfl⟩
    · exact ⟨s.held, _, .inr ⟨_, rfl⟩⟩

/-- While no command is pending, a step that is not the platform's takes its turn, and the host may
move (log 4). -/
theorem step_of_idle {s t : State} (hb : s.busy = false) (hturn : whoMoves s ≠ .platform)
    (h : step s = .next t) : t = takeTurn s ∨ t = hostMove (takeTurn s) := by
  rw [step, machineStep] at h
  cases hg : whoMoves s with
  | platform => exact absurd hg hturn
  | host => rw [hg] at h; cases h; exact .inr rfl
  | block =>
    rw [hg, agentMove, takeTurn_busy, hb] at h
    cases h
    exact .inl rfl

/-- While FATAL is set no transaction sets BUSY: a CMD write is dropped (60_exceptions.md R275). -/
theorem TxnEffect.busy_of_fatal {s t : State} (e : TxnEffect s t) (hf : s.fatal = true) :
    t.busy = s.busy := by
  cases e with
  | command w hidle => exact absurd (hf.symm.trans hidle) (by decide)
  | _ => rfl

/-- Settles O59: such a step changes the host's side alone, but for at most one transaction, which
keeps the session (O55) and, under FATAL, BUSY. -/
theorem fatalIsLeftOnlyByReset : Obligations.FatalIsLeftOnlyByReset := by
  intro s t hf hb hturn h
  rcases step_of_idle hb hturn h with rfl | rfl
  · exact ⟨hf, hb, rfl, rfl, rfl, rfl, rfl, rfl, rfl, rfl, rfl, rfl, rfl⟩
  · obtain ⟨held, queue, e | ⟨txn, e⟩⟩ := hostMove_cases (takeTurn s) <;> rw [e]
    · exact ⟨hf, hb, rfl, rfl, rfl, rfl, rfl, rfl, rfl, rfl, rfl, rfl, rfl⟩
    · have effect := transact_effect txn (withHostSide held queue (takeTurn s))
      obtain ⟨hmethod, hfmt, htaps, hpos, hseed, hratio, hscale, hinv, hcoef, hhist, hinfo, -,
        hfatal, -⟩ := transactionsNeverWriteTheSession txn _ _ rfl
      exact ⟨hfatal.trans hf, (effect.busy_of_fatal hf).trans hb, hmethod, hfmt, htaps, hpos,
        hseed, hratio, hscale, hinv, hcoef, hhist, hinfo⟩

/-! ### The interrupt output -/

/-- The interrupt is a flag of STATUS [5:1] with the enable of its place. -/
theorem irq_iff (s : State) :
    irq s = true ↔
      ∃ i : Fin 5, ((statusWord s).getLsbD (i + 1) && s.irqEn.getLsbD i) = true := by
  simp [irq, getLsbD_statusWord, Fin.exists_fin_succ, or_assoc]

/-- A place where STATUS and IRQ_EN both have a one is a flag and its enable, one place up. -/
theorem getLsbD_statusWord_and_irqEnWord (s : State) (i : Nat) :
    (statusWord s &&& irqEnWord s).getLsbD (i + 1) =
      ((statusWord s).getLsbD (i + 1) && s.irqEn.getLsbD i) := by
  simp [getLsbD_irqEnWord]

/-- Settles O45: IRQ_EN shows its enables alone, so a one that it shares with STATUS is a flag with
its enable. -/
theorem irqIsTheOrOfTheEnabledSources : Obligations.IrqIsTheOrOfTheEnabledSources := by
  intro s
  rw [BitVec.and_assoc, irqEnWord_masked, irq_iff]
  constructor
  · rintro ⟨i, hi⟩ hzero
    rw [← getLsbD_statusWord_and_irqEnWord, hzero] at hi
    simp at hi
  · intro hne
    by_contra hno
    refine hne (BitVec.eq_of_getLsbD_eq (y := 0#32) fun j _ => ?_)
    rw [BitVec.getLsbD_zero]
    cases j with
    | zero => rw [BitVec.getLsbD_and, getLsbD_irqEnWord]; exact Bool.and_false _
    | succ i =>
      rw [getLsbD_statusWord_and_irqEnWord, ← Bool.not_eq_true]
      intro hi
      have hlt : i < 5 := BitVec.lt_of_getLsbD (Bool.and_eq_true_iff.1 hi).2
      exact hno ⟨⟨i, hlt⟩, hi⟩

end Sys2Proof.Machine
end

section
/-! PROOFS. Reset, the turns and the hazards (70_reset_and_hazards.md R310 to R320): a QUANT over a part of a stream, the values after reset, whose turn a step is, and the host's move under the hold: O4, O7, O33, O48. -/

namespace Sys2Proof.Machine

/-! ### A stream in two parts (R313) -/

/-- `s` with the command registers of a QUANT over the `n` samples from sample `a` on. -/
def withPart (rep : Rep) (a n : Nat) (s : State) : State :=
  { s with
    len := BitVec.ofNat 32 n
    inBase := BitVec.ofNat 32 (s.inBase.toNat + a)
    outBase := BitVec.ofNat 32 (s.outBase.toNat + a * width rep) }

/-- A part from the first sample on has the bases of the whole stream. -/
theorem withPart_zero (rep : Rep) (n : Nat) (s : State) :
    withPart rep 0 n s = { s with len := BitVec.ofNat 32 n } := by
  simp [withPart]

section Part
variable {rep : Rep} {s : State} {a n : Nat} {d : Stream}

/-- The command registers of a part of a stream that fits do not wrap around. -/
theorem withPart_toNat (hw : s.params.wf = true) (hpass : QuantChecksPass rep s)
    (hpart : a + n ≤ s.len.toNat) :
    (withPart rep a n s).len.toNat = n
      ∧ (withPart rep a n s).inBase.toNat = s.inBase.toNat + a
      ∧ (withPart rep a n s).outBase.toNat = s.outBase.toNat + a * width rep := by
  obtain ⟨-, hin, hout, -⟩ := hpass
  obtain ⟨-, -, hibuf, hobuf⟩ := wf_nums hw
  have hbytes : a * width rep ≤ s.len.toNat * width rep := Nat.mul_le_mul_right _ (by omega)
  exact ⟨Nat.mod_eq_of_lt (by omega), Nat.mod_eq_of_lt (by omega),
    Nat.mod_eq_of_lt (by omega)⟩

/-- A part of a stream passes the checks that the whole passes. -/
theorem QuantChecksPass.withPart (hw : s.params.wf = true) (hpass : QuantChecksPass rep s)
    (hpart : a + n ≤ s.len.toNat) : QuantChecksPass rep (withPart rep a n s) := by
  obtain ⟨hlen, hinBase, houtBase⟩ := withPart_toNat hw hpass hpart
  obtain ⟨halign, hin, hout, hmethod⟩ := hpass
  have hbytes := Nat.mul_le_mul_right (width rep) hpart
  rw [Nat.add_mul] at hbytes
  refine ⟨?_, ?_, ?_, hmethod⟩
  · rw [houtBase, Nat.add_mul_mod_self_right, halign]
  · rw [InputFits, hlen, hinBase]
    exact le_trans (by omega) hin
  · rw [OutputFits, hlen, houtBase]
    exact le_trans (by omega) hout

/-- A part's sample is the whole stream's sample further on: its cycle stores at the same address. -/
theorem quantCycle_withPart
    (hout : (withPart rep a n s).outBase.toNat = s.outBase.toNat + a * width rep) (i : Nat) :
    quantCycle rep (withPart rep a n s) i = quantCycle rep s (a + i) := by
  have haddr : sampleAddr rep (withPart rep a n s) i = sampleAddr rep s (a + i) := by
    rw [sampleAddr, sampleAddr, hout, Nat.add_mul, Nat.add_assoc s.outBase.toNat]
  funext x c
  rw [quantCycle, haddr]
  rfl

/-- A part's samples are the whole stream's samples further on. -/
theorem quantSamples_withPart (hin : (withPart rep a n s).inBase.toNat = s.inBase.toNat + a)
    (hout : (withPart rep a n s).outBase.toNat = s.outBase.toNat + a * width rep)
    (k i : Nat) (c : Stream) :
    quantSamples rep (withPart rep a n s) k i c = quantSamples rep s k (a + i) c := by
  induction k generalizing i c with
  | zero => rfl
  | succ k ih =>
    simp only [quantSamples, quantSample, quantCycle_withPart hout, hin, ih, Nat.add_assoc]

/-- A QUANT over a part of a stream runs the part's samples. -/
theorem execQuant_withPart (hw : s.params.wf = true) (hpass : QuantChecksPass rep s)
    (hpart : a + n ≤ s.len.toNat) (hq : quantSamples rep s n a (streamOf s) = .ok d) :
    exec (quantInstr rep) (withPart rep a n s) =
      .next (complete (withStream (withPart rep a n s) d)) := by
  obtain ⟨hlen, hin, hout⟩ := withPart_toNat hw hpass hpart
  refine execQuant_of_samples (hpass.withPart hw hpart) ?_
  rw [hlen, quantSamples_withPart hin hout]
  exact hq

end Part

/-- The samples read nothing of what samples and completion change but their stream. -/
theorem sameOperands_complete_withStream (s : State) (c : Stream) :
    SameOperands s (complete (withStream s c)) := ⟨rfl, rfl, rfl, rfl, rfl, rfl, rfl, rfl⟩

/-- Samples that run through one after another run through in two parts. -/
theorem quantSamples_add_ok {rep : Rep} {s : State} {a b i : Nat} {c e : Stream}
    (h : quantSamples rep s (a + b) i c = .ok e) :
    ∃ d, quantSamples rep s a i c = .ok d ∧ quantSamples rep s b (i + a) d = .ok e := by
  rw [quantSamples_add] at h
  cases hd : quantSamples rep s a i c with
  | ok d => rw [hd] at h; exact ⟨d, rfl, h⟩
  | error f => rw [hd] at h; cases h

/-- Settles O33: each QUANT runs its part of the samples of the whole stream, the second from the
stream that the first leaves. -/
theorem quantOfAStreamSplitsInTwo : Obligations.QuantOfAStreamSplitsInTwo := by
  intro rep s a b hw hready hlen
  have ⟨hpass, _⟩ := hready
  obtain ⟨e, hwhole⟩ := quantSamples_of_ready hw hready
  obtain ⟨d, hfirst, hsecond⟩ := quantSamples_add_ok (hlen ▸ hwhole)
  rw [Nat.zero_add, ← quantSamples_congr (sameOperands_complete_withStream s d)] at hsecond
  have hexec := execQuant_withPart hw hpass (by omega) hfirst
  rw [withPart_zero] at hexec
  exact ⟨_, _, hexec,
    execQuant_withPart (s := complete (withStream s d)) hw hpass hlen.ge hsecond,
    execQuant_of_samples hpass hwhole⟩

/-! ### The values after reset (R310) -/

/-- Every flag, the error code and BUSY are 0 in STATUS after reset. -/
theorem statusWord_resetOf (p : Params) : statusWord (State.resetOf p) = 0 := by
  have hclear : 0#20 ++ errCodeBits .none ++ 0#2 ++ 0#1 ++ 0#1 ++ 0#1 ++ 0#1 ++ 0#1 ++ 0#1 = 0#32 := by
    decide
  exact hclear

/-- No enable is set after reset. -/
theorem irqEnWord_resetOf (p : Params) : irqEnWord (State.resetOf p) = 0 := by
  have hclear : 0#26 ++ 0#5 ++ 0#1 = 0#32 := by decide
  exact hclear

/-- A file of zeros has its length, and each of its entries is +0.0. -/
theorem replicate_zero_entries (cap : Nat) :
    (List.replicate cap (0 : F64)).length = cap
      ∧ ∀ k < cap, (List.replicate cap (0 : F64))[k]? = some 0 :=
  ⟨List.length_replicate, fun _ hk => List.getElem?_replicate_of_lt hk⟩

/-- Settles O4: STATUS, IRQ_EN and the files, and every other item is a field of the reset state. -/
theorem resetLeavesTheValuesOfTheTable : Obligations.ResetLeavesTheValuesOfTheTable :=
  fun p => ⟨rfl, rfl, statusWord_resetOf p, irqEnWord_resetOf p, rfl, rfl, rfl, rfl, rfl, rfl, rfl,
    rfl, rfl, rfl, rfl, rfl, rfl, rfl, rfl, rfl, rfl, rfl, replicate_zero_entries p.cap,
    replicate_zero_entries p.cap, memByte_nil, rfl⟩

/-! ### Whose turn a step is (R311, log 3) -/

/-- The first of the turns says who moves. -/
theorem whoMoves_cons {s : State} {g : Agent} {gs : List Agent} (h : s.turns = g :: gs) :
    whoMoves s = g := by
  rw [whoMoves, h]

/-- With no turn left the block moves while it is busy, and the host otherwise. -/
theorem whoMoves_nil {s : State} (h : s.turns = []) :
    whoMoves s = if s.busy then .block else .host := by
  rw [whoMoves, h]

/-- A step is the move of the agent whose turn it is. -/
theorem step_of_whoMoves {s : State} {g : Agent} (h : whoMoves s = g) :
    step s = agentMove g (takeTurn s) := by
  rw [step, machineStep, h]

/-- Settles O7: the platform's move is the reset, after its turn is taken. -/
theorem platformTurnResetsTheBlock : Obligations.PlatformTurnResetsTheBlock := by
  intro s rest h
  have hturns : (takeTurn s).turns = rest := congrArg List.tail h
  rw [step_of_whoMoves (whoMoves_cons h), ← hturns]
  rfl

/-! ### The host's move (R320) -/

/-- A transaction is never held at the six addresses of R320. -/
theorem neverHeld_iff (a : Addr) :
    neverHeld a = true ↔ a ∈ [0x000, 0x004, 0x008, 0x00C, 0x014, 0x018] := by
  simp [neverHeld, or_assoc]

theorem mustHold_iff (s : State) (t : Txn) :
    mustHold s t = true ↔
      s.busy = true ∧ txnAddr t ∉ [0x000, 0x004, 0x008, 0x00C, 0x014, 0x018] := by
  rw [← neverHeld_iff, mustHold, Bool.and_eq_true, Bool.not_eq_true', Bool.not_eq_true]

section HostMove
variable {s : State} {t : Txn} {rest : List HostOp}

/-- A held transaction waits for BUSY = 0. -/
theorem hostMove_of_held (h : s.held = some t) :
    hostMove s = if s.busy then s else finish t { s with held := none } := by
  rw [hostMove, h]

/-- A new transaction is held, or takes effect at once. -/
theorem hostMove_of_txn (h : s.held = none) (hq : s.hostQueue = .txn t :: rest) :
    hostMove s = if mustHold s t then { s with held := some t, hostQueue := rest }
      else finish t { s with hostQueue := rest } := by
  rw [hostMove, h, hq]

/-- WAIT reads STATUS, and is done when it reads BUSY = 0. -/
theorem hostMove_of_wait (h : s.held = none) (hq : s.hostQueue = .wait :: rest) :
    hostMove s =
      finish (.read statusAddr) (if s.busy then s else { s with hostQueue := rest }) := by
  rw [hostMove, h, hq]

/-- A host with nothing to issue has no move (log 4). -/
theorem hostMove_of_nothing (h : s.held = none) (hq : s.hostQueue = []) : hostMove s = s := by
  rw [hostMove, h, hq]

end HostMove

/-- No transaction touches what the host has got back. -/
theorem TxnEffect.responses {s s' : State} (e : TxnEffect s s') : s'.responses = s.responses := by
  cases e <;> rfl

/-- A transaction takes effect, and its response is appended to what the host has got back. -/
theorem finish_eq (t : Txn) (s : State) :
    finish t s = { (transact t s).2 with responses := s.responses ++ [(transact t s).1] } := by
  rw [← (transact_effect t s).responses]
  rfl

/-- Settles O48: one clause for each kind of move, with BUSY and the address deciding on the hold. -/
theorem busyHoldsTheHostsTransactions : Obligations.BusyHoldsTheHostsTransactions := by
  intro s t rest
  refine ⟨fun hb h hq ha => ?_, fun _ h hq ha => ?_, fun hb h => ?_, fun hb h => ?_,
    fun hb h hq => ?_, hostMove_of_wait, hostMove_of_nothing, finish_eq t s, fun _ => rfl,
    fun _ _ => rfl, step_of_whoMoves, fun _ _ => whoMoves_cons, whoMoves_nil⟩
  · rw [hostMove_of_txn h hq, if_pos ((mustHold_iff s t).2 ⟨hb, ha⟩)]
  · rw [hostMove_of_txn h hq, if_neg fun hhold => ((mustHold_iff s t).1 hhold).2 ha]
  · rw [hostMove_of_held h, if_pos hb]
  · rw [hostMove_of_held h, hb]
    rfl
  · have hfree : ¬ mustHold s t = true := fun hhold =>
      absurd (hb.symm.trans ((mustHold_iff s t).1 hhold).1) (by decide)
    rw [hostMove_of_txn h hq, if_neg hfree]

end Sys2Proof.Machine
end
